-- ==== Sys2Proof/Word.lean ====
section
/-!
DEFINITION. The word types of the block (00_scope.md R7, R9, R10; 10_state.md R15 to R22).
-/
namespace Sys2Proof

/-- A register of the space `REG`, a command word, or a frequency: 32 bits (R7, R15). -/
abbrev Word := BitVec 32

/-- A byte of `IN` or `OUT`, and a symbol: 8 bits (R7, R31). -/
abbrev Byte := BitVec 8

/-- A node id, a 9-bit unsigned number (30_encoding.md R57). -/
abbrev NodeId := BitVec 9

/-- A node's weight, 40 bits (R7, R17). -/
abbrev Weight := BitVec 40

/-- A bit string, its first bit first; `true` is the bit 1 (R10). -/
abbrev BitString := List Bool

end Sys2Proof
end

