-- ==== Sys2Proof/Syntax.lean ====
section
/-!
DEFINITION. The instructions: the eleven commands of 30_encoding.md R47, one constructor per row of
spec/opcode_table.json. A command word has no operand fields (R46), so no constructor has an argument.
-/
namespace Sys2Proof

/-- A command of HUFFCORE (R47). -/
inductive Instr
  /-- Does nothing (R87). -/
  | nop
  /-- Returns the control state to its reset values; the way out of `ERROR` (R88). -/
  | clear
  /-- Counts the bytes of the input (R59). -/
  | freq
  /-- Builds the Huffman tree from the frequency table (R64). -/
  | build
  /-- Derives the code table from the tree (R70). -/
  | gen
  /-- Writes the header into `OUT` (R75). -/
  | hdrw
  /-- Packs the codes of the input bytes into `OUT` (R80). -/
  | pack
  /-- Parses the header at the start of `IN` (R76). -/
  | hdrp
  /-- Decodes the payload that follows the parsed header (R82). -/
  | unpack
  /-- The compression pipeline (R89). -/
  | compress
  /-- The decompression pipeline (R90). -/
  | decompress
  deriving DecidableEq, Repr

end Sys2Proof
end

