-- ==== Sys2Proof/Decode.lean ====
section
/-!
DEFINITION. The command word (30_encoding.md R46 to R48): the decoder, total on every 32-bit value, and after it the
encoder, each written from the opcode map of R47.
-/
namespace Sys2Proof

/-- Why a word is not one of the eleven commands (R48). -/
inductive Reject
  /-- A bit of the field `ZERO`, bits 31..8, is set. -/
  | zeroField
  /-- `OP` is 0x0B..0xFF. -/
  | reservedOpcode
  deriving DecidableEq, Repr

/-- The field `OP`, bits 7..0 (R46). -/
def opField (w : Word) : BitVec 8 := w.extractLsb' 0 8

/-- The field `ZERO`, bits 31..8 (R46). -/
def zeroField (w : Word) : BitVec 24 := w.extractLsb' 8 24

/-- The opcode map (R47). -/
def opcodeInstr (op : Nat) : Option Instr :=
  match op with
  | 0x00 => some .nop
  | 0x01 => some .clear
  | 0x02 => some .freq
  | 0x03 => some .build
  | 0x04 => some .gen
  | 0x05 => some .hdrw
  | 0x06 => some .pack
  | 0x07 => some .hdrp
  | 0x08 => some .unpack
  | 0x09 => some .compress
  | 0x0A => some .decompress
  | _ => none

/-- Every 32-bit value is one of the eleven words of R47 or illegal (R48). -/
def decode (w : Word) : Except Reject Instr :=
  if zeroField w = 0#24 then
    match opcodeInstr (opField w).toNat with
    | some i => .ok i
    | none => .error .reservedOpcode
  else .error .zeroField

/-- The opcode of a command (R47). -/
def opcodeOf (i : Instr) : BitVec 8 :=
  match i with
  | .nop => 0x00#8
  | .clear => 0x01#8
  | .freq => 0x02#8
  | .build => 0x03#8
  | .gen => 0x04#8
  | .hdrw => 0x05#8
  | .pack => 0x06#8
  | .hdrp => 0x07#8
  | .unpack => 0x08#8
  | .compress => 0x09#8
  | .decompress => 0x0A#8

/-- The command word of a command: `ZERO` then `OP` (R46, R47). -/
def encode (i : Instr) : Word := 0#24 ++ opcodeOf i

/-- The 32-bit value whose low `nbits` bits are those of `w` and whose other bits are 0. The table numbers a command
word as R46 does, bit 0 the least significant; a command word is written whole, so no byte order arises (R35). -/
def tableWord (nbits w : Nat) : Word := BitVec.ofNat 32 (w % 2 ^ nbits)

/-- The command the decoder reads from a table row's bits. -/
def decodeTableWord (nbits w : Nat) : Option Instr :=
  match decode (tableWord nbits w) with
  | .ok i => some i
  | .error _ => none

end Sys2Proof
end

