-- ==== Sys2Proof/Machine/HostAccess.lean ====
section
/-!
DEFINITION. The events at the block's outer interface: the host primitives of 20_memory.md R33, the reset event of
70_reset_and_hazards.md R105, and the accesses that R33, R36 and R107 say have no meaning.
-/
namespace Sys2Proof.Machine

/-- The three host-visible address spaces (20_memory.md R31). -/
inductive Space
  | reg
  | input
  | output
  deriving DecidableEq, Repr

/-- One event of a host program (20_memory.md R33, 30_encoding.md R58). -/
inductive HostAccess
  /-- `HostWriteReg(off, v)`; at offset 0x00 it runs the command word `v`. -/
  | writeReg (off : Nat) (v : Word)
  /-- `HostReadReg(off)`. -/
  | readReg (off : Nat)
  /-- `HostWriteIn(i, b)`. -/
  | writeIn (i : Nat) (b : Byte)
  /-- `HostReadIn(i)`. -/
  | readIn (i : Nat)
  /-- `HostReadOut(i)`. -/
  | readOut (i : Nat)
  /-- A reset of the block, between two primitives (R105). -/
  | reset
  /-- A write to `OUT`: not part of the interface (R33). -/
  | writeOut (i : Nat) (b : Byte)
  /-- An access of `bytes` bytes in a space whose accesses have another width: not part of the interface (R33, R36). -/
  | otherWidth (sp : Space) (index bytes : Nat)
  /-- An access by a second bus master while a command runs: outside the spec (R107). -/
  | duringCommand
  deriving DecidableEq, Repr

/-- What a host read returned: a register's word or a buffer's byte. -/
inductive ReadValue
  | word (w : Word)
  | byte (b : Byte)
  deriving DecidableEq, Repr

end Sys2Proof.Machine
end

