-- ==== Sys2Proof/Config.lean ====
section
/-!
DEFINITION. What the platform fixes (`IN_CAP`, `OUT_CAP`: 00_scope.md R7) and the free values: the "draws" of the
glossary, values no rule fixes (93_implementation_defined.md section 2). A free value is an opaque constant, so that
nothing can be proved of it but what holds for every value.
-/
namespace Sys2Proof

/-- The capacities of the two buffers, in bytes (R7). -/
structure Caps where
  inCap : Nat
  outCap : Nat
  deriving DecidableEq, Repr

/-- The bounds R7 states for the two open parameters. -/
abbrev Caps.ok (c : Caps) : Prop :=
  1 ≤ c.inCap ∧ c.inCap < 2 ^ 32 ∧ 1285 ≤ c.outCap ∧ c.outCap < 2 ^ 32

/-- The platform's open choice of `IN_CAP` (93_implementation_defined.md U1). -/
opaque Config.inCapChoice : BitVec 32

/-- The platform's open choice of `OUT_CAP` (U1). -/
opaque Config.outCapChoice : BitVec 32

/-- The capacities the platform chose: any pair within the bounds of R7. DESIGN CHOICE (log 3): carried as an open
value, so no claim can rest on a particular pair. -/
def Config.caps : Caps where
  inCap := Config.inCapChoice.toNat % (2 ^ 32 - 1) + 1
  outCap := Config.outCapChoice.toNat % (2 ^ 32 - 1285) + 1285

/-- What the byte `IN[i]` reads as when the host has not written it since reset number `r` (U5, R30). -/
opaque Config.freeIn : (r i : Nat) → Byte

/-- What `OUT[i]` reads as at an index at or beyond `OUT_LEN`; `d` counts how often `OUT` was made unspecified (U4). -/
opaque Config.freeOut : (d i : Nat) → Byte

/-- `FREQ[s]` after the tables became unspecified for the `d`-th time (U3). -/
opaque Config.freeFreq : (d s : Nat) → BitVec 32

/-- `WEIGHT[id]` after the tables became unspecified for the `d`-th time (U3). -/
opaque Config.freeWeight : (d id : Nat) → Weight

/-- `LEFT[256 + k]` after the tables became unspecified for the `d`-th time (U3). -/
opaque Config.freeLeft : (d k : Nat) → NodeId

/-- `RIGHT[256 + k]` after the tables became unspecified for the `d`-th time (U3). -/
opaque Config.freeRight : (d k : Nat) → NodeId

/-- `INQ[id]` after the tables became unspecified for the `d`-th time (U3). -/
opaque Config.freeInq : (d id : Nat) → Bool

/-- `CODE_LEN[s]` after the tables became unspecified for the `d`-th time (U3). -/
opaque Config.freeCodeLen : (d s : Nat) → BitVec 8

/-- Bit `t` of `CODE[s]` where no rule fixes it (U3). -/
opaque Config.freeCodeBit : (d s t : Nat) → Bool

end Sys2Proof
end

