-- ==== Sys2Proof/Machine/Memory.lean ====
section
/-!
DEFINITION. The storage of the buffers `IN` and `OUT` (20_memory.md R31, R36): a list of (index, byte) cells in one
canonical form. The only access width is one byte.
-/
namespace Sys2Proof.Machine

/-- A buffer's cells, indices strictly rising; an index that is not listed holds no byte that a rule fixes. -/
abbrev Memory := List Host.Cell

/-- What an unlisted index reads as: no value. A buffer's unwritten bytes are unspecified (10_state.md R29); each reader
turns "no value" into the free value its rule asks for (log 7, 8). -/
def Memory.unlisted : Option Byte := none

/-- The canonical form: indices strictly rising. No cell can equal what an unlisted index reads as. -/
abbrev Memory.wf (m : Memory) : Prop := List.Pairwise (fun a b => a.1 < b.1) m

/-- The byte at index `i`. -/
def Memory.read (m : Memory) (i : Nat) : Option Byte :=
  match m with
  | [] => Memory.unlisted
  | c :: rest => if c.1 = i then some c.2 else Memory.read rest i

/-- The memory with byte `b` at index `i`. -/
def Memory.write (m : Memory) (i : Nat) (b : Byte) : Memory :=
  match m with
  | [] => [(i, b)]
  | c :: rest =>
    if i < c.1 then (i, b) :: c :: rest
    else if i = c.1 then (i, b) :: rest
    else c :: Memory.write rest i b

end Sys2Proof.Machine
end

