-- ==== Sys2Proof/Machine/Table.lean ====
section
/-!
DEFINITION. The internal tables as vectors (10_state.md R16 to R20; notation 00_scope.md R12): read, write, and the table
of a function of the index; the indices that satisfy a condition; and the free contents of unspecified tables (U3).
-/
namespace Sys2Proof.Machine

/-- `x[i]`; `d` stands for an index outside the table, which no command uses. -/
def tget {α : Type} {n : Nat} (v : Vector α n) (i : Nat) (d : α) : α :=
  if h : i < n then v[i] else d

/-- `x[i] <- a`; an index outside the table, which no command uses, writes nothing. -/
def tset {α : Type} {n : Nat} (v : Vector α n) (i : Nat) (a : α) : Vector α n :=
  if h : i < n then v.set i a h else v

/-- The table whose entry `i` is `f i`. -/
def tabulate {α : Type} (n : Nat) (f : Nat → α) : Vector α n :=
  ⟨⟨(List.range n).map f⟩, by simp⟩

/-- The positions, counted from `i`, of the members of a list that satisfy `p`, in ascending order. -/
def indicesFrom {α : Type} (p : α → Bool) (l : List α) (i : Nat) : List Nat :=
  match l with
  | [] => []
  | x :: xs => if p x then i :: indicesFrom p xs (i + 1) else indicesFrom p xs (i + 1)

/-- The indices of a table whose entries satisfy `p`, in ascending order. -/
def indicesOf {α : Type} {n : Nat} (p : α → Bool) (v : Vector α n) : List Nat :=
  indicesFrom p v.toList 0

/-- `FREQ[]` unspecified for the `d`-th time. -/
def freeFreqTable (d : Nat) : Vector (BitVec 32) 256 := tabulate 256 (Config.freeFreq d)

/-- `WEIGHT[]` unspecified for the `d`-th time. -/
def freeWeightTable (d : Nat) : Vector Weight 511 := tabulate 511 (Config.freeWeight d)

/-- `LEFT[]` unspecified for the `d`-th time. -/
def freeLeftTable (d : Nat) : Vector NodeId 255 := tabulate 255 (Config.freeLeft d)

/-- `RIGHT[]` unspecified for the `d`-th time. -/
def freeRightTable (d : Nat) : Vector NodeId 255 := tabulate 255 (Config.freeRight d)

/-- `INQ[]` unspecified for the `d`-th time. -/
def freeInqTable (d : Nat) : Vector Bool 511 := tabulate 511 (Config.freeInq d)

/-- `CODE_LEN[]` unspecified for the `d`-th time. -/
def freeCodeLenTable (d : Nat) : Vector (BitVec 8) 256 := tabulate 256 (Config.freeCodeLen d)

/-- `CODE[]` unspecified for the `d`-th time: bit strings of the lengths `CODE_LEN[s]` (R20). -/
def freeCodeTable (d : Nat) : Vector BitString 256 :=
  tabulate 256 fun s => (List.range (Config.freeCodeLen d s).toNat).map (Config.freeCodeBit d s)

end Sys2Proof.Machine
end

