-- ==== Sys2Proof/Machine/State.lean ====
section
/-!
DEFINITION. The state of HUFFCORE (10_state.md R13 to R30), the reasons a step of the model can stop, and the state after
reset (10_state.md R29, 70_reset_and_hazards.md R105).
-/
namespace Sys2Proof.Machine

/-- The field `STATE` of `STATUS` (R14, R24); the value 3 is never produced. -/
inductive Phase
  /-- After reset or `CLEAR`. -/
  | idle
  /-- The last command completed without error. -/
  | done
  /-- A command raised an error; sticky. -/
  | error
  deriving DecidableEq, Repr

/-- Stops in states that no run reaches: the pseudocode takes a step there that has no meaning. An error of the block
(60_exceptions.md R92) is not one of these; it is taken, and the machine goes on. -/
inductive Fault
  /-- `BUILD`, `COMPRESS`, `DECOMPRESS`: `ROOT <- the one member of PQ` where `PQ` has not exactly one member, because
  `NSYM > 0` and `FREQ[]` has no entry above 0. Safe: the model stops. -/
  | emptyQueue
  /-- `GEN`, `UNPACK`, `COMPRESS`, `DECOMPRESS`: the children of an id that names no internal node. Safe: the model stops. -/
  | noSuchNode
  /-- `GEN`, `COMPRESS`, `DECOMPRESS`: a path of more than 255 branches, so the arena holds no tree (R71). Safe: the model
  stops. -/
  | arenaNotTree
  deriving DecidableEq, Repr

/-- What the model gives no meaning: accesses of the host that the spec leaves outside the interface. -/
inductive Refusal
  /-- An instruction that has no meaning yet. Safe: the model stops. -/
  | notModelled (mnemonic : String)
  /-- A register access at an offset that is not a multiple of 4 or lies above 0x3C (20_memory.md R33, R36). Safe. -/
  | regOffset
  /-- A host access of `IN` at an index at or above `IN_CAP` (R33). Safe. -/
  | inIndex
  /-- A host read of `OUT` at an index at or above `OUT_CAP` (R33). Safe. -/
  | outIndex
  /-- A host write of `OUT` (R33). Safe. -/
  | outWrite
  /-- A host access of another width than its space has (R33, R36). Safe. -/
  | accessWidth
  /-- An access by another bus master while a command runs (70_reset_and_hazards.md R107). Safe. -/
  | accessDuringCommand
  deriving DecidableEq, Repr

/-- The whole state. `STATUS`, `LBITS_LO`, `LBITS_HI` and `TREE` are views of these fields (Machine/Flags.lean,
Machine/Ops.lean). -/
structure State where
  /-- `IN_CAP` and `OUT_CAP` (R28): configuration, carried here so that a claim is about every value of them; no step
  changes them (log 3). -/
  caps : Caps
  /-- `CMD`, the last command word accepted (R23). -/
  cmd : Word
  /-- `STATUS.STATE` (R24). -/
  phase : Phase
  /-- `STATUS.FREQ_V` (R24, R25). -/
  freqV : Bool
  /-- `STATUS.TREE_V` (R24, R25). -/
  treeV : Bool
  /-- `STATUS.CODE_V` (R24, R25). -/
  codeV : Bool
  /-- `STATUS.HDR_V` (R24, R25). -/
  hdrV : Bool
  /-- `STATUS.ERR`, the error class (R24, 60_exceptions.md R92). -/
  err : BitVec 4
  /-- `STATUS.DETAIL`, the error detail (R24, R92). -/
  detail : BitVec 8
  /-- `IN_LEN` (R22). -/
  inLen : Word
  /-- `OUT_LEN` (R22). -/
  outLen : Word
  /-- `IN_POS` (R22). -/
  inPos : Word
  /-- `NSYM` (R18). -/
  nsym : BitVec 9
  /-- `NINT` (R18). -/
  nint : BitVec 8
  /-- `ROOT` (R18). -/
  root : NodeId
  /-- `PAD` (R21). -/
  pad : BitVec 3
  /-- `LBITS` (R21). -/
  lbits : BitVec 48
  /-- `FREQ[0..255]` (R16). -/
  freq : Vector (BitVec 32) 256
  /-- `WEIGHT[0..510]` (R17). -/
  weight : Vector Weight 511
  /-- `LEFT[256..510]`; entry `k` is `LEFT[256 + k]` (R17). -/
  left : Vector NodeId 255
  /-- `RIGHT[256..510]`; entry `k` is `RIGHT[256 + k]` (R17). -/
  right : Vector NodeId 255
  /-- `INQ[0..510]`, the membership bits of `PQ` (R19). -/
  inq : Vector Bool 511
  /-- `CODE_LEN[0..255]` (R20). -/
  codeLen : Vector (BitVec 8) 256
  /-- `CODE[0..255]` (R20). -/
  code : Vector BitString 256
  /-- The bytes of `IN` written since reset (20_memory.md R32). -/
  inBuf : Memory
  /-- The bytes of `OUT` below `OUT_LEN` (20_memory.md R34). -/
  outBuf : Memory
  /-- The model's own: how often `OUT` or the tables were made unspecified; selects their free values (log 5). -/
  draws : Nat
  /-- The model's own: which reset the bytes of `IN` are unwritten since; selects their free values (log 8). -/
  resets : Nat
  /-- The model's own: the accesses the host makes next, first one first (30_encoding.md R58, log 1). -/
  hostProgram : List HostAccess
  /-- The model's own: what the host's reads returned, newest first (log 12). -/
  hostReads : List ReadValue
  deriving DecidableEq, Repr

/-- The state after a reset of a block of capacities `caps`: every scalar as R29 has it, the tables and both buffers
unspecified. -/
def State.powerOn (caps : Caps) (draws resets : Nat) : State where
  caps := caps
  cmd := 0
  phase := .idle
  freqV := false
  treeV := false
  codeV := false
  hdrV := false
  err := 0
  detail := 0
  inLen := 0
  outLen := 0
  inPos := 0
  nsym := 0
  nint := 0
  root := 0
  pad := 0
  lbits := 0
  freq := freeFreqTable draws
  weight := freeWeightTable draws
  left := freeLeftTable draws
  right := freeRightTable draws
  inq := freeInqTable draws
  codeLen := freeCodeLenTable draws
  code := freeCodeTable draws
  inBuf := []
  outBuf := []
  draws := draws
  resets := resets
  hostProgram := []
  hostReads := []

/-- The machine right after reset, for the capacities the platform chose, with no host access pending (R29, R105). -/
def State.reset : State := State.powerOn Config.caps 0 0

end Sys2Proof.Machine
end

