-- ==== Sys2Proof/Machine/Errors.lean ====
section
/-!
DEFINITION. The errors of the block (60_exceptions.md R92) and the result of a command's pseudocode.
-/
namespace Sys2Proof.Machine

/-- The rows of R92's table. -/
inductive CmdError
  | hdrTrunc
  | hdrCount
  | hdrOrder
  | hdrZeroFreq
  | hdrPad
  | payloadLen
  | exhausted
  | noCode
  | illegalCmd
  | freqNotValid
  | emptyAlphabet
  | treeNotValid
  | codeNotValid
  | hdrNotValid
  | outFull
  | inLenRange
  deriving DecidableEq, Repr

/-- The class an error records in `STATUS.ERR` (R92). -/
def CmdError.cls (e : CmdError) : BitVec 4 :=
  match e with
  | .hdrTrunc | .hdrCount | .hdrOrder | .hdrZeroFreq | .hdrPad | .payloadLen | .exhausted => 1
  | .noCode => 2
  | .illegalCmd => 3
  | .freqNotValid | .emptyAlphabet | .treeNotValid | .codeNotValid | .hdrNotValid => 4
  | .outFull | .inLenRange => 5

/-- The detail an error records in `STATUS.DETAIL` (R92). -/
def CmdError.detail (e : CmdError) : BitVec 8 :=
  match e with
  | .hdrTrunc => 1
  | .hdrCount => 2
  | .hdrOrder => 3
  | .hdrZeroFreq => 4
  | .hdrPad => 5
  | .payloadLen => 6
  | .exhausted => 7
  | .noCode => 1
  | .illegalCmd => 0
  | .freqNotValid => 1
  | .emptyAlphabet => 2
  | .treeNotValid => 3
  | .codeNotValid => 4
  | .hdrNotValid => 5
  | .outFull => 1
  | .inLenRange => 2

/-- Why a command's pseudocode ended before its end: `raise Error(..)` (00_scope.md R12), or a stop of the model. -/
inductive Stop
  | raise (e : CmdError)
  | stuck (f : Fault)
  deriving DecidableEq, Repr

/-- The result of a piece of pseudocode. -/
abbrev Run (α : Type) := Except Stop α

/-- `if not c: raise e` (R12). -/
def require (c : Bool) (e : CmdError) : Run Unit :=
  if c then .ok () else .error (.raise e)

end Sys2Proof.Machine
end

