-- ==== Sys2Proof/Machine/Flags.lean ====
section
/-!
DEFINITION. `STATUS` and the validity flags (10_state.md R24, R25). The block has no arithmetic condition codes.
-/
namespace Sys2Proof.Machine

/-- The value of `STATE` in `STATUS[1:0]` (R24). -/
def Phase.code (p : Phase) : BitVec 2 :=
  match p with
  | .idle => 0
  | .done => 1
  | .error => 2

/-- The register `STATUS` as the host reads it (R24). -/
def State.statusWord (s : State) : Word :=
  0#8 ++ s.detail ++ 0#4 ++ s.err ++ 0#2 ++ BitVec.ofBool s.hdrV ++ BitVec.ofBool s.codeV ++ BitVec.ofBool s.treeV
    ++ BitVec.ofBool s.freqV ++ s.phase.code

/-- The flags a completed `FREQ` writes (R25). -/
def State.flagsFreq (s : State) : State :=
  { s with freqV := true, treeV := false, codeV := false, hdrV := false }

/-- The flags a completed `BUILD` writes (R25). -/
def State.flagsBuild (s : State) : State := { s with treeV := true, codeV := false }

/-- The flag a completed `GEN` writes (R25). -/
def State.flagsGen (s : State) : State := { s with codeV := true }

/-- The flag a completed `HDRW` or `PACK` writes: `PAD` no longer is the parsed one (R25). -/
def State.flagsHdrw (s : State) : State := { s with hdrV := false }

/-- The flags a completed `HDRP` writes (R25). -/
def State.flagsHdrp (s : State) : State :=
  { s with freqV := true, treeV := false, codeV := false, hdrV := true }

/-- All four flags cleared, by `CLEAR` and by error entry (R25). -/
def State.flagsNone (s : State) : State :=
  { s with freqV := false, treeV := false, codeV := false, hdrV := false }

end Sys2Proof.Machine
end

