-- ==== Sys2Proof/Machine/Ops.lean ====
section
/-!
DEFINITION. The named operations over registers and buffers: the sequencer's reads of `IN` and writes of `OUT`, error
entry (60_exceptions.md R98) and the way out of it (45_control_and_composite.md R88), the completion of a command and the
frame every command runs in (45_control_and_composite.md R86), and the registers as the host sees them (10_state.md R15).
-/
namespace Sys2Proof.Machine

/-! ## The buffers -/

/-- `MemRead(IN:i, 1)` (00_scope.md R12). A byte the host has not written since reset is a free value, the same for every
read until the next reset (10_state.md R30, U5, log 8). -/
def State.inByte (s : State) (i : Nat) : Byte :=
  (Memory.read s.inBuf i).getD (Config.freeIn s.resets i)

/-- The input of a command, `IN[0..IN_LEN - 1]`, in index order (10_state.md R22). -/
def State.inputBytes (s : State) : List Byte := (List.range s.inLen.toNat).map s.inByte

/-- `OUT[i]`. A byte at or beyond `OUT_LEN` is a free value (20_memory.md R34, 10_state.md R30, log 7). -/
def State.outByte (s : State) (i : Nat) : Byte :=
  if i < s.outLen.toNat then (Memory.read s.outBuf i).getD (Config.freeOut s.draws i)
  else Config.freeOut s.draws i

/-- The output of a command, `OUT[0..OUT_LEN - 1]`, in index order (10_state.md R22). -/
def State.outputBytes (s : State) : List Byte := (List.range s.outLen.toNat).map s.outByte

/-- `OUT_LEN <- 0`: every byte of `OUT` is at or beyond `OUT_LEN`, so none is held (20_memory.md R34, log 7). -/
def State.outRestart (s : State) : State :=
  { s with outLen := 0, outBuf := [], draws := s.draws + 1 }

/-- `MemWrite(OUT:OUT_LEN, 1, v); OUT_LEN <- OUT_LEN + 1` (43_header_codec.md R75 block H1). -/
def State.put (s : State) (v : Byte) : State :=
  { s with outBuf := Memory.write s.outBuf s.outLen.toNat v, outLen := s.outLen + 1 }

/-- The bytes of `l` put in order. -/
def State.putAll (s : State) (l : List Byte) : State := l.foldl State.put s

/-- `put`, or `CAPACITY` detail 1 where the byte would be written at `OUT[OUT_CAP]` (60_exceptions.md R97). -/
def State.emit (s : State) (v : Byte) : Run State :=
  if s.outLen.toNat = s.caps.outCap then .error (.raise .outFull) else .ok (s.put v)

/-- `if IN_LEN > IN_CAP: raise Error(CAPACITY, 2)` (60_exceptions.md R97). -/
def State.requireInLen (s : State) : Run Unit :=
  require (!decide (s.inLen.toNat > s.caps.inCap)) .inLenRange

/-! ## Errors, completion, and the frame of a command -/

/-- All internal tables become unspecified: free values drawn with the present count (U3, log 5). -/
def State.forgetTables (s : State) : State :=
  { s with
    freq := freeFreqTable s.draws
    weight := freeWeightTable s.draws
    left := freeLeftTable s.draws
    right := freeRightTable s.draws
    inq := freeInqTable s.draws
    codeLen := freeCodeLenTable s.draws
    code := freeCodeTable s.draws }

/-- `OUT_LEN`, `IN_POS`, `NSYM`, `NINT`, `ROOT`, `PAD`, `LBITS` to 0 (R88, R98). -/
def State.zeroResults (s : State) : State :=
  { s.outRestart with inPos := 0, nsym := 0, nint := 0, root := 0, pad := 0, lbits := 0 }

/-- Error entry (60_exceptions.md R98): what every error of the block does, in one step. -/
def State.raise (s : State) (e : CmdError) : State :=
  { s.flagsNone.zeroResults.forgetTables with phase := .error, err := e.cls, detail := e.detail }

/-- The way out of `ERROR`, block S1 of 45_control_and_composite.md R88. The tables are left as they are. -/
def State.clear (s : State) : State :=
  { s.flagsNone.zeroResults with phase := .idle, err := 0, detail := 0 }

/-- A command other than `NOP` and `CLEAR` completes (45_control_and_composite.md R86 (3)). -/
def State.complete (s : State) : State := { s with phase := .done, err := 0, detail := 0 }

/-- `CMD <- w` (45_control_and_composite.md R86 (2)). -/
def State.accept (s : State) (w : Word) : State := { s with cmd := w }

/-- How the pseudocode of an accepted command ends: completion (R86 (3)) or error entry (R86 (4)). -/
def State.finish (s : State) (r : Run State) : Host.Outcome State Fault Refusal :=
  match r with
  | .ok t => .next t.complete
  | .error (.raise e) => .next (s.raise e)
  | .error (.stuck f) => .fault f

/-- A write of the legal word `w`, which is not `CLEAR`, to `CMD` (R86): ignored in `ERROR`, else the pseudocode `body`
runs. Error entry keeps nothing of the partial work (R98), so it starts from the state in which the command began. -/
def State.command (s : State) (w : Word) (body : State → Run State) : Host.Outcome State Fault Refusal :=
  if s.phase = .error then .next s else (s.accept w).finish (body (s.accept w))

/-- A write of an illegal word to `CMD` (R86, 30_encoding.md R48, 60_exceptions.md R95). -/
def State.illegalWord (s : State) (w : Word) : Host.Outcome State Fault Refusal :=
  s.command w fun _ => .error (.raise .illegalCmd)

/-! ## The registers of the space REG -/

/-- The register `TREE`: `NINT` in bits 23..16, `ROOT` in bits 8..0 (10_state.md R15). -/
def State.treeWord (s : State) : Word := 0#8 ++ s.nint ++ 0#7 ++ s.root

/-- What a host read of `REG` at a legal offset returns (10_state.md R15): bits not named read 0, reserved offsets read 0. -/
def State.readReg (s : State) (off : Nat) : Word :=
  match off with
  | 0x00 => s.cmd
  | 0x04 => s.statusWord
  | 0x08 => s.inLen
  | 0x0C => s.outLen
  | 0x10 => s.inPos
  | 0x14 => s.nsym.setWidth 32
  | 0x18 => s.pad.setWidth 32
  | 0x1C => s.lbits.extractLsb' 0 32
  | 0x20 => (s.lbits.extractLsb' 32 16).setWidth 32
  | 0x24 => s.treeWord
  | _ => 0

end Sys2Proof.Machine
end

