-- ==== Sys2Proof/Machine/Operands.lean ====
section
/-!
DEFINITION. What a command takes its operands from. A command word has no operand fields (30_encoding.md R46); the operands
are header integers (R52), the alphabet and the queue, the codes, the children of a node, and the payload bits.
-/
namespace Sys2Proof.Machine

/-! ## Header integers -/

/-- `BE32(b0, b1, b2, b3)` (00_scope.md R11). -/
def be32Of (b0 b1 b2 b3 : Byte) : Word := b0 ++ b1 ++ b2 ++ b3

/-- `be32(v)`: the four bytes of `v`, most significant first (00_scope.md R11). -/
def be32 (v : Word) : List Byte :=
  [v.extractLsb' 24 8, v.extractLsb' 16 8, v.extractLsb' 8 8, v.extractLsb' 0 8]

/-- The header integer at `IN[i..i+3]` (30_encoding.md R52). -/
def State.inWord (s : State) (i : Nat) : Word :=
  be32Of (s.inByte i) (s.inByte (i + 1)) (s.inByte (i + 2)) (s.inByte (i + 3))

/-! ## The alphabet -/

/-- The symbols `s` with `FREQ[s] > 0`, in ascending order (00_scope.md glossary; 10_state.md R16). -/
def alphabetOf (freq : Vector (BitVec 32) 256) : List Byte :=
  (indicesOf (fun f => f != 0) freq).map (BitVec.ofNat 8)

/-- The size of the alphabet, as `NSYM` holds it (10_state.md R18). -/
def nsymOf (freq : Vector (BitVec 32) 256) : BitVec 9 := BitVec.ofNat 9 (alphabetOf freq).length

/-- `FREQ[x]` (10_state.md R16). -/
def freqAt (freq : Vector (BitVec 32) 256) (x : Byte) : BitVec 32 := tget freq x.toNat 0

/-! ## Nodes -/

/-- An id below 256 names a leaf (30_encoding.md R57). -/
def isLeaf (id : NodeId) : Bool := decide (id.toNat < 256)

/-- The byte value a leaf's id is (30_encoding.md R57). -/
def leafByte (id : NodeId) : Byte := id.setWidth 8

/-- The leaf of a byte value (30_encoding.md R57). -/
def leafOf (x : Byte) : NodeId := x.setWidth 9

/-- The child of the internal node `id` on the branch `bit`: `LEFT[id]` on 0, `RIGHT[id]` on 1 (44_bit_packer.md R83). Only
the ids 256..510 name internal nodes (30_encoding.md R57). -/
def State.child (s : State) (id : NodeId) (bit : Bool) : Run NodeId :=
  if 256 ≤ id.toNat ∧ id.toNat ≤ 510 then
    .ok (tget (if bit then s.right else s.left) (id.toNat - 256) 0)
  else .error (.stuck .noSuchNode)

/-! ## Codes and payload bits -/

/-- `CODE_LEN[x]` (10_state.md R20). -/
def State.codeLenAt (s : State) (x : Byte) : BitVec 8 := tget s.codeLen x.toNat 0

/-- `CODE[x]`, its first `CODE_LEN[x]` bits (10_state.md R20). The stored string has that length in every state a run
reaches; a bit the string does not hold is a free value (log 15). -/
def State.codeBits (s : State) (x : Byte) : BitString :=
  (List.range (s.codeLenAt x).toNat).map fun t =>
    ((tget s.code x.toNat [])[t]?).getD (Config.freeCodeBit s.draws x.toNat t)

/-- The number of zero bits that complete the last byte: `(8 - (n mod 8)) mod 8` (30_encoding.md R55). -/
def padCount (n : Nat) : BitVec 3 := BitVec.ofNat 3 ((8 - n % 8) % 8)

/-- Bit `j` of the payload: bit `7 - (j mod 8)` of `IN[IN_POS + j div 8]` (20_memory.md R35). -/
def State.payloadBit (s : State) (j : Nat) : Bool :=
  (s.inByte (s.inPos.toNat + j / 8)).getLsbD (7 - j % 8)

end Sys2Proof.Machine
end

