-- ==== Sys2Proof/Machine/Analyzer.lean ====
section
/-!
DEFINITION. The frequency analyzer: `FREQ` (40_frequency_analyzer.md R59).
-/
namespace Sys2Proof.Machine

/-- `FREQ[b] <- FREQ[b] + 1` (block F1). -/
def countByte (t : Vector (BitVec 32) 256) (b : Byte) : Vector (BitVec 32) 256 :=
  tset t b.toNat (freqAt t b + 1)

/-- The number of occurrences of every byte value in `l` (block F1). -/
def countBytes (l : List Byte) : Vector (BitVec 32) 256 := l.foldl countByte (Vector.replicate 256 0)

/-- `FREQ[]` and `NSYM` take the table `t` and the size of its alphabet. -/
def State.withFreq (s : State) (t : Vector (BitVec 32) 256) : State := { s with freq := t, nsym := nsymOf t }

/-- Block F1. -/
def freqBody (s : State) : Run State := do
  s.requireInLen
  .ok (s.withFreq (countBytes s.inputBytes)).flagsFreq

/-- `FREQ` (R59). -/
def execFreq (s : State) : Host.Outcome State Fault Refusal := s.command (encode .freq) freqBody

end Sys2Proof.Machine
end

