-- ==== Sys2Proof/Machine/HeaderCodec.lean ====
section
/-!
DEFINITION. The header codec: `HDRW` and `HDRP` (43_header_codec.md R75 to R78; layout 30_encoding.md R50 to R53).
-/
namespace Sys2Proof.Machine

/-- The header's bytes for a frequency table, an alphabet size and a pad count (30_encoding.md R50). -/
def headerBytes (freq : Vector (BitVec 32) 256) (nsym : BitVec 9) (pad : BitVec 3) : List Byte :=
  be32 (nsym.setWidth 32) ++ (alphabetOf freq).flatMap (fun x => x :: be32 (freqAt freq x)) ++ [pad.setWidth 8]

/-- `PAD <- v`. -/
def State.withPad (s : State) (v : BitVec 3) : State := { s with pad := v }

/-- Block H1. The header always fits, so there is no capacity check (R75). -/
def hdrwBody (s : State) : Run State := do
  require s.codeV .codeNotValid
  let pad := padCount s.lbits.toNat
  .ok ((s.withPad pad).outRestart.putAll (headerBytes s.freq s.nsym pad)).flagsHdrw

/-- `HDRW` (R75). -/
def execHdrw (s : State) : Host.Outcome State Fault Refusal := s.command (encode .hdrw) hdrwBody

/-- The entries `i..i+n-1` of the header (block H2), written into the frequency table `t`; `prev` is the symbol of the
entry before. Within an entry the order is tested before the zero frequency (R77). -/
def State.parseEntries (s : State) (n i : Nat) (prev : Option Byte) (t : Vector (BitVec 32) 256) :
    Run (Vector (BitVec 32) 256) :=
  match n with
  | 0 => .ok t
  | n + 1 =>
    let x := s.inByte (4 + 5 * i)
    let f := s.inWord (5 + 5 * i)
    if prev.any (fun q => decide (x.toNat ≤ q.toNat)) then .error (.raise .hdrOrder)
    else if f = 0 then .error (.raise .hdrZeroFreq)
    else State.parseEntries s n (i + 1) (some x) (tset t x.toNat f)

/-- What `HDRP` recovers: `FREQ[]`, `NSYM`, `PAD` and `IN_POS` (R76). -/
def State.withHeader (s : State) (t : Vector (BitVec 32) 256) (n : Nat) (pad : BitVec 3) (pos : Nat) : State :=
  { s with freq := t, nsym := BitVec.ofNat 9 n, pad := pad, inPos := BitVec.ofNat 32 pos }

/-- The header of a stream that is not empty, in the check order of R77. -/
def State.parseHeader (s : State) : Run State :=
  if s.inLen.toNat < 4 then .error (.raise .hdrTrunc)
  else
    let n := (s.inWord 0).toNat
    if n > 256 then .error (.raise .hdrCount)
    else if s.inLen.toNat < 5 * n + 5 then .error (.raise .hdrTrunc)
    else do
      let t ← s.parseEntries n 0 none (Vector.replicate 256 0)
      let p := s.inByte (4 + 5 * n)
      if p.toNat > 7 then .error (.raise .hdrPad)
      else .ok (s.withHeader t n (p.setWidth 3) (5 * n + 5))

/-- What the stream's header says; the zero-length stream is the empty alphabet (R78). -/
def State.parseStream (s : State) : Run State :=
  if s.inLen = 0 then .ok (s.withHeader (Vector.replicate 256 0) 0 0 0) else s.parseHeader

/-- Block H2. -/
def hdrpBody (s : State) : Run State := do
  s.requireInLen
  let t ← s.parseStream
  .ok t.flagsHdrp

/-- `HDRP` (R76). -/
def execHdrp (s : State) : Host.Outcome State Fault Refusal := s.command (encode .hdrp) hdrpBody

end Sys2Proof.Machine
end

