-- ==== Sys2Proof/Machine/BitPacker.lean ====
section
/-!
DEFINITION. The bit packer: `PACK` and `UNPACK` (44_bit_packer.md R80 to R85).
-/
namespace Sys2Proof.Machine

/-- `PACK` while it runs: the bit accumulator `ACC` and `NBIT` (10_state.md R27), the count `nb` of code bits, and the
state. -/
structure Packer where
  acc : Byte
  nbit : BitVec 3
  nb : Nat
  st : State

/-- `putbit(b)` (block P1): bits fill the accumulator from bit 7 down; a full byte is written and the accumulator emptied. -/
def Packer.putBit (p : Packer) (b : Bool) : Run Packer :=
  let acc := p.acc + BitVec.ofNat 8 (b.toNat * 2 ^ (7 - p.nbit.toNat))
  if p.nbit = 7#3 then do
    let t ← p.st.emit acc
    .ok { p with acc := 0, nbit := 0, st := t }
  else .ok { p with acc := acc, nbit := p.nbit + 1 }

/-- A code bit put and counted (block P1). -/
def Packer.putCodeBit (p : Packer) (b : Bool) : Run Packer := do
  let q ← p.putBit b
  .ok { q with nb := q.nb + 1 }

/-- The code of one input byte put, or `INVARIANT` detail 1 where it has none (block P1). -/
def Packer.putCode (p : Packer) (x : Byte) : Run Packer :=
  if p.st.codeLenAt x = 0 then .error (.raise .noCode)
  else (p.st.codeBits x).foldlM Packer.putCodeBit p

/-- Block P1. The payload is appended after the present `OUT_LEN` (R80). -/
def packBody (s : State) : Run State := do
  require s.codeV .codeNotValid
  s.requireInLen
  let p ← s.inputBytes.foldlM Packer.putCode { acc := 0, nbit := 0, nb := 0, st := s }
  let q ← (List.replicate (padCount p.nb).toNat false).foldlM Packer.putBit p
  .ok (q.st.withPad (padCount p.nb)).flagsHdrw

/-- `PACK` (R80). -/
def execPack (s : State) : Host.Outcome State Fault Refusal := s.command (encode .pack) packBody

/-- The loop of block U1 from payload bit `j` on, with `n` bits left and the cursor on `cur`. With a leaf as root every bit
emits it (R84); otherwise the cursor takes a branch, and a leaf reached is emitted (R83). -/
def State.unpackLoop (n j : Nat) (cur : NodeId) (s : State) : Run State :=
  match n with
  | 0 => if cur = s.root then .ok s else .error (.raise .exhausted)
  | n + 1 =>
    if isLeaf s.root then do
      let t ← s.emit (leafByte s.root)
      State.unpackLoop n (j + 1) cur t
    else do
      let c ← s.child cur (s.payloadBit j)
      if isLeaf c then do
        let t ← s.emit (leafByte c)
        State.unpackLoop n (j + 1) t.root t
      else State.unpackLoop n (j + 1) c s

/-- `N = 8 * (IN_LEN - IN_POS) - PAD`, over the integers (R82). -/
def State.payloadLength (s : State) : Int :=
  8 * ((s.inLen.toNat : Int) - (s.inPos.toNat : Int)) - (s.pad.toNat : Int)

/-- Block U1. -/
def unpackBody (s : State) : Run State := do
  require s.codeV .codeNotValid
  require s.hdrV .hdrNotValid
  s.requireInLen
  require (decide (s.payloadLength = (s.lbits.toNat : Int))) .payloadLen
  State.unpackLoop s.lbits.toNat 0 s.root s.outRestart

/-- `UNPACK` (R82). -/
def execUnpack (s : State) : Host.Outcome State Fault Refusal := s.command (encode .unpack) unpackBody

end Sys2Proof.Machine
end

