-- ==== Sys2Proof/Machine/CodeGenerator.lean ====
section
/-!
DEFINITION. The code table generator: `GEN` (42_code_table_generator.md R70 to R72).
-/
namespace Sys2Proof.Machine

/-- Both tables cleared: no symbol has a code (block G1). -/
def State.noCodes (s : State) : State :=
  { s with codeLen := Vector.replicate 256 0, code := Vector.replicate 256 [] }

/-- `CODE[id] <- p; CODE_LEN[id] <- len(p)` for a leaf `id` (block G1). -/
def State.setCode (s : State) (id : NodeId) (p : BitString) : State :=
  { s with
    codeLen := tset s.codeLen id.toNat (BitVec.ofNat 8 p.length)
    code := tset s.code id.toNat p }

/-- `visit(id, p)` (block G1), going down at most `n` branches. -/
def State.visit (n : Nat) (s : State) (id : NodeId) (p : BitString) : Run State :=
  if isLeaf id then .ok (s.setCode id p)
  else
    match n with
    | 0 => .error (.stuck .arenaNotTree)
    | n + 1 => do
      let l ← s.child id false
      let r ← s.child id true
      let t ← State.visit n s l (p ++ [false])
      State.visit n t r (p ++ [true])

/-- `LBITS`: the sum over the alphabet of frequency times code length (R70); it fits in 48 bits (00_scope.md R8). -/
def State.payloadBits (s : State) : Nat :=
  ((alphabetOf s.freq).map fun x => (freqAt s.freq x).toNat * (s.codeLenAt x).toNat).sum

/-- `LBITS <- n`. -/
def State.withLbits (s : State) (n : Nat) : State := { s with lbits := BitVec.ofNat 48 n }

/-- The code table filled from the tree (block G1). A root that is a leaf gets the code "0" (R72); a path has at most 255
branches (R71). -/
def State.assignCodes (s : State) : Run State :=
  if isLeaf s.root then .ok (s.noCodes.setCode s.root [false]) else State.visit 255 s.noCodes s.root []

/-- Block G1. -/
def genBody (s : State) : Run State := do
  require s.treeV .treeNotValid
  let t ← s.assignCodes
  .ok (t.withLbits t.payloadBits).flagsGen

/-- `GEN` (R70). -/
def execGen (s : State) : Host.Outcome State Fault Refusal := s.command (encode .gen) genBody

end Sys2Proof.Machine
end

