-- ==== Sys2Proof/Machine/TreeBuilder.lean ====
section
/-!
DEFINITION. The tree builder: the priority queue, its comparator, the merge loop, and `BUILD` (41_tree_builder.md R62 to R69).
-/
namespace Sys2Proof.Machine

/-- `WEIGHT[id]` (10_state.md R17). -/
def weightAt (weight : Vector Weight 511) (id : NodeId) : Weight := tget weight id.toNat 0

/-- The comparator `lt(a, b)` (R63): lower weight first; at equal weight, lower id first. -/
def ltNode (weight : Vector Weight 511) (a b : NodeId) : Bool :=
  decide ((weightAt weight a).toNat < (weightAt weight b).toNat) ||
    (decide (weightAt weight a = weightAt weight b) && decide (a.toNat < b.toNat))

/-- The members of `PQ` (10_state.md R19), in ascending order of id. -/
def State.queue (s : State) : List NodeId := (indicesOf (fun b => b) s.inq).map (BitVec.ofNat 9)

/-- The member of a list of ids that is least under `lt` (R62). -/
def leastNode (weight : Vector Weight 511) (l : List NodeId) : Option NodeId :=
  match l with
  | [] => none
  | x :: xs =>
    match leastNode weight xs with
    | none => some x
    | some m => if ltNode weight x m then some x else some m

/-- `insert(id)` (R62). -/
def State.enqueue (s : State) (id : NodeId) : State := { s with inq := tset s.inq id.toNat true }

/-- `extract_min()` (R62): the least member, and the state with it removed; `none` when `PQ` is empty. -/
def State.extractMin (s : State) : Option (NodeId × State) :=
  match leastNode s.weight s.queue with
  | none => none
  | some m => some (m, { s with inq := tset s.inq m.toNat false })

/-- The id of the next internal node, `256 + NINT` (R66). -/
def State.nextNode (s : State) : NodeId := 256#9 + s.nint.setWidth 9

/-- One new internal node with left child `a` and right child `b`, inserted into `PQ` (R66). -/
def State.join (s : State) (a b : NodeId) : State :=
  { s with
    left := tset s.left s.nint.toNat a
    right := tset s.right s.nint.toNat b
    weight := tset s.weight s.nextNode.toNat (weightAt s.weight a + weightAt s.weight b)
    inq := tset s.inq s.nextNode.toNat true
    nint := s.nint + 1 }

/-- The merge loop (R66): while `PQ` has two members, join the two least. `n` bounds the iterations. -/
def State.mergeLoop (n : Nat) (s : State) : State :=
  match n with
  | 0 => s
  | n + 1 =>
    match s.extractMin with
    | none => s
    | some (a, s1) =>
      match s1.extractMin with
      | none => s
      | some (b, s2) => State.mergeLoop n (s2.join a b)

/-- Initialisation (R65): `PQ` becomes the set of present leaves, each of the weight of its frequency; the other entries of
`WEIGHT[]` are not written. -/
def State.initQueue (s : State) : State :=
  { s with
    inq := tabulate 511 fun id => decide (id < 256) && tget s.freq id 0 != 0
    weight := tabulate 511 fun id =>
      if id < 256 ∧ tget s.freq id 0 ≠ 0 then (tget s.freq id 0).setWidth 40 else tget s.weight id 0
    nint := 0 }

/-- `ROOT <- the one member of PQ` (R67). -/
def State.takeRoot (s : State) : Run State :=
  match s.queue with
  | [m] => .ok { s with root := m }
  | _ => .error (.stuck .emptyQueue)

/-- Block B1. At most 255 merges can run, since at most 256 leaves are present (R64, 70_reset_and_hazards.md R111). -/
def buildBody (s : State) : Run State := do
  require s.freqV .freqNotValid
  require (s.nsym != 0) .emptyAlphabet
  let t ← (State.mergeLoop 255 s.initQueue).takeRoot
  .ok t.flagsBuild

/-- `BUILD` (R64). -/
def execBuild (s : State) : Host.Outcome State Fault Refusal := s.command (encode .build) buildBody

end Sys2Proof.Machine
end

