-- ==== Sys2Proof/Machine/Composite.lean ====
section
/-!
DEFINITION. The composite commands `COMPRESS` and `DECOMPRESS` (45_control_and_composite.md R89 to R91).
-/
namespace Sys2Proof.Machine

/-- Block X1. The empty input gives the empty output (R89). -/
def compressBody (s : State) : Run State := do
  let t ← freqBody s
  if t.nsym = 0 then .ok (t.outRestart.withPad 0)
  else do
    let t ← buildBody t
    let t ← genBody t
    let t ← hdrwBody t
    packBody t

/-- `COMPRESS` (R89). -/
def execCompress (s : State) : Host.Outcome State Fault Refusal := s.command (encode .compress) compressBody

/-- Block X2. The empty alphabet gives the empty output at once (R90). -/
def decompressBody (s : State) : Run State := do
  let t ← hdrpBody s
  if t.nsym = 0 then .ok t.outRestart
  else do
    let t ← buildBody t
    let t ← genBody t
    unpackBody t

/-- `DECOMPRESS` (R90). -/
def execDecompress (s : State) : Host.Outcome State Fault Refusal := s.command (encode .decompress) decompressBody

end Sys2Proof.Machine
end

