-- ==== Sys2Proof/Machine/System.lean ====
section
/-!
DEFINITION. The system commands `NOP` and `CLEAR` (45_control_and_composite.md R87, R88).
-/
namespace Sys2Proof.Machine

/-- `NOP` (R87): ignored in `ERROR`; otherwise only `CMD <- 0`, and `STATUS` stays as it was. -/
def execNop (s : State) : Host.Outcome State Fault Refusal :=
  if s.phase = .error then .next s else .next (s.accept (encode .nop))

/-- `CLEAR` (R88): accepted in every state. -/
def execClear (s : State) : Host.Outcome State Fault Refusal := .next (s.accept (encode .clear)).clear

end Sys2Proof.Machine
end

