-- ==== Sys2Proof/WellFormed.lean ====
section
/-!
DEFINITION. Well-formedness. A command has no operand fields (30_encoding.md R46), so every `Instr` is well-formed. A
host access is well-formed when it is part of the interface of 20_memory.md R33 and R36.
-/
namespace Sys2Proof

/-- Every command is well-formed: a command word has no operand that could be wrong (R46). -/
def Instr.wellFormed (i : Instr) : Bool :=
  match i with
  | .nop | .clear | .freq | .build | .gen | .hdrw | .pack | .hdrp | .unpack | .compress | .decompress => true

/-- The register offsets of the space `REG`: 0x00..0x3C in steps of 4 (20_memory.md R31). -/
def regOffsetOk (off : Nat) : Bool := off % 4 == 0 && decide (off ≤ 0x3C)

/-- The host accesses that have a meaning, for buffers of the capacities `c` (R33, R36, R105, R107). -/
def Machine.HostAccess.wellFormed (c : Caps) (a : Machine.HostAccess) : Bool :=
  match a with
  | .writeReg off _ => regOffsetOk off
  | .readReg off => regOffsetOk off
  | .writeIn i _ => decide (i < c.inCap)
  | .readIn i => decide (i < c.inCap)
  | .readOut i => decide (i < c.outCap)
  | .reset => true
  | .writeOut _ _ => false
  | .otherWidth _ _ _ => false
  | .duringCommand => false

end Sys2Proof
end

