-- ==== Sys2Proof/Machine/HostPort.lean ====
section
/-!
DEFINITION. The host's side of the interface: each access of a host program (20_memory.md R33, R36, R37; 10_state.md R15, R30)
and the reset event (70_reset_and_hazards.md R105).
-/
namespace Sys2Proof.Machine

/-- A write of `w` to `CMD` (45_control_and_composite.md R86): the word is decoded, and the command runs to its end. -/
def State.writeCmd (s : State) (w : Word) : Host.Outcome State Fault Refusal :=
  match decode w with
  | .ok i => exec i s
  | .error _ => s.illegalWord w

/-- `HostWriteReg` at a legal offset (10_state.md R15): `CMD` runs a command, `IN_LEN` stores; every other register is RO or
reserved, and the write is ignored. -/
def State.writeReg (s : State) (off : Nat) (v : Word) : Host.Outcome State Fault Refusal :=
  match off with
  | 0x00 => s.writeCmd v
  | 0x08 => .next { s with inLen := v }
  | _ => .next s

/-- `HostWriteIn(i, b)` at an index below `IN_CAP`. -/
def State.writeIn (s : State) (i : Nat) (b : Byte) : State := { s with inBuf := Memory.write s.inBuf i b }

/-- A read returns `v` to the host and changes nothing of the block (20_memory.md R37). -/
def State.returnRead (s : State) (v : ReadValue) : State := { s with hostReads := v :: s.hostReads }

/-- The reset event (R105): the block is as after power-on; the host and its program go on. -/
def State.resetBlock (s : State) : State :=
  { State.powerOn s.caps (s.draws + 1) (s.resets + 1) with
    hostProgram := s.hostProgram
    hostReads := s.hostReads }

/-- One event of a host program. An access that is not part of the interface is refused by name (20_memory.md R33, R36;
70_reset_and_hazards.md R107). -/
def State.access (s : State) (a : HostAccess) : Host.Outcome State Fault Refusal :=
  match a with
  | .writeReg off v => if regOffsetOk off then s.writeReg off v else .refused .regOffset
  | .readReg off => if regOffsetOk off then .next (s.returnRead (.word (s.readReg off))) else .refused .regOffset
  | .writeIn i b => if i < s.caps.inCap then .next (s.writeIn i b) else .refused .inIndex
  | .readIn i => if i < s.caps.inCap then .next (s.returnRead (.byte (s.inByte i))) else .refused .inIndex
  | .readOut i => if i < s.caps.outCap then .next (s.returnRead (.byte (s.outByte i))) else .refused .outIndex
  | .reset => .next s.resetBlock
  | .writeOut _ _ => .refused .outWrite
  | .otherWidth _ _ _ => .refused .accessWidth
  | .duringCommand => .refused .accessDuringCommand

/-- The host takes its next access, which leaves its program; with none left the block does nothing (R105). -/
def State.hostStep (s : State) : Host.Outcome State Fault Refusal :=
  match s.hostProgram with
  | [] => .next s
  | a :: rest => State.access { s with hostProgram := rest } a

/-! ## Host programs (30_encoding.md R58) -/

/-- `IN <- l`: the bytes of `l` from `IN[0]` on, then their count into `IN_LEN`. -/
def hostLoad (l : List Byte) : List HostAccess :=
  (List.range l.length).zipWith .writeIn l ++ [.writeReg 0x08 (BitVec.ofNat 32 l.length)]

/-- `<MNEMONIC>`: the command's word into `CMD`. -/
def hostCommand (i : Instr) : HostAccess := .writeReg 0x00 (encode i)

/-- `RD OUT`, where `OUT_LEN` is `n`: `OUT_LEN`, then the bytes of `OUT` in order. -/
def hostReadOut (n : Nat) : List HostAccess := .readReg 0x0C :: (List.range n).map .readOut

/-- The state in which the host's next access writes the command word of a table row's bits to `CMD`. -/
def State.issue (s : State) (nbits w : Nat) : State :=
  { s with hostProgram := .writeReg 0x00 (tableWord nbits w) :: s.hostProgram }

end Sys2Proof.Machine
end

