-- ==== Sys2Proof/Machine/Step.lean ====
section
/-!
DEFINITION. One step of the machine: the host's next access, a command running to its end inside the write of `CMD`
(20_memory.md R37, R40).
-/
namespace Sys2Proof.Machine

/-- One step (log 1, 2). -/
def step (s : State) : Host.Outcome State Fault Refusal := s.hostStep

/-- The state whose next step runs the instruction of a table row's bits: the block fetches nothing, so the host's next
access is the write of that word to `CMD` (10_state.md R14, log 1). -/
def State.withFetchWord (s : State) (nbits w : Nat) : State := s.issue nbits w

end Sys2Proof.Machine
end

