-- ==== Sys2Proof/Safety.lean ====
section
/-!
DEFINITION. What holds in every state a run reaches (10_state.md R26 and the rules cited at each part), and what of a state
the spec fixes. No claim assumes more than these.
-/
namespace Sys2Proof.Machine

/-- The block takes commands: it is not stopped by an error (45_control_and_composite.md R86). -/
abbrev State.ready (s : State) : Prop := s.phase ≠ .error

/-- The capacities are within 00_scope.md R7's bounds; `IN` holds written bytes at legal indices in the canonical form;
`OUT` holds exactly the bytes below `OUT_LEN`, which does not pass `OUT_CAP` (20_memory.md R31, R34; 60_exceptions.md R97). -/
structure State.BuffersOk (s : State) : Prop where
  caps : s.caps.ok
  inWf : Memory.wf s.inBuf
  inRange : ∀ c ∈ s.inBuf, c.1 < s.caps.inCap
  outRange : s.outBuf.map Prod.fst = List.range s.outLen.toNat
  outFits : s.outLen.toNat ≤ s.caps.outCap

/-- The implications between the validity flags (10_state.md R26). -/
structure State.FlagsOk (s : State) : Prop where
  codeTree : s.codeV = true → s.treeV = true
  treeFreq : s.treeV = true → s.freqV = true ∧ 1 ≤ s.nsym.toNat
  hdrFreq : s.hdrV = true → s.freqV = true

/-- `ERR` and `DETAIL` are 0 but in `ERROR`, where they are a row of 60_exceptions.md R92; but after a completed command no
flag is set and every result register is 0 (R98, 45_control_and_composite.md R88, 10_state.md R29). -/
structure State.StatusOk (s : State) : Prop where
  noError : s.phase ≠ .error → s.err = 0 ∧ s.detail = 0
  inError : s.phase = .error → ∃ e : CmdError, s.err = e.cls ∧ s.detail = e.detail
  quiet : s.phase ≠ .done →
    s.freqV = false ∧ s.treeV = false ∧ s.codeV = false ∧ s.hdrV = false ∧ s.outLen = 0 ∧ s.inPos = 0 ∧ s.nsym = 0
      ∧ s.nint = 0 ∧ s.root = 0 ∧ s.pad = 0 ∧ s.lbits = 0

/-- `NSYM` is the number of present symbols (10_state.md R18). -/
def State.NsymOk (s : State) : Prop := s.freqV = true → s.nsym = nsymOf s.freq

/-- `CODE[x]` is a bit string of length `CODE_LEN[x]` (10_state.md R20). -/
def State.CodesFit (s : State) : Prop := ∀ x : Byte, (tget s.code x.toNat []).length = (s.codeLenAt x).toNat

/-- When `TREE_V = 1`, the node arena, `NINT` and `ROOT` are a result of `BUILD` on the present `FREQ[]` (R26). -/
def State.TreeBuilt (s : State) : Prop :=
  s.treeV = true → ∃ s0 t : State, s0.freq = s.freq ∧ buildBody s0 = .ok t ∧ t.weight = s.weight ∧ t.left = s.left
    ∧ t.right = s.right ∧ t.nint = s.nint ∧ t.root = s.root

/-- When `CODE_V = 1`, the code table and `LBITS` are a result of `GEN` on the present arena (R26). -/
def State.CodesGenerated (s : State) : Prop :=
  s.codeV = true → ∃ s0 t : State, s0.freq = s.freq ∧ s0.left = s.left ∧ s0.right = s.right ∧ s0.root = s.root
    ∧ genBody s0 = .ok t ∧ t.codeLen = s.codeLen ∧ t.code = s.code ∧ t.lbits = s.lbits

/-- What holds in every reachable state. -/
structure State.Inv (s : State) : Prop where
  buffers : s.BuffersOk
  flags : s.FlagsOk
  status : s.StatusOk
  nsymOk : s.NsymOk
  codesFit : s.CodesFit
  treeBuilt : s.TreeBuilt
  codesGenerated : s.CodesGenerated

/-- The node `id` exists: a leaf of a present symbol, or an internal node that was created (10_state.md R17). -/
abbrev State.nodeExists (s : State) (id : NodeId) : Prop :=
  (id.toNat < 256 ∧ tget s.freq id.toNat 0 ≠ 0) ∨ (256 ≤ id.toNat ∧ id.toNat < 256 + s.nint.toNat)

/-- The state with everything the spec leaves unspecified set to 0: the tables whose flag is 0, the entries of nodes that do
not exist, and `PQ`, which no command reads (93_implementation_defined.md U3, U10; 10_state.md R19). -/
def State.settled (s : State) : State :=
  { s with
    freq := if s.freqV then s.freq else Vector.replicate 256 0
    weight := tabulate 511 fun id =>
      if s.treeV ∧ s.nodeExists (BitVec.ofNat 9 id) then tget s.weight id 0 else 0
    left := tabulate 255 fun k => if s.treeV ∧ k < s.nint.toNat then tget s.left k 0 else 0
    right := tabulate 255 fun k => if s.treeV ∧ k < s.nint.toNat then tget s.right k 0 else 0
    inq := Vector.replicate 511 false
    codeLen := if s.codeV then s.codeLen else Vector.replicate 256 0
    code := if s.codeV then s.code else Vector.replicate 256 [] }

end Sys2Proof.Machine
end

