-- ==== Sys2Proof/Certificates/Slice0/Obligations.lean ====
section
/-!
DEFINITION. The statements for the provers, after the notions they are stated in. Each notion is written from its rule of the
spec, not from the model's own computation of it. "Completes" means that `exec` answers a next state in which the command has
had its own effect.
-/
namespace Sys2Proof.Claims
open Sys2Proof.Machine

/-! ## Notions of the data formats -/

/-- `be32(v)`: four bytes, most significant first (00_scope.md R11). -/
def bigEndian (v : Word) : List Byte :=
  [BitVec.ofNat 8 (v.toNat / 2 ^ 24), BitVec.ofNat 8 (v.toNat / 2 ^ 16), BitVec.ofNat 8 (v.toNat / 2 ^ 8),
    BitVec.ofNat 8 v.toNat]

/-- The alphabet of a frequency table, in ascending order of byte value (10_state.md R16). -/
def present (freq : Vector (BitVec 32) 256) : List Byte :=
  ((List.range 256).map (BitVec.ofNat 8)).filter fun x => freqAt freq x ≠ 0

/-- The (symbol, frequency) pairs of a frequency table in ascending order of byte value (30_encoding.md R50). -/
def entries (freq : Vector (BitVec 32) 256) : List (Byte × Word) := (present freq).map fun x => (x, freqAt freq x)

/-- The header's bytes: COUNT, then each SYM and FREQ, then PADCNT (30_encoding.md R50). -/
def header (es : List (Byte × Word)) (pad : Byte) : List Byte :=
  bigEndian (BitVec.ofNat 32 es.length) ++ es.flatMap (fun e => e.1 :: bigEndian e.2) ++ [pad]

/-- `(8 - L mod 8) mod 8` (30_encoding.md R55). -/
def padOf (l : Nat) : Nat := (8 - l % 8) % 8

/-- The payload of a bit string (30_encoding.md R54): padded with zeros, byte `k` is the sum over `t` of bit `8k + t` times
`2^(7 - t)`. -/
def payload (bits : BitString) : List Byte :=
  (List.range ((bits.length + padOf bits.length) / 8)).map fun k =>
    BitVec.ofNat 8 ((List.range 8).map fun t =>
      ((bits ++ List.replicate (padOf bits.length) false).getD (8 * k + t) false).toNat * 2 ^ (7 - t)).sum

/-- `CODE[x]` (10_state.md R20). -/
def codeString (s : State) (x : Byte) : BitString := tget s.code x.toNat []

/-- The codes of the bytes of a list, concatenated (30_encoding.md R54). -/
def encodeAll (s : State) (xs : List Byte) : BitString := xs.flatMap (codeString s)

/-- The first `LBITS` bits of the payload in `IN` (20_memory.md R35 (a)). -/
def streamBits (s : State) : BitString :=
  (List.range s.lbits.toNat).map fun j => (s.inByte (s.inPos.toNat + j / 8)).toNat.testBit (7 - j % 8)

/-! ## Notions of the tree -/

/-- The weight of a node, as a number. -/
def weightOf (w : Vector Weight 511) (id : NodeId) : Nat := (tget w id.toNat 0).toNat

/-- The comparator of 41_tree_builder.md R63. -/
def before (w : Vector Weight 511) (a b : NodeId) : Prop :=
  weightOf w a < weightOf w b ∨ (weightOf w a = weightOf w b ∧ a.toNat < b.toNat)

/-- `m` is what `extract_min` takes from the set `q` (R62). -/
def isLeast (w : Vector Weight 511) (m : NodeId) (q : Finset NodeId) : Prop := m ∈ q ∧ ∀ x ∈ q, x ≠ m → before w m x

/-- `LEFT[256 + k]`. -/
def leftOf (s : State) (k : Nat) : NodeId := tget s.left k 0

/-- `RIGHT[256 + k]`. -/
def rightOf (s : State) (k : Nat) : NodeId := tget s.right k 0

/-- The arena of `t` is what the merge loop makes of `n` leaves (R65 to R67): `q k` is `PQ` before merge `k`. -/
def mergedFrom (freq : Vector (BitVec 32) 256) (t : State) (n : Nat) (q : Nat → Finset NodeId) : Prop :=
  (∀ id, id ∈ q 0 ↔ id.toNat < 256 ∧ tget freq id.toNat 0 ≠ 0) ∧
  (∀ id ∈ q 0, weightOf t.weight id = (tget freq id.toNat 0).toNat) ∧
  (∀ k, k + 1 < n →
    isLeast t.weight (leftOf t k) (q k) ∧
    isLeast t.weight (rightOf t k) ((q k).erase (leftOf t k)) ∧
    weightOf t.weight (BitVec.ofNat 9 (256 + k)) = weightOf t.weight (leftOf t k) + weightOf t.weight (rightOf t k) ∧
    q (k + 1) = insert (BitVec.ofNat 9 (256 + k)) (((q k).erase (leftOf t k)).erase (rightOf t k))) ∧
  q (n - 1) = {t.root}

/-- The node reached from `id` along a path of branch bits, through internal nodes that exist (42_code_table_generator.md
R71). -/
def follow (s : State) (id : NodeId) (p : BitString) : Option NodeId :=
  match p with
  | [] => some id
  | b :: bs =>
    if 256 ≤ id.toNat ∧ id.toNat < 256 + s.nint.toNat then
      follow s (if b then rightOf s (id.toNat - 256) else leftOf s (id.toNat - 256)) bs
    else none

/-! ## Notions of frames -/

/-- The input, the capacities and the host's side are as before: every byte of `IN` reads as before. -/
def sameInput (s t : State) : Prop :=
  t.caps = s.caps ∧ t.inLen = s.inLen ∧ (∀ i, t.inByte i = s.inByte i) ∧ t.hostProgram = s.hostProgram ∧
    t.hostReads = s.hostReads

/-- Every byte of `OUT` reads as before. -/
def sameOutput (s t : State) : Prop := t.outLen = s.outLen ∧ ∀ i, t.outByte i = s.outByte i

/-- The frequency table is as before. -/
def sameFreq (s t : State) : Prop := t.freq = s.freq ∧ t.nsym = s.nsym

/-- The node arena is as before. -/
def sameArena (s t : State) : Prop :=
  t.weight = s.weight ∧ t.left = s.left ∧ t.right = s.right ∧ t.inq = s.inq ∧ t.nint = s.nint ∧ t.root = s.root

/-- The code table is as before. -/
def sameCodes (s t : State) : Prop := t.codeLen = s.codeLen ∧ t.code = s.code ∧ t.lbits = s.lbits

/-- The values of the four validity flags. -/
def flagsAre (t : State) (f tr c h : Bool) : Prop := t.freqV = f ∧ t.treeV = tr ∧ t.codeV = c ∧ t.hdrV = h

/-- Every scalar register is 0 (10_state.md R29). -/
def scalarsZero (s : State) : Prop :=
  s.cmd = 0 ∧ s.statusWord = 0 ∧ s.phase = .idle ∧ flagsAre s false false false false ∧ s.err = 0 ∧ s.detail = 0 ∧
    s.inLen = 0 ∧ s.outLen = 0 ∧ s.inPos = 0 ∧ s.nsym = 0 ∧ s.nint = 0 ∧ s.root = 0 ∧ s.pad = 0 ∧ s.lbits = 0

/-- The command `i` completed: `DONE`, no error, and `CMD` holds its word (45_control_and_composite.md R86 (3)). -/
def completed (i : Instr) (t : State) : Prop := t.phase = .done ∧ t.err = 0 ∧ t.detail = 0 ∧ t.cmd = encode i

/-- `t` is a completed `COMPRESS` of the input of `s`: `FREQ[]` counts it, and `OUT` holds header then payload (R89). -/
def compressedFrom (s t : State) : Prop :=
  completed .compress t ∧ flagsAre t true true true false ∧
  (∀ x : Byte, (freqAt t.freq x).toNat = s.inputBytes.count x) ∧
  t.lbits.toNat = (encodeAll t s.inputBytes).length ∧ t.pad.toNat = padOf t.lbits.toNat ∧
  t.outputBytes = header (entries t.freq) (BitVec.ofNat 8 (padOf t.lbits.toNat)) ++ payload (encodeAll t s.inputBytes) ∧
  t.outLen.toNat = 5 * t.nsym.toNat + 5 + (t.lbits.toNat + 7) / 8

/-- The command `i`, accepted in `s`, ends in the error entry of `e` (60_exceptions.md R98). -/
def raises (i : Instr) (s : State) (e : CmdError) : Prop := exec i s = .next ((s.accept (encode i)).raise e)

/-- The commands of a list run in order. -/
def runAll (l : List Instr) (s : State) : Host.Outcome State Fault Refusal :=
  match l with
  | [] => .next s
  | i :: is =>
    match exec i s with
    | .next t => runAll is t
    | .fault f => .fault f
    | .refused r => .refused r

/-- Two states agree, `CMD` apart, on all the spec fixes. -/
def sameButCmd (t u : State) : Prop := { t.settled with cmd := 0, draws := 0 } = { u.settled with cmd := 0, draws := 0 }

end Sys2Proof.Claims

open Sys2Proof Sys2Proof.Machine Sys2Proof.Claims

/-! ## The command word -/

/-- R47: the eleven command words. -/
def Obligations.OpcodeMapDecodes : Prop :=
  decode 0x00000000#32 = .ok .nop ∧ decode 0x00000001#32 = .ok .clear ∧ decode 0x00000002#32 = .ok .freq ∧
  decode 0x00000003#32 = .ok .build ∧ decode 0x00000004#32 = .ok .gen ∧ decode 0x00000005#32 = .ok .hdrw ∧
  decode 0x00000006#32 = .ok .pack ∧ decode 0x00000007#32 = .ok .hdrp ∧ decode 0x00000008#32 = .ok .unpack ∧
  decode 0x00000009#32 = .ok .compress ∧ decode 0x0000000A#32 = .ok .decompress

/-- R48: every word is one of the eleven or illegal, no word is a second spelling, and an illegal word raises `ILLEGAL_CMD`
and does nothing else. -/
def Obligations.EveryWordIsACommandOrIllegal : Prop :=
  ∀ w : Word,
    (∀ i, decode w = .ok i ↔ w = encode i) ∧
    ((∀ i, decode w ≠ .ok i) ↔ w.extractLsb' 8 24 ≠ 0 ∨ 0x0A < (w.extractLsb' 0 8).toNat) ∧
    ∀ s : State, s.ready → (∀ i, decode w ≠ .ok i) → s.writeCmd w = .next ((s.accept w).raise .illegalCmd)

/-- A step whose access writes a word to `CMD` that decodes to `i` is `exec i`, after that access has left the host's
program; with no access left the block does nothing (20_memory.md R37, 70_reset_and_hazards.md R105; the host program is the
model's choice, log 1, and so is the step with none left, log 2). -/
def Obligations.StepRunsTheDecodedCommand : Prop :=
  (∀ (s : State) (w : Word) (i : Instr) (rest : List HostAccess),
    s.hostProgram = .writeReg 0x00 w :: rest → decode w = .ok i → step s = exec i { s with hostProgram := rest }) ∧
  ∀ s : State, s.hostProgram = [] → step s = .next s

/-! ## Errors -/

/-- R92: the class and the detail of every error. -/
def Obligations.ErrorNumbers : Prop :=
  [CmdError.hdrTrunc, .hdrCount, .hdrOrder, .hdrZeroFreq, .hdrPad, .payloadLen, .exhausted, .noCode, .illegalCmd,
      .freqNotValid, .emptyAlphabet, .treeNotValid, .codeNotValid, .hdrNotValid, .outFull, .inLenRange].map
    (fun e => (e.cls.toNat, e.detail.toNat)) =
  [(1, 1), (1, 2), (1, 3), (1, 4), (1, 5), (1, 6), (1, 7), (2, 1), (3, 0), (4, 1), (4, 2), (4, 3), (4, 4), (4, 5), (5, 1),
    (5, 2)]

/-- R98: what error entry writes and what it keeps; nothing of the partial work survives: the state after it depends on the
class and detail, `CMD`, `IN` and `IN_LEN` only (and on what the model itself carries: the capacities, the host's side and the
counters that select free values, log 1, 3, 5, 8). -/
def Obligations.ErrorEntry : Prop :=
  (∀ (s : State) (e : CmdError),
    (s.raise e).phase = .error ∧ (s.raise e).err = e.cls ∧ (s.raise e).detail = e.detail ∧
    flagsAre (s.raise e) false false false false ∧ (s.raise e).outLen = 0 ∧ (s.raise e).inPos = 0 ∧
    (s.raise e).nsym = 0 ∧ (s.raise e).nint = 0 ∧ (s.raise e).root = 0 ∧ (s.raise e).pad = 0 ∧ (s.raise e).lbits = 0 ∧
    (s.raise e).cmd = s.cmd ∧ sameInput s (s.raise e)) ∧
  ∀ (s u : State) (e : CmdError),
    s.cmd = u.cmd → s.inLen = u.inLen → s.inBuf = u.inBuf → s.caps = u.caps → s.draws = u.draws → s.resets = u.resets →
    s.hostProgram = u.hostProgram → s.hostReads = u.hostReads → s.raise e = u.raise e

/-- R100, R86 (1): `ERROR` is left only by `CLEAR` or reset; every other word is ignored, `CMD` included, so `ERR` and
`DETAIL` stay those of the first error. -/
def Obligations.ErrorIsLeftOnlyByClearOrReset : Prop :=
  (∀ (s : State) (w : Word), s.phase = .error → w ≠ 1 → s.writeCmd w = .next s) ∧
  (∀ (s t : State) (a : HostAccess) (rest : List HostAccess),
    s.phase = .error → s.hostProgram = a :: rest → a ≠ .writeReg 0x00 1 → a ≠ .reset → step s = .next t →
    t.phase = .error ∧ t.err = s.err ∧ t.detail = s.detail ∧ t.cmd = s.cmd) ∧
  (∀ s : State, s.phase = .error → ∃ t, s.writeCmd 1 = .next t ∧ t.phase = .idle ∧ t.err = 0 ∧ t.detail = 0)

/-- R96: `PRECOND` with the detail of 60_exceptions.md R92, whatever the input. -/
def Obligations.PrecondIsRaisedByFlags : Prop :=
  ∀ s : State, s.ready →
    (s.freqV = false → raises .build s .freqNotValid) ∧
    (s.freqV = true → s.nsym = 0 → raises .build s .emptyAlphabet) ∧
    (s.treeV = false → raises .gen s .treeNotValid) ∧
    (s.codeV = false → raises .hdrw s .codeNotValid ∧ raises .pack s .codeNotValid ∧ raises .unpack s .codeNotValid) ∧
    (s.codeV = true → s.hdrV = false → raises .unpack s .hdrNotValid)

/-- R96: the composite commands never raise `PRECOND`. -/
def Obligations.CompositesNeverRaisePrecond : Prop :=
  ∀ (s t : State) (i : Instr), s.ready → i = .compress ∨ i = .decompress → exec i s = .next t → t.err ≠ 4

/-- R97, detail 2: a command that reads `IN` with `IN_LEN > IN_CAP` raises `CAPACITY`, after its `PRECOND` checks. -/
def Obligations.InLenAboveCapacityIsRaised : Prop :=
  ∀ s : State, s.ready → s.caps.inCap < s.inLen.toNat →
    raises .freq s .inLenRange ∧ raises .hdrp s .inLenRange ∧ raises .compress s .inLenRange ∧
    raises .decompress s .inLenRange ∧ (s.codeV = true → raises .pack s .inLenRange) ∧
    (s.codeV = true → s.hdrV = true → raises .unpack s .inLenRange)

/-! ## System commands, registers, the host -/

/-- R87: outside `ERROR`, `NOP` changes `CMD` only; in `ERROR` nothing. -/
def Obligations.NopChangesOnlyCmd : Prop :=
  ∀ s : State, (s.ready → exec .nop s = .next { s with cmd := 0 }) ∧ (s.phase = .error → exec .nop s = .next s)

/-- R88: `CLEAR`, in every state. It says nothing of the bytes of `OUT`, all of them beyond `OUT_LEN` (log 9). -/
def Obligations.ClearReturnsToIdle : Prop :=
  ∀ s : State, ∃ t, exec .clear s = .next t ∧ t.cmd = 1 ∧ t.phase = .idle ∧ t.err = 0 ∧ t.detail = 0 ∧
    flagsAre t false false false false ∧ t.outLen = 0 ∧ t.inPos = 0 ∧ t.nsym = 0 ∧ t.nint = 0 ∧ t.root = 0 ∧ t.pad = 0 ∧
    t.lbits = 0 ∧ sameInput s t ∧ t.freq = s.freq ∧ t.weight = s.weight ∧ t.left = s.left ∧ t.right = s.right ∧
    t.inq = s.inq ∧ t.codeLen = s.codeLen ∧ t.code = s.code

/-- R29, R105: the scalars after reset, and after the reset event, which every state takes. Three clauses are the model's way of
putting what the spec leaves unspecified or outside the block: that no byte of `IN` is held, so that each reads as a free value
(log 8), and that the event keeps the capacities (log 3) and the host's side (log 11). -/
def Obligations.ResetZeroesTheScalars : Prop :=
  scalarsZero State.reset ∧ (∀ i, Memory.read State.reset.inBuf i = none) ∧
  ∀ (u : State) (rest : List HostAccess), u.hostProgram = .reset :: rest →
    ∃ s, step u = .next s ∧ scalarsZero s ∧ (∀ i, Memory.read s.inBuf i = none) ∧ s.caps = u.caps ∧
      s.hostProgram = rest ∧ s.hostReads = u.hostReads

/-- R15, R24: every register as the host reads it; bits not named and reserved offsets read 0. -/
def Obligations.RegisterMap : Prop :=
  ∀ s : State,
    s.readReg 0x00 = s.cmd ∧
    (s.readReg 0x04).toNat = s.phase.code.toNat + 4 * s.freqV.toNat + 8 * s.treeV.toNat + 16 * s.codeV.toNat
      + 32 * s.hdrV.toNat + 256 * s.err.toNat + 65536 * s.detail.toNat ∧
    s.readReg 0x08 = s.inLen ∧ s.readReg 0x0C = s.outLen ∧ s.readReg 0x10 = s.inPos ∧
    (s.readReg 0x14).toNat = s.nsym.toNat ∧ (s.readReg 0x18).toNat = s.pad.toNat ∧
    (s.readReg 0x1C).toNat = s.lbits.toNat % 2 ^ 32 ∧ (s.readReg 0x20).toNat = s.lbits.toNat / 2 ^ 32 ∧
    (s.readReg 0x24).toNat = s.root.toNat + 65536 * s.nint.toNat ∧
    ∀ off, 0x28 ≤ off → s.readReg off = 0

/-- R33, R37, R15, R30: what each host primitive does when it is part of the interface. The record of what reads returned is
the model's (log 12), and so are the free values of unspecified bytes (log 7, 8). -/
def Obligations.HostPrimitives : Prop :=
  ∀ (s : State) (rest : List HostAccess) (off i : Nat) (v : Word) (b : Byte),
    (s.hostProgram = .readReg off :: rest → off % 4 = 0 → off ≤ 0x3C →
      step s = .next { s with hostProgram := rest, hostReads := .word (s.readReg off) :: s.hostReads }) ∧
    (s.hostProgram = .readIn i :: rest → i < s.caps.inCap →
      step s = .next { s with hostProgram := rest, hostReads := .byte (s.inByte i) :: s.hostReads }) ∧
    (s.hostProgram = .readOut i :: rest → i < s.caps.outCap →
      step s = .next { s with hostProgram := rest, hostReads := .byte (s.outByte i) :: s.hostReads }) ∧
    (s.hostProgram = .writeReg 0x08 v :: rest → step s = .next { s with hostProgram := rest, inLen := v }) ∧
    (s.hostProgram = .writeReg off v :: rest → off % 4 = 0 → off ≤ 0x3C → off ≠ 0x00 → off ≠ 0x08 →
      step s = .next { s with hostProgram := rest }) ∧
    (s.hostProgram = .writeIn i b :: rest → i < s.caps.inCap →
      ∃ t, step s = .next t ∧ t = { s with hostProgram := rest, inBuf := t.inBuf } ∧ t.inByte i = b ∧
        ∀ j, j ≠ i → t.inByte j = s.inByte j)

/-- R33, R36, R107: a step is refused exactly when the host's access is not part of the interface. -/
def Obligations.RefusedExactlyOutsideTheInterface : Prop :=
  ∀ s : State, (∃ r, step s = .refused r) ↔
    ∃ a rest, s.hostProgram = a :: rest ∧
      match a with
      | .writeReg off _ => off % 4 ≠ 0 ∨ 0x3C < off
      | .readReg off => off % 4 ≠ 0 ∨ 0x3C < off
      | .writeIn i _ => s.caps.inCap ≤ i
      | .readIn i => s.caps.inCap ≤ i
      | .readOut i => s.caps.outCap ≤ i
      | .reset => False
      | .writeOut _ _ => True
      | .otherWidth _ _ _ => True
      | .duringCommand => True

/-- R23, R37: a write to `CMD` is the only access that starts a command; any other access but a reset changes at most
`IN_LEN`, the bytes of `IN` and the host's side. -/
def Obligations.OnlyCmdWritesStartCommands : Prop :=
  ∀ (s t : State) (a : HostAccess) (rest : List HostAccess),
    s.hostProgram = a :: rest → (∀ w, a ≠ .writeReg 0x00 w) → a ≠ .reset → step s = .next t →
    t = { s with inLen := t.inLen, inBuf := t.inBuf, hostProgram := rest, hostReads := t.hostReads }

/-! ## Frames of all commands -/

/-- R32, R22, R30: no command changes `IN`, `IN_LEN`, the capacities or the host's side. That an unwritten byte of `IN` reads
as before too is the model's choice (log 8). -/
def Obligations.CommandsNeverChangeTheInput : Prop := ∀ (i : Instr) (s t : State), exec i s = .next t → sameInput s t

/-- R25: the flags each command writes when it completes; error entry clears all four. -/
def Obligations.FlagWritesOfEveryCommand : Prop :=
  ∀ (i : Instr) (s t : State), s.ready → exec i s = .next t →
    (t.phase = .error → flagsAre t false false false false) ∧
    (t.phase ≠ .error →
      match i with
      | .nop => flagsAre t s.freqV s.treeV s.codeV s.hdrV
      | .clear => flagsAre t false false false false
      | .freq => flagsAre t true false false false
      | .build => flagsAre t s.freqV true false s.hdrV
      | .gen => flagsAre t s.freqV s.treeV true s.hdrV
      | .hdrw => flagsAre t s.freqV s.treeV s.codeV false
      | .pack => flagsAre t s.freqV s.treeV s.codeV false
      | .hdrp => flagsAre t true false false true
      | .unpack => flagsAre t s.freqV s.treeV s.codeV s.hdrV
      | .compress => if s.inLen = 0 then flagsAre t true false false false else flagsAre t true true true false
      | .decompress => if t.nsym = 0 then flagsAre t true false false true else flagsAre t true true true true)

/-- R59, R64, R70, R76: the frame of a completed `FREQ`, `BUILD`, `GEN` or `HDRP`, which store nothing in `OUT`. That
a byte at or beyond `OUT_LEN` reads as before is the model's choice (log 7). -/
def Obligations.FrameOfTheTableCommands : Prop :=
  ∀ (i : Instr) (s t : State), s.ready → exec i s = .next t → t.phase ≠ .error →
    (i = .freq → sameInput s t ∧ sameOutput s t ∧ sameArena s t ∧ sameCodes s t ∧ t.inPos = s.inPos ∧ t.pad = s.pad) ∧
    (i = .build → sameInput s t ∧ sameOutput s t ∧ sameFreq s t ∧ sameCodes s t ∧ t.inPos = s.inPos ∧ t.pad = s.pad) ∧
    (i = .gen → sameInput s t ∧ sameOutput s t ∧ sameFreq s t ∧ sameArena s t ∧ t.inPos = s.inPos ∧ t.pad = s.pad) ∧
    (i = .hdrp → sameInput s t ∧ sameOutput s t ∧ sameArena s t ∧ sameCodes s t)

/-- R75, R80, R82: the frame of a completed `HDRW`, `PACK` or `UNPACK`: no table, no byte of `IN`; `PACK` stores from the
`OUT_LEN` it finds, so every byte of `OUT` below reads as before; `HDRW` and `UNPACK` restart `OUT_LEN` at 0 and store from
`OUT[0]`: they end the same whatever `OUT` and `OUT_LEN` were, and exactly the bytes below the new `OUT_LEN` are held. -/
def Obligations.FrameOfTheStoringCommands : Prop :=
  ∀ (i : Instr) (s t : State), s.ready → exec i s = .next t → t.phase ≠ .error →
    i = .hdrw ∨ i = .pack ∨ i = .unpack →
    sameInput s t ∧ sameFreq s t ∧ sameArena s t ∧ sameCodes s t ∧ t.inPos = s.inPos ∧
    (i = .unpack → t.pad = s.pad) ∧
    (i = .pack → s.BuffersOk → s.outLen.toNat ≤ t.outLen.toNat ∧ ∀ k, k < s.outLen.toNat → t.outByte k = s.outByte k) ∧
    (i = .hdrw ∨ i = .unpack →
      (∀ (n : Word) (b : Memory), exec i { s with outLen := n, outBuf := b } = .next t) ∧
      (s.caps.ok → t.outBuf.map Prod.fst = List.range t.outLen.toNat))

/-! ## FREQ -/

/-- R59: `FREQ` completes exactly as its pseudocode says. -/
def Obligations.FreqCountsTheInput : Prop :=
  ∀ s : State, s.ready → s.inLen.toNat ≤ s.caps.inCap →
    ∃ t, exec .freq s = .next t ∧ completed .freq t ∧ flagsAre t true false false false ∧
      (∀ x : Byte, (freqAt t.freq x).toNat = s.inputBytes.count x) ∧ t.nsym.toNat = s.inputBytes.toFinset.card

/-- R60: after a completed `FREQ` the frequencies sum to `IN_LEN`, exactly the byte values that occur have one, and `NSYM` is
their number; no command but `FREQ` and `HDRP` (and the two composites, which run one of these) writes `FREQ[]`. -/
def Obligations.FreqTableSumsToInLen : Prop :=
  (∀ s t : State, s.ready → exec .freq s = .next t → t.phase = .done →
    ((List.range 256).map fun x => (tget t.freq x 0).toNat).sum = s.inLen.toNat ∧
    (∀ x : Byte, 1 ≤ (freqAt t.freq x).toNat ↔ ∃ i, i < s.inLen.toNat ∧ s.inByte i = x) ∧
    t.nsym.toNat = s.inputBytes.toFinset.card ∧ t.nsym.toNat ≤ 256) ∧
  ∀ (i : Instr) (s t : State), i ≠ .freq → i ≠ .hdrp → i ≠ .compress → i ≠ .decompress → exec i s = .next t →
    t.phase ≠ .error → t.freq = s.freq

/-! ## BUILD -/

/-- R62 to R67: `BUILD` completes, and its arena is what the merge loop makes of the present leaves. -/
def Obligations.BuildMergesTheTwoLeast : Prop :=
  ∀ s : State, s.ready → s.freqV = true → s.nsym = nsymOf s.freq → s.nsym ≠ 0 →
    ∃ t q, exec .build s = .next t ∧ completed .build t ∧ flagsAre t s.freqV true false s.hdrV ∧
      mergedFrom s.freq t s.nsym.toNat q ∧ t.nint.toNat = s.nsym.toNat - 1

/-- R67: with two symbols or more `ROOT` is the last node created; with one it is that symbol's leaf, and `LEFT[]` and
`RIGHT[]` are not written. -/
def Obligations.BuildRoot : Prop :=
  ∀ s : State, s.ready → s.freqV = true → s.nsym = nsymOf s.freq → s.nsym ≠ 0 →
    ∃ t, exec .build s = .next t ∧ t.nint.toNat = s.nsym.toNat - 1 ∧
      (2 ≤ s.nsym.toNat → t.root.toNat = 256 + s.nsym.toNat - 2) ∧
      (s.nsym.toNat = 1 → t.left = s.left ∧ t.right = s.right ∧ t.root.toNat < 256 ∧
        ∀ x : Byte, freqAt s.freq x ≠ 0 ↔ t.root = leafOf x)

/-- R68 (a): the arena, `NINT` and `ROOT` are a function of `FREQ[]`. -/
def Obligations.BuildIsAFunctionOfFreq : Prop :=
  ∀ s u t v : State, s.ready → u.ready → s.freq = u.freq → exec .build s = .next t → exec .build u = .next v →
    t.phase = .done → v.phase = .done →
    t.nint = v.nint ∧ t.root = v.root ∧
    (∀ k, k < t.nint.toNat → leftOf t k = leftOf v k ∧ rightOf t k = rightOf v k) ∧
    ∀ id, t.nodeExists id → weightOf t.weight id = weightOf v.weight id

/-- R68 (b), (c): the nodes of a valid tree form a full tree, and internal children are older than their parent. -/
def Obligations.TreeIsFull : Prop :=
  ∀ s : State, s.Inv → s.treeV = true →
    s.nodeExists s.root ∧ s.nint.toNat + 1 = s.nsym.toNat ∧
    (∀ k, k < s.nint.toNat →
      s.nodeExists (leftOf s k) ∧ s.nodeExists (rightOf s k) ∧ leftOf s k ≠ rightOf s k ∧
      (leftOf s k).toNat < 256 + k ∧ (rightOf s k).toNat < 256 + k ∧ leftOf s k ≠ s.root ∧ rightOf s k ≠ s.root) ∧
    (∀ id, s.nodeExists id → id ≠ s.root →
      ∃! p : Nat × Bool, p.1 < s.nint.toNat ∧ (if p.2 then rightOf s p.1 else leftOf s p.1) = id)

/-- R68 (d), (e): an internal weight is the sum of its children's, the root's is the sum of all frequencies, and the weights
of the internal nodes do not decrease in order of creation. -/
def Obligations.TreeWeights : Prop :=
  ∀ s : State, s.Inv → s.treeV = true →
    (∀ k, k < s.nint.toNat → weightOf s.weight (BitVec.ofNat 9 (256 + k)) =
      weightOf s.weight (leftOf s k) + weightOf s.weight (rightOf s k)) ∧
    weightOf s.weight s.root = ((List.range 256).map fun x => (tget s.freq x 0).toNat).sum ∧
    ∀ k, k + 1 < s.nint.toNat →
      weightOf s.weight (BitVec.ofNat 9 (256 + k)) ≤ weightOf s.weight (BitVec.ofNat 9 (256 + (k + 1)))

/-! ## GEN -/

/-- R70, R71: `GEN` completes; the code of every symbol of the alphabet is its path from an internal root; a symbol outside
has none; `LBITS` is the sum of frequency times code length. -/
def Obligations.GenAssignsThePaths : Prop :=
  ∀ s : State, s.Inv → s.ready → s.treeV = true →
    ∃ t, exec .gen s = .next t ∧ completed .gen t ∧ flagsAre t s.freqV s.treeV true s.hdrV ∧
      (∀ x : Byte, (t.codeLenAt x).toNat = (codeString t x).length) ∧
      (∀ x : Byte, freqAt s.freq x = 0 → codeString t x = []) ∧
      (256 ≤ s.root.toNat → ∀ x : Byte, freqAt s.freq x ≠ 0 → follow s s.root (codeString t x) = some (leafOf x)) ∧
      t.lbits.toNat = ((present s.freq).map fun x => (freqAt s.freq x).toNat * (codeString t x).length).sum

/-- R72: with a leaf as root the code is "0", and `LBITS` is that symbol's frequency. -/
def Obligations.GenOfOneSymbol : Prop :=
  ∀ s : State, s.Inv → s.ready → s.treeV = true → s.root.toNat < 256 →
    ∃ t, exec .gen s = .next t ∧ completed .gen t ∧ codeString t (leafByte s.root) = [false] ∧
      t.codeLenAt (leafByte s.root) = 1 ∧ t.lbits.toNat = (freqAt s.freq (leafByte s.root)).toNat ∧
      ∀ x : Byte, x ≠ leafByte s.root → codeString t x = [] ∧ t.codeLenAt x = 0

/-- R73 (a), (b): every symbol of the alphabet has a code of 1 to 255 bits, and no code is a prefix of another's. -/
def Obligations.CodesArePrefixFree : Prop :=
  ∀ s : State, s.Inv → s.codeV = true →
    (∀ x : Byte, freqAt s.freq x ≠ 0 → 1 ≤ (codeString s x).length ∧ (codeString s x).length ≤ 255) ∧
    ∀ x y : Byte, freqAt s.freq x ≠ 0 → freqAt s.freq y ≠ 0 → x ≠ y → ¬ (codeString s x <+: codeString s y)

/-- R73 (c): with two symbols or more the codes are complete; the sum of `2^(-CODE_LEN)` is 1, scaled by `2^255`. -/
def Obligations.CodesAreComplete : Prop :=
  ∀ s : State, s.Inv → s.codeV = true → 2 ≤ s.nsym.toNat →
    ((present s.freq).map fun x => 2 ^ (255 - (codeString s x).length)).sum = 2 ^ 255

/-- R73 (d): a more frequent symbol has no longer code. -/
def Obligations.CodeLengthsAreMonotone : Prop :=
  ∀ s : State, s.Inv → s.codeV = true →
    ∀ x y : Byte, freqAt s.freq y ≠ 0 → (freqAt s.freq y).toNat < (freqAt s.freq x).toNat →
      (codeString s x).length ≤ (codeString s y).length

/-- R73 (f): with two symbols or more `LBITS` is the sum of the internal nodes' weights. -/
def Obligations.LbitsIsTheSumOfInternalWeights : Prop :=
  ∀ s : State, s.Inv → s.codeV = true → 2 ≤ s.nsym.toNat →
    s.lbits.toNat = ((List.range s.nint.toNat).map fun k => weightOf s.weight (BitVec.ofNat 9 (256 + k))).sum

/-- R73 (e), in particular: `LBITS` is at most 8 bits for each input byte, since the code is optimal and a fixed 8-bit code
would do. -/
def Obligations.LbitsIsAtMostEightPerByte : Prop :=
  ∀ s : State, s.Inv → s.codeV = true →
    s.lbits.toNat ≤ 8 * ((List.range 256).map fun x => (tget s.freq x 0).toNat).sum

/-! ## HDRW and HDRP -/

/-- R75, R50: `HDRW` completes, with exactly the header in `OUT`. -/
def Obligations.HdrwWritesTheHeader : Prop :=
  ∀ s : State, s.Inv → s.ready → s.codeV = true →
    ∃ t, exec .hdrw s = .next t ∧ completed .hdrw t ∧ flagsAre t s.freqV s.treeV s.codeV false ∧
      t.pad.toNat = padOf s.lbits.toNat ∧ t.outLen.toNat = 5 * s.nsym.toNat + 5 ∧
      t.outputBytes = header (entries s.freq) (BitVec.ofNat 8 (padOf s.lbits.toNat))

/-- R76, R50: `HDRP` completes on a well-formed header, whatever follows it. -/
def Obligations.HdrpReadsTheHeader : Prop :=
  ∀ (s : State) (es : List (Byte × Word)) (p : Byte) (rest : List Byte),
    s.ready → s.inLen.toNat ≤ s.caps.inCap → s.inputBytes = header es p ++ rest →
    es.Pairwise (fun a b => a.1.toNat < b.1.toNat) → (∀ e ∈ es, e.2 ≠ 0) → p.toNat ≤ 7 →
    ∃ t, exec .hdrp s = .next t ∧ completed .hdrp t ∧ flagsAre t true false false true ∧
      (∀ e ∈ es, freqAt t.freq e.1 = e.2) ∧ (∀ x : Byte, x ∉ es.map Prod.fst → freqAt t.freq x = 0) ∧
      t.nsym.toNat = es.length ∧ t.pad.toNat = p.toNat ∧ t.inPos.toNat = 5 * es.length + 5

/-- R77: the first failing check of `HDRP` decides the error. -/
def Obligations.HdrpCheckOrder : Prop :=
  ∀ s : State, s.ready → s.inLen ≠ 0 →
    let n := (s.inByte 0).toNat * 2 ^ 24 + (s.inByte 1).toNat * 2 ^ 16 + (s.inByte 2).toNat * 2 ^ 8 + (s.inByte 3).toNat
    let sym := fun i => (s.inByte (4 + 5 * i)).toNat
    let zero := fun i => ∀ k, k < 4 → s.inByte (5 + 5 * i + k) = 0
    let disorder := fun i => 0 < i ∧ sym i ≤ sym (i - 1)
    if s.caps.inCap < s.inLen.toNat then raises .hdrp s .inLenRange
    else if s.inLen.toNat < 4 then raises .hdrp s .hdrTrunc
    else if 256 < n then raises .hdrp s .hdrCount
    else if s.inLen.toNat < 5 * n + 5 then raises .hdrp s .hdrTrunc
    else
      (∀ i, i < n → (∀ j, j < i → ¬ disorder j ∧ ¬ zero j) →
        (disorder i → raises .hdrp s .hdrOrder) ∧ (¬ disorder i → zero i → raises .hdrp s .hdrZeroFreq)) ∧
      ((∀ j, j < n → ¬ disorder j ∧ ¬ zero j) → 7 < (s.inByte (4 + 5 * n)).toNat → raises .hdrp s .hdrPad)

/-- R78: the empty alphabet on the decode side. -/
def Obligations.HdrpEmptyAlphabet : Prop :=
  ∀ s : State, s.ready → s.inLen.toNat ≤ s.caps.inCap →
    (s.inLen = 0 → ∃ t, exec .hdrp s = .next t ∧ completed .hdrp t ∧ (∀ x : Byte, freqAt t.freq x = 0) ∧ t.nsym = 0 ∧
      t.pad = 0 ∧ t.inPos = 0) ∧
    (0 < s.inLen.toNat → s.inLen.toNat < 4 → raises .hdrp s .hdrTrunc) ∧
    (4 ≤ s.inLen.toNat → (∀ k, k < 4 → s.inByte k = 0) →
      (s.inLen.toNat = 4 → raises .hdrp s .hdrTrunc) ∧
      (5 ≤ s.inLen.toNat → 7 < (s.inByte 4).toNat → raises .hdrp s .hdrPad) ∧
      (5 ≤ s.inLen.toNat → (s.inByte 4).toNat ≤ 7 →
        ∃ t, exec .hdrp s = .next t ∧ completed .hdrp t ∧ (∀ x : Byte, freqAt t.freq x = 0) ∧ t.nsym = 0 ∧
          t.pad.toNat = (s.inByte 4).toNat ∧ t.inPos = 5))

/-- R79: the header round trip. -/
def Obligations.HeaderRoundTrip : Prop :=
  ∀ (s t u : State) (rest : List Byte), s.Inv → s.ready → exec .hdrw s = .next t → t.phase = .done →
    u.ready → u.inLen.toNat ≤ u.caps.inCap → u.inputBytes = t.outputBytes ++ rest →
    ∃ v, exec .hdrp u = .next v ∧ completed .hdrp v ∧ v.freq = s.freq ∧ v.nsym = s.nsym ∧ v.pad = t.pad ∧
      v.inPos.toNat = 5 * s.nsym.toNat + 5

/-! ## PACK -/

/-- R80, R81, R54: `PACK` completes, and appends the payload of the input's codes to `OUT`. -/
def Obligations.PackAppendsThePayload : Prop :=
  ∀ s : State, s.ready → s.BuffersOk → s.CodesFit → s.codeV = true → s.inLen.toNat ≤ s.caps.inCap →
    (∀ x ∈ s.inputBytes, s.codeLenAt x ≠ 0) →
    s.outLen.toNat + ((encodeAll s s.inputBytes).length + 7) / 8 ≤ s.caps.outCap →
    ∃ t, exec .pack s = .next t ∧ completed .pack t ∧ flagsAre t s.freqV s.treeV s.codeV false ∧
      t.outputBytes = s.outputBytes ++ payload (encodeAll s s.inputBytes) ∧
      t.outLen.toNat = s.outLen.toNat + ((encodeAll s s.inputBytes).length + 7) / 8 ∧
      t.pad.toNat = padOf (encodeAll s s.inputBytes).length

/-- R80: the first input byte without a code raises `INVARIANT`, where the bytes before it found room. -/
def Obligations.PackRaisesNoCode : Prop :=
  ∀ (s : State) (l r : List Byte) (x : Byte), s.ready → s.BuffersOk → s.CodesFit → s.codeV = true →
    s.inLen.toNat ≤ s.caps.inCap → s.inputBytes = l ++ x :: r → (∀ y ∈ l, s.codeLenAt y ≠ 0) → s.codeLenAt x = 0 →
    s.outLen.toNat + (encodeAll s l).length / 8 ≤ s.caps.outCap → raises .pack s .noCode

/-- R80, R97 detail 1, R99: `PACK` raises `CAPACITY` when the whole bytes of the codes of its first input bytes do not fit,
whatever follows them, a byte without a code included; and when every input byte has a code and the payload, its last byte
completed by pad bits included, does not fit. -/
def Obligations.PackRaisesOutFull : Prop :=
  ∀ s : State, s.ready → s.BuffersOk → s.CodesFit → s.codeV = true → s.inLen.toNat ≤ s.caps.inCap →
    (∀ l r : List Byte, s.inputBytes = l ++ r → (∀ x ∈ l, s.codeLenAt x ≠ 0) →
      s.caps.outCap < s.outLen.toNat + (encodeAll s l).length / 8 → raises .pack s .outFull) ∧
    ((∀ x ∈ s.inputBytes, s.codeLenAt x ≠ 0) →
      s.caps.outCap < s.outLen.toNat + ((encodeAll s s.inputBytes).length + 7) / 8 → raises .pack s .outFull)

/-! ## UNPACK -/

/-- R82, R83: `UNPACK` completes on a payload that is the codes of `xs`, and recovers `xs`. -/
def Obligations.UnpackDecodesTheCodes : Prop :=
  ∀ (s : State) (xs : List Byte), s.Inv → s.ready → s.codeV = true → s.hdrV = true → s.inLen.toNat ≤ s.caps.inCap →
    256 ≤ s.root.toNat → 8 * ((s.inLen.toNat : Int) - s.inPos.toNat) - s.pad.toNat = s.lbits.toNat →
    (∀ x ∈ xs, freqAt s.freq x ≠ 0) → streamBits s = encodeAll s xs → xs.length ≤ s.caps.outCap →
    ∃ t, exec .unpack s = .next t ∧ completed .unpack t ∧ flagsAre t s.freqV s.treeV s.codeV s.hdrV ∧
      t.outputBytes = xs ∧ t.outLen.toNat = xs.length

/-- R83: bits that end inside the tree, after whole codes that found room, raise `FORMAT` detail 7. -/
def Obligations.UnpackRaisesExhausted : Prop :=
  ∀ (s : State) (xs : List Byte) (r : BitString) (y : Byte), s.Inv → s.ready → s.codeV = true → s.hdrV = true →
    s.inLen.toNat ≤ s.caps.inCap → 256 ≤ s.root.toNat →
    8 * ((s.inLen.toNat : Int) - s.inPos.toNat) - s.pad.toNat = s.lbits.toNat →
    (∀ x ∈ xs, freqAt s.freq x ≠ 0) → freqAt s.freq y ≠ 0 → r ≠ [] → r <+: codeString s y → r ≠ codeString s y →
    streamBits s = encodeAll s xs ++ r → xs.length ≤ s.caps.outCap → raises .unpack s .exhausted

/-- R82, R97 detail 1: with an internal root, whole codes of more bytes than `OUT` has room for raise `CAPACITY`, whatever bits
follow them. -/
def Obligations.UnpackRaisesOutFull : Prop :=
  ∀ (s : State) (xs : List Byte) (r : BitString), s.Inv → s.ready → s.codeV = true → s.hdrV = true →
    s.inLen.toNat ≤ s.caps.inCap → 256 ≤ s.root.toNat →
    8 * ((s.inLen.toNat : Int) - s.inPos.toNat) - s.pad.toNat = s.lbits.toNat →
    (∀ x ∈ xs, freqAt s.freq x ≠ 0) → streamBits s = encodeAll s xs ++ r → s.caps.outCap < xs.length →
    raises .unpack s .outFull

/-- R84: with a leaf as root every bit emits its byte, whatever the payload's bits are; `LBITS` is that byte's frequency. -/
def Obligations.UnpackOfOneSymbol : Prop :=
  ∀ s : State, s.Inv → s.ready → s.codeV = true → s.hdrV = true → s.inLen.toNat ≤ s.caps.inCap →
    s.root.toNat < 256 → 8 * ((s.inLen.toNat : Int) - s.inPos.toNat) - s.pad.toNat = s.lbits.toNat →
    s.lbits.toNat = (freqAt s.freq (leafByte s.root)).toNat ∧
    (s.lbits.toNat ≤ s.caps.outCap →
      ∃ t, exec .unpack s = .next t ∧ completed .unpack t ∧
        t.outputBytes = List.replicate s.lbits.toNat (leafByte s.root)) ∧
    (s.caps.outCap < s.lbits.toNat → raises .unpack s .outFull)

/-- R82, R85: a payload whose length is not exactly `LBITS` raises `FORMAT` detail 6. -/
def Obligations.UnpackChecksTheLength : Prop :=
  ∀ s : State, s.ready → s.codeV = true → s.hdrV = true → s.inLen.toNat ≤ s.caps.inCap →
    8 * ((s.inLen.toNat : Int) - s.inPos.toNat) - s.pad.toNat ≠ s.lbits.toNat → raises .unpack s .payloadLen

/-- R85: `UNPACK` does not look at the pad bits: its result depends on the payload only through its first `LBITS` bits. -/
def Obligations.UnpackIgnoresThePadBits : Prop :=
  ∀ (s t : State) (m : Memory), s.ready → streamBits { s with inBuf := m } = streamBits s → exec .unpack s = .next t →
    exec .unpack { s with inBuf := m } = .next { t with inBuf := m }

/-! ## COMPRESS and DECOMPRESS -/

/-- R89: every run of `COMPRESS` on a non-empty input that ends in `DONE` wrote header then payload; and it ends so where `OUT`
has room for codes of 255 bits, a premise on the state alone. That it ends so with room for `IN_LEN + 1285` bytes is
`CompressCompletesWithRoom`. -/
def Obligations.CompressWritesHeaderAndPayload : Prop :=
  ∀ s : State, s.ready → s.caps.ok → 0 < s.inLen.toNat →
    (∀ t, exec .compress s = .next t → t.phase = .done → compressedFrom s t) ∧
    (s.inLen.toNat ≤ s.caps.inCap → 1285 + 32 * s.inLen.toNat ≤ s.caps.outCap →
      ∃ t, exec .compress s = .next t ∧ compressedFrom s t)

/-- R89, R112: the only error of `COMPRESS` on an input that fits `IN` is `CAPACITY` detail 1, and with room for the header and
the input it completes. -/
def Obligations.CompressCompletesWithRoom : Prop :=
  ∀ s : State, s.ready → s.caps.ok → s.inLen.toNat ≤ s.caps.inCap →
    ∃ t, exec .compress s = .next t ∧ (completed .compress t ∨ t = (s.accept (encode .compress)).raise .outFull) ∧
      (s.inLen.toNat + 1285 ≤ s.caps.outCap → completed .compress t)

/-- R56, R61, R89: the empty input gives the empty output, with the flags of `FREQ`. -/
def Obligations.CompressOfTheEmptyInput : Prop :=
  ∀ s : State, s.ready → s.inLen = 0 →
    ∃ t, exec .compress s = .next t ∧ completed .compress t ∧ flagsAre t true false false false ∧ t.outLen = 0 ∧
      t.pad = 0 ∧ t.nsym = 0 ∧ (∀ x : Byte, freqAt t.freq x = 0) ∧ t.outputBytes = [] ∧ t.lbits = s.lbits ∧
      t.inPos = s.inPos

/-- R78, R90, 90_conflicts.md C2: the zero-length stream, and a stream of count 0, decode to the empty output; what follows
the five bytes is not looked at. -/
def Obligations.DecompressOfTheEmptyAlphabet : Prop :=
  ∀ s : State, s.ready → s.inLen.toNat ≤ s.caps.inCap →
    s.inLen = 0 ∨ (5 ≤ s.inLen.toNat ∧ (∀ k, k < 4 → s.inByte k = 0) ∧ (s.inByte 4).toNat ≤ 7) →
    ∃ t, exec .decompress s = .next t ∧ completed .decompress t ∧ flagsAre t true false false true ∧ t.outLen = 0 ∧
      t.nsym = 0 ∧ t.outputBytes = []

/-- R90: `DECOMPRESS` completes on a header followed by the payload of `xs` under the codes of that header's alphabet, and
recovers `xs`. The codes are those of any state `g` whose code table belongs to that alphabet. -/
def Obligations.DecompressDecodesAnEncodedStream : Prop :=
  ∀ (s g : State) (xs : List Byte), s.ready → s.inLen.toNat ≤ s.caps.inCap → s.caps.ok → g.Inv → g.codeV = true →
    (∀ x ∈ xs, freqAt g.freq x ≠ 0) → (encodeAll g xs).length = g.lbits.toNat → xs.length ≤ s.caps.outCap →
    s.inputBytes = header (entries g.freq) (BitVec.ofNat 8 (padOf g.lbits.toNat)) ++ payload (encodeAll g xs) →
    ∃ t, exec .decompress s = .next t ∧ completed .decompress t ∧ flagsAre t true true true true ∧ t.outputBytes = xs ∧
      t.freq = g.freq ∧ t.code = g.code

/-- R91: for a non-empty input `COMPRESS` ends in the same state, `CMD` apart, as its five parts in sequence, including the
same error, if any. -/
def Obligations.CompressIsItsParts : Prop :=
  ∀ s : State, s.ready → 0 < s.inLen.toNat → s.inLen.toNat ≤ s.caps.inCap →
    ∃ t u, exec .compress s = .next t ∧ runAll [.freq, .build, .gen, .hdrw, .pack] s = .next u ∧ sameButCmd t u

/-- R91: for a stream with a non-empty alphabet `DECOMPRESS` ends in the same state, `CMD` apart, as its four parts in
sequence, including the same error, if any. -/
def Obligations.DecompressIsItsParts : Prop :=
  ∀ s : State, s.ready → (∀ u, exec .hdrp s = .next u → u.phase = .done → u.nsym ≠ 0) →
    ∃ t u, exec .decompress s = .next t ∧ runAll [.hdrp, .build, .gen, .unpack] s = .next u ∧ sameButCmd t u

/-- R112: the round trip. `u` is any state that holds the output of `COMPRESS` as its input. -/
def Obligations.RoundTrip : Prop :=
  ∀ s t u : State, s.ready → s.caps.ok → s.inLen.toNat ≤ s.caps.inCap → exec .compress s = .next t → t.phase = .done →
    u.ready → u.caps = s.caps → s.inLen.toNat ≤ u.caps.outCap → u.inLen = t.outLen → u.inLen.toNat ≤ u.caps.inCap →
    u.inputBytes = t.outputBytes →
    ∃ v, exec .decompress u = .next v ∧ completed .decompress v ∧ v.outputBytes = s.inputBytes

/-! ## The whole machine -/

/-- The state after reset meets the invariant. -/
def Obligations.ResetMeetsTheInvariant : Prop := State.reset.Inv

/-- R26 with the bounds and canonical forms of the state: every step keeps the invariant. -/
def Obligations.EveryStepKeepsTheInvariant : Prop := ∀ s t : State, s.Inv → step s = .next t → t.Inv

/-- R111, R74: from a state that meets the invariant no step stops in a fault; every command runs to its end. -/
def Obligations.NoStepFaults : Prop := ∀ (s : State) (f : Fault), s.Inv → step s ≠ .fault f

/-- R25, 93_implementation_defined.md U3: what is unspecified in the tables reaches no outcome. Two states that agree on all
the spec fixes take the same step, and agree after it, what the host reads included. -/
def Obligations.UnspecifiedTablesReachNoOutcome : Prop :=
  ∀ s u t : State, s.Inv → u.Inv → s.settled = u.settled → step s = .next t →
    ∃ v, step u = .next v ∧ t.settled = v.settled
end

