-- ==== Sys2Proof/Laws/State.lean ====
section
/-!
SUPPORT. What every named update of the state leaves in every field: one lemma per field per update.
-/
namespace Sys2Proof.Machine

variable (s : State)


@[simp] theorem State.flagsFreq_caps : (s.flagsFreq).caps = s.caps := rfl
@[simp] theorem State.flagsFreq_cmd : (s.flagsFreq).cmd = s.cmd := rfl
@[simp] theorem State.flagsFreq_phase : (s.flagsFreq).phase = s.phase := rfl
@[simp] theorem State.flagsFreq_freqV : (s.flagsFreq).freqV = true := rfl
@[simp] theorem State.flagsFreq_treeV : (s.flagsFreq).treeV = false := rfl
@[simp] theorem State.flagsFreq_codeV : (s.flagsFreq).codeV = false := rfl
@[simp] theorem State.flagsFreq_hdrV : (s.flagsFreq).hdrV = false := rfl
@[simp] theorem State.flagsFreq_err : (s.flagsFreq).err = s.err := rfl
@[simp] theorem State.flagsFreq_detail : (s.flagsFreq).detail = s.detail := rfl
@[simp] theorem State.flagsFreq_inLen : (s.flagsFreq).inLen = s.inLen := rfl
@[simp] theorem State.flagsFreq_outLen : (s.flagsFreq).outLen = s.outLen := rfl
@[simp] theorem State.flagsFreq_inPos : (s.flagsFreq).inPos = s.inPos := rfl
@[simp] theorem State.flagsFreq_nsym : (s.flagsFreq).nsym = s.nsym := rfl
@[simp] theorem State.flagsFreq_nint : (s.flagsFreq).nint = s.nint := rfl
@[simp] theorem State.flagsFreq_root : (s.flagsFreq).root = s.root := rfl
@[simp] theorem State.flagsFreq_pad : (s.flagsFreq).pad = s.pad := rfl
@[simp] theorem State.flagsFreq_lbits : (s.flagsFreq).lbits = s.lbits := rfl
@[simp] theorem State.flagsFreq_freq : (s.flagsFreq).freq = s.freq := rfl
@[simp] theorem State.flagsFreq_weight : (s.flagsFreq).weight = s.weight := rfl
@[simp] theorem State.flagsFreq_left : (s.flagsFreq).left = s.left := rfl
@[simp] theorem State.flagsFreq_right : (s.flagsFreq).right = s.right := rfl
@[simp] theorem State.flagsFreq_inq : (s.flagsFreq).inq = s.inq := rfl
@[simp] theorem State.flagsFreq_codeLen : (s.flagsFreq).codeLen = s.codeLen := rfl
@[simp] theorem State.flagsFreq_code : (s.flagsFreq).code = s.code := rfl
@[simp] theorem State.flagsFreq_inBuf : (s.flagsFreq).inBuf = s.inBuf := rfl
@[simp] theorem State.flagsFreq_outBuf : (s.flagsFreq).outBuf = s.outBuf := rfl
@[simp] theorem State.flagsFreq_draws : (s.flagsFreq).draws = s.draws := rfl
@[simp] theorem State.flagsFreq_resets : (s.flagsFreq).resets = s.resets := rfl
@[simp] theorem State.flagsFreq_hostProgram : (s.flagsFreq).hostProgram = s.hostProgram := rfl
@[simp] theorem State.flagsFreq_hostReads : (s.flagsFreq).hostReads = s.hostReads := rfl

@[simp] theorem State.flagsBuild_caps : (s.flagsBuild).caps = s.caps := rfl
@[simp] theorem State.flagsBuild_cmd : (s.flagsBuild).cmd = s.cmd := rfl
@[simp] theorem State.flagsBuild_phase : (s.flagsBuild).phase = s.phase := rfl
@[simp] theorem State.flagsBuild_freqV : (s.flagsBuild).freqV = s.freqV := rfl
@[simp] theorem State.flagsBuild_treeV : (s.flagsBuild).treeV = true := rfl
@[simp] theorem State.flagsBuild_codeV : (s.flagsBuild).codeV = false := rfl
@[simp] theorem State.flagsBuild_hdrV : (s.flagsBuild).hdrV = s.hdrV := rfl
@[simp] theorem State.flagsBuild_err : (s.flagsBuild).err = s.err := rfl
@[simp] theorem State.flagsBuild_detail : (s.flagsBuild).detail = s.detail := rfl
@[simp] theorem State.flagsBuild_inLen : (s.flagsBuild).inLen = s.inLen := rfl
@[simp] theorem State.flagsBuild_outLen : (s.flagsBuild).outLen = s.outLen := rfl
@[simp] theorem State.flagsBuild_inPos : (s.flagsBuild).inPos = s.inPos := rfl
@[simp] theorem State.flagsBuild_nsym : (s.flagsBuild).nsym = s.nsym := rfl
@[simp] theorem State.flagsBuild_nint : (s.flagsBuild).nint = s.nint := rfl
@[simp] theorem State.flagsBuild_root : (s.flagsBuild).root = s.root := rfl
@[simp] theorem State.flagsBuild_pad : (s.flagsBuild).pad = s.pad := rfl
@[simp] theorem State.flagsBuild_lbits : (s.flagsBuild).lbits = s.lbits := rfl
@[simp] theorem State.flagsBuild_freq : (s.flagsBuild).freq = s.freq := rfl
@[simp] theorem State.flagsBuild_weight : (s.flagsBuild).weight = s.weight := rfl
@[simp] theorem State.flagsBuild_left : (s.flagsBuild).left = s.left := rfl
@[simp] theorem State.flagsBuild_right : (s.flagsBuild).right = s.right := rfl
@[simp] theorem State.flagsBuild_inq : (s.flagsBuild).inq = s.inq := rfl
@[simp] theorem State.flagsBuild_codeLen : (s.flagsBuild).codeLen = s.codeLen := rfl
@[simp] theorem State.flagsBuild_code : (s.flagsBuild).code = s.code := rfl
@[simp] theorem State.flagsBuild_inBuf : (s.flagsBuild).inBuf = s.inBuf := rfl
@[simp] theorem State.flagsBuild_outBuf : (s.flagsBuild).outBuf = s.outBuf := rfl
@[simp] theorem State.flagsBuild_draws : (s.flagsBuild).draws = s.draws := rfl
@[simp] theorem State.flagsBuild_resets : (s.flagsBuild).resets = s.resets := rfl
@[simp] theorem State.flagsBuild_hostProgram : (s.flagsBuild).hostProgram = s.hostProgram := rfl
@[simp] theorem State.flagsBuild_hostReads : (s.flagsBuild).hostReads = s.hostReads := rfl

@[simp] theorem State.flagsGen_caps : (s.flagsGen).caps = s.caps := rfl
@[simp] theorem State.flagsGen_cmd : (s.flagsGen).cmd = s.cmd := rfl
@[simp] theorem State.flagsGen_phase : (s.flagsGen).phase = s.phase := rfl
@[simp] theorem State.flagsGen_freqV : (s.flagsGen).freqV = s.freqV := rfl
@[simp] theorem State.flagsGen_treeV : (s.flagsGen).treeV = s.treeV := rfl
@[simp] theorem State.flagsGen_codeV : (s.flagsGen).codeV = true := rfl
@[simp] theorem State.flagsGen_hdrV : (s.flagsGen).hdrV = s.hdrV := rfl
@[simp] theorem State.flagsGen_err : (s.flagsGen).err = s.err := rfl
@[simp] theorem State.flagsGen_detail : (s.flagsGen).detail = s.detail := rfl
@[simp] theorem State.flagsGen_inLen : (s.flagsGen).inLen = s.inLen := rfl
@[simp] theorem State.flagsGen_outLen : (s.flagsGen).outLen = s.outLen := rfl
@[simp] theorem State.flagsGen_inPos : (s.flagsGen).inPos = s.inPos := rfl
@[simp] theorem State.flagsGen_nsym : (s.flagsGen).nsym = s.nsym := rfl
@[simp] theorem State.flagsGen_nint : (s.flagsGen).nint = s.nint := rfl
@[simp] theorem State.flagsGen_root : (s.flagsGen).root = s.root := rfl
@[simp] theorem State.flagsGen_pad : (s.flagsGen).pad = s.pad := rfl
@[simp] theorem State.flagsGen_lbits : (s.flagsGen).lbits = s.lbits := rfl
@[simp] theorem State.flagsGen_freq : (s.flagsGen).freq = s.freq := rfl
@[simp] theorem State.flagsGen_weight : (s.flagsGen).weight = s.weight := rfl
@[simp] theorem State.flagsGen_left : (s.flagsGen).left = s.left := rfl
@[simp] theorem State.flagsGen_right : (s.flagsGen).right = s.right := rfl
@[simp] theorem State.flagsGen_inq : (s.flagsGen).inq = s.inq := rfl
@[simp] theorem State.flagsGen_codeLen : (s.flagsGen).codeLen = s.codeLen := rfl
@[simp] theorem State.flagsGen_code : (s.flagsGen).code = s.code := rfl
@[simp] theorem State.flagsGen_inBuf : (s.flagsGen).inBuf = s.inBuf := rfl
@[simp] theorem State.flagsGen_outBuf : (s.flagsGen).outBuf = s.outBuf := rfl
@[simp] theorem State.flagsGen_draws : (s.flagsGen).draws = s.draws := rfl
@[simp] theorem State.flagsGen_resets : (s.flagsGen).resets = s.resets := rfl
@[simp] theorem State.flagsGen_hostProgram : (s.flagsGen).hostProgram = s.hostProgram := rfl
@[simp] theorem State.flagsGen_hostReads : (s.flagsGen).hostReads = s.hostReads := rfl

@[simp] theorem State.flagsHdrw_caps : (s.flagsHdrw).caps = s.caps := rfl
@[simp] theorem State.flagsHdrw_cmd : (s.flagsHdrw).cmd = s.cmd := rfl
@[simp] theorem State.flagsHdrw_phase : (s.flagsHdrw).phase = s.phase := rfl
@[simp] theorem State.flagsHdrw_freqV : (s.flagsHdrw).freqV = s.freqV := rfl
@[simp] theorem State.flagsHdrw_treeV : (s.flagsHdrw).treeV = s.treeV := rfl
@[simp] theorem State.flagsHdrw_codeV : (s.flagsHdrw).codeV = s.codeV := rfl
@[simp] theorem State.flagsHdrw_hdrV : (s.flagsHdrw).hdrV = false := rfl
@[simp] theorem State.flagsHdrw_err : (s.flagsHdrw).err = s.err := rfl
@[simp] theorem State.flagsHdrw_detail : (s.flagsHdrw).detail = s.detail := rfl
@[simp] theorem State.flagsHdrw_inLen : (s.flagsHdrw).inLen = s.inLen := rfl
@[simp] theorem State.flagsHdrw_outLen : (s.flagsHdrw).outLen = s.outLen := rfl
@[simp] theorem State.flagsHdrw_inPos : (s.flagsHdrw).inPos = s.inPos := rfl
@[simp] theorem State.flagsHdrw_nsym : (s.flagsHdrw).nsym = s.nsym := rfl
@[simp] theorem State.flagsHdrw_nint : (s.flagsHdrw).nint = s.nint := rfl
@[simp] theorem State.flagsHdrw_root : (s.flagsHdrw).root = s.root := rfl
@[simp] theorem State.flagsHdrw_pad : (s.flagsHdrw).pad = s.pad := rfl
@[simp] theorem State.flagsHdrw_lbits : (s.flagsHdrw).lbits = s.lbits := rfl
@[simp] theorem State.flagsHdrw_freq : (s.flagsHdrw).freq = s.freq := rfl
@[simp] theorem State.flagsHdrw_weight : (s.flagsHdrw).weight = s.weight := rfl
@[simp] theorem State.flagsHdrw_left : (s.flagsHdrw).left = s.left := rfl
@[simp] theorem State.flagsHdrw_right : (s.flagsHdrw).right = s.right := rfl
@[simp] theorem State.flagsHdrw_inq : (s.flagsHdrw).inq = s.inq := rfl
@[simp] theorem State.flagsHdrw_codeLen : (s.flagsHdrw).codeLen = s.codeLen := rfl
@[simp] theorem State.flagsHdrw_code : (s.flagsHdrw).code = s.code := rfl
@[simp] theorem State.flagsHdrw_inBuf : (s.flagsHdrw).inBuf = s.inBuf := rfl
@[simp] theorem State.flagsHdrw_outBuf : (s.flagsHdrw).outBuf = s.outBuf := rfl
@[simp] theorem State.flagsHdrw_draws : (s.flagsHdrw).draws = s.draws := rfl
@[simp] theorem State.flagsHdrw_resets : (s.flagsHdrw).resets = s.resets := rfl
@[simp] theorem State.flagsHdrw_hostProgram : (s.flagsHdrw).hostProgram = s.hostProgram := rfl
@[simp] theorem State.flagsHdrw_hostReads : (s.flagsHdrw).hostReads = s.hostReads := rfl

@[simp] theorem State.flagsHdrp_caps : (s.flagsHdrp).caps = s.caps := rfl
@[simp] theorem State.flagsHdrp_cmd : (s.flagsHdrp).cmd = s.cmd := rfl
@[simp] theorem State.flagsHdrp_phase : (s.flagsHdrp).phase = s.phase := rfl
@[simp] theorem State.flagsHdrp_freqV : (s.flagsHdrp).freqV = true := rfl
@[simp] theorem State.flagsHdrp_treeV : (s.flagsHdrp).treeV = false := rfl
@[simp] theorem State.flagsHdrp_codeV : (s.flagsHdrp).codeV = false := rfl
@[simp] theorem State.flagsHdrp_hdrV : (s.flagsHdrp).hdrV = true := rfl
@[simp] theorem State.flagsHdrp_err : (s.flagsHdrp).err = s.err := rfl
@[simp] theorem State.flagsHdrp_detail : (s.flagsHdrp).detail = s.detail := rfl
@[simp] theorem State.flagsHdrp_inLen : (s.flagsHdrp).inLen = s.inLen := rfl
@[simp] theorem State.flagsHdrp_outLen : (s.flagsHdrp).outLen = s.outLen := rfl
@[simp] theorem State.flagsHdrp_inPos : (s.flagsHdrp).inPos = s.inPos := rfl
@[simp] theorem State.flagsHdrp_nsym : (s.flagsHdrp).nsym = s.nsym := rfl
@[simp] theorem State.flagsHdrp_nint : (s.flagsHdrp).nint = s.nint := rfl
@[simp] theorem State.flagsHdrp_root : (s.flagsHdrp).root = s.root := rfl
@[simp] theorem State.flagsHdrp_pad : (s.flagsHdrp).pad = s.pad := rfl
@[simp] theorem State.flagsHdrp_lbits : (s.flagsHdrp).lbits = s.lbits := rfl
@[simp] theorem State.flagsHdrp_freq : (s.flagsHdrp).freq = s.freq := rfl
@[simp] theorem State.flagsHdrp_weight : (s.flagsHdrp).weight = s.weight := rfl
@[simp] theorem State.flagsHdrp_left : (s.flagsHdrp).left = s.left := rfl
@[simp] theorem State.flagsHdrp_right : (s.flagsHdrp).right = s.right := rfl
@[simp] theorem State.flagsHdrp_inq : (s.flagsHdrp).inq = s.inq := rfl
@[simp] theorem State.flagsHdrp_codeLen : (s.flagsHdrp).codeLen = s.codeLen := rfl
@[simp] theorem State.flagsHdrp_code : (s.flagsHdrp).code = s.code := rfl
@[simp] theorem State.flagsHdrp_inBuf : (s.flagsHdrp).inBuf = s.inBuf := rfl
@[simp] theorem State.flagsHdrp_outBuf : (s.flagsHdrp).outBuf = s.outBuf := rfl
@[simp] theorem State.flagsHdrp_draws : (s.flagsHdrp).draws = s.draws := rfl
@[simp] theorem State.flagsHdrp_resets : (s.flagsHdrp).resets = s.resets := rfl
@[simp] theorem State.flagsHdrp_hostProgram : (s.flagsHdrp).hostProgram = s.hostProgram := rfl
@[simp] theorem State.flagsHdrp_hostReads : (s.flagsHdrp).hostReads = s.hostReads := rfl

@[simp] theorem State.flagsNone_caps : (s.flagsNone).caps = s.caps := rfl
@[simp] theorem State.flagsNone_cmd : (s.flagsNone).cmd = s.cmd := rfl
@[simp] theorem State.flagsNone_phase : (s.flagsNone).phase = s.phase := rfl
@[simp] theorem State.flagsNone_freqV : (s.flagsNone).freqV = false := rfl
@[simp] theorem State.flagsNone_treeV : (s.flagsNone).treeV = false := rfl
@[simp] theorem State.flagsNone_codeV : (s.flagsNone).codeV = false := rfl
@[simp] theorem State.flagsNone_hdrV : (s.flagsNone).hdrV = false := rfl
@[simp] theorem State.flagsNone_err : (s.flagsNone).err = s.err := rfl
@[simp] theorem State.flagsNone_detail : (s.flagsNone).detail = s.detail := rfl
@[simp] theorem State.flagsNone_inLen : (s.flagsNone).inLen = s.inLen := rfl
@[simp] theorem State.flagsNone_outLen : (s.flagsNone).outLen = s.outLen := rfl
@[simp] theorem State.flagsNone_inPos : (s.flagsNone).inPos = s.inPos := rfl
@[simp] theorem State.flagsNone_nsym : (s.flagsNone).nsym = s.nsym := rfl
@[simp] theorem State.flagsNone_nint : (s.flagsNone).nint = s.nint := rfl
@[simp] theorem State.flagsNone_root : (s.flagsNone).root = s.root := rfl
@[simp] theorem State.flagsNone_pad : (s.flagsNone).pad = s.pad := rfl
@[simp] theorem State.flagsNone_lbits : (s.flagsNone).lbits = s.lbits := rfl
@[simp] theorem State.flagsNone_freq : (s.flagsNone).freq = s.freq := rfl
@[simp] theorem State.flagsNone_weight : (s.flagsNone).weight = s.weight := rfl
@[simp] theorem State.flagsNone_left : (s.flagsNone).left = s.left := rfl
@[simp] theorem State.flagsNone_right : (s.flagsNone).right = s.right := rfl
@[simp] theorem State.flagsNone_inq : (s.flagsNone).inq = s.inq := rfl
@[simp] theorem State.flagsNone_codeLen : (s.flagsNone).codeLen = s.codeLen := rfl
@[simp] theorem State.flagsNone_code : (s.flagsNone).code = s.code := rfl
@[simp] theorem State.flagsNone_inBuf : (s.flagsNone).inBuf = s.inBuf := rfl
@[simp] theorem State.flagsNone_outBuf : (s.flagsNone).outBuf = s.outBuf := rfl
@[simp] theorem State.flagsNone_draws : (s.flagsNone).draws = s.draws := rfl
@[simp] theorem State.flagsNone_resets : (s.flagsNone).resets = s.resets := rfl
@[simp] theorem State.flagsNone_hostProgram : (s.flagsNone).hostProgram = s.hostProgram := rfl
@[simp] theorem State.flagsNone_hostReads : (s.flagsNone).hostReads = s.hostReads := rfl

@[simp] theorem State.outRestart_caps : (s.outRestart).caps = s.caps := rfl
@[simp] theorem State.outRestart_cmd : (s.outRestart).cmd = s.cmd := rfl
@[simp] theorem State.outRestart_phase : (s.outRestart).phase = s.phase := rfl
@[simp] theorem State.outRestart_freqV : (s.outRestart).freqV = s.freqV := rfl
@[simp] theorem State.outRestart_treeV : (s.outRestart).treeV = s.treeV := rfl
@[simp] theorem State.outRestart_codeV : (s.outRestart).codeV = s.codeV := rfl
@[simp] theorem State.outRestart_hdrV : (s.outRestart).hdrV = s.hdrV := rfl
@[simp] theorem State.outRestart_err : (s.outRestart).err = s.err := rfl
@[simp] theorem State.outRestart_detail : (s.outRestart).detail = s.detail := rfl
@[simp] theorem State.outRestart_inLen : (s.outRestart).inLen = s.inLen := rfl
@[simp] theorem State.outRestart_outLen : (s.outRestart).outLen = 0 := rfl
@[simp] theorem State.outRestart_inPos : (s.outRestart).inPos = s.inPos := rfl
@[simp] theorem State.outRestart_nsym : (s.outRestart).nsym = s.nsym := rfl
@[simp] theorem State.outRestart_nint : (s.outRestart).nint = s.nint := rfl
@[simp] theorem State.outRestart_root : (s.outRestart).root = s.root := rfl
@[simp] theorem State.outRestart_pad : (s.outRestart).pad = s.pad := rfl
@[simp] theorem State.outRestart_lbits : (s.outRestart).lbits = s.lbits := rfl
@[simp] theorem State.outRestart_freq : (s.outRestart).freq = s.freq := rfl
@[simp] theorem State.outRestart_weight : (s.outRestart).weight = s.weight := rfl
@[simp] theorem State.outRestart_left : (s.outRestart).left = s.left := rfl
@[simp] theorem State.outRestart_right : (s.outRestart).right = s.right := rfl
@[simp] theorem State.outRestart_inq : (s.outRestart).inq = s.inq := rfl
@[simp] theorem State.outRestart_codeLen : (s.outRestart).codeLen = s.codeLen := rfl
@[simp] theorem State.outRestart_code : (s.outRestart).code = s.code := rfl
@[simp] theorem State.outRestart_inBuf : (s.outRestart).inBuf = s.inBuf := rfl
@[simp] theorem State.outRestart_outBuf : (s.outRestart).outBuf = [] := rfl
@[simp] theorem State.outRestart_draws : (s.outRestart).draws = s.draws + 1 := rfl
@[simp] theorem State.outRestart_resets : (s.outRestart).resets = s.resets := rfl
@[simp] theorem State.outRestart_hostProgram : (s.outRestart).hostProgram = s.hostProgram := rfl
@[simp] theorem State.outRestart_hostReads : (s.outRestart).hostReads = s.hostReads := rfl

@[simp] theorem State.put_caps (v : Byte) : (s.put v).caps = s.caps := rfl
@[simp] theorem State.put_cmd (v : Byte) : (s.put v).cmd = s.cmd := rfl
@[simp] theorem State.put_phase (v : Byte) : (s.put v).phase = s.phase := rfl
@[simp] theorem State.put_freqV (v : Byte) : (s.put v).freqV = s.freqV := rfl
@[simp] theorem State.put_treeV (v : Byte) : (s.put v).treeV = s.treeV := rfl
@[simp] theorem State.put_codeV (v : Byte) : (s.put v).codeV = s.codeV := rfl
@[simp] theorem State.put_hdrV (v : Byte) : (s.put v).hdrV = s.hdrV := rfl
@[simp] theorem State.put_err (v : Byte) : (s.put v).err = s.err := rfl
@[simp] theorem State.put_detail (v : Byte) : (s.put v).detail = s.detail := rfl
@[simp] theorem State.put_inLen (v : Byte) : (s.put v).inLen = s.inLen := rfl
@[simp] theorem State.put_outLen (v : Byte) : (s.put v).outLen = s.outLen + 1 := rfl
@[simp] theorem State.put_inPos (v : Byte) : (s.put v).inPos = s.inPos := rfl
@[simp] theorem State.put_nsym (v : Byte) : (s.put v).nsym = s.nsym := rfl
@[simp] theorem State.put_nint (v : Byte) : (s.put v).nint = s.nint := rfl
@[simp] theorem State.put_root (v : Byte) : (s.put v).root = s.root := rfl
@[simp] theorem State.put_pad (v : Byte) : (s.put v).pad = s.pad := rfl
@[simp] theorem State.put_lbits (v : Byte) : (s.put v).lbits = s.lbits := rfl
@[simp] theorem State.put_freq (v : Byte) : (s.put v).freq = s.freq := rfl
@[simp] theorem State.put_weight (v : Byte) : (s.put v).weight = s.weight := rfl
@[simp] theorem State.put_left (v : Byte) : (s.put v).left = s.left := rfl
@[simp] theorem State.put_right (v : Byte) : (s.put v).right = s.right := rfl
@[simp] theorem State.put_inq (v : Byte) : (s.put v).inq = s.inq := rfl
@[simp] theorem State.put_codeLen (v : Byte) : (s.put v).codeLen = s.codeLen := rfl
@[simp] theorem State.put_code (v : Byte) : (s.put v).code = s.code := rfl
@[simp] theorem State.put_inBuf (v : Byte) : (s.put v).inBuf = s.inBuf := rfl
@[simp] theorem State.put_outBuf (v : Byte) : (s.put v).outBuf = Memory.write s.outBuf s.outLen.toNat v := rfl
@[simp] theorem State.put_draws (v : Byte) : (s.put v).draws = s.draws := rfl
@[simp] theorem State.put_resets (v : Byte) : (s.put v).resets = s.resets := rfl
@[simp] theorem State.put_hostProgram (v : Byte) : (s.put v).hostProgram = s.hostProgram := rfl
@[simp] theorem State.put_hostReads (v : Byte) : (s.put v).hostReads = s.hostReads := rfl

@[simp] theorem State.forgetTables_caps : (s.forgetTables).caps = s.caps := rfl
@[simp] theorem State.forgetTables_cmd : (s.forgetTables).cmd = s.cmd := rfl
@[simp] theorem State.forgetTables_phase : (s.forgetTables).phase = s.phase := rfl
@[simp] theorem State.forgetTables_freqV : (s.forgetTables).freqV = s.freqV := rfl
@[simp] theorem State.forgetTables_treeV : (s.forgetTables).treeV = s.treeV := rfl
@[simp] theorem State.forgetTables_codeV : (s.forgetTables).codeV = s.codeV := rfl
@[simp] theorem State.forgetTables_hdrV : (s.forgetTables).hdrV = s.hdrV := rfl
@[simp] theorem State.forgetTables_err : (s.forgetTables).err = s.err := rfl
@[simp] theorem State.forgetTables_detail : (s.forgetTables).detail = s.detail := rfl
@[simp] theorem State.forgetTables_inLen : (s.forgetTables).inLen = s.inLen := rfl
@[simp] theorem State.forgetTables_outLen : (s.forgetTables).outLen = s.outLen := rfl
@[simp] theorem State.forgetTables_inPos : (s.forgetTables).inPos = s.inPos := rfl
@[simp] theorem State.forgetTables_nsym : (s.forgetTables).nsym = s.nsym := rfl
@[simp] theorem State.forgetTables_nint : (s.forgetTables).nint = s.nint := rfl
@[simp] theorem State.forgetTables_root : (s.forgetTables).root = s.root := rfl
@[simp] theorem State.forgetTables_pad : (s.forgetTables).pad = s.pad := rfl
@[simp] theorem State.forgetTables_lbits : (s.forgetTables).lbits = s.lbits := rfl
@[simp] theorem State.forgetTables_freq : (s.forgetTables).freq = freeFreqTable s.draws := rfl
@[simp] theorem State.forgetTables_weight : (s.forgetTables).weight = freeWeightTable s.draws := rfl
@[simp] theorem State.forgetTables_left : (s.forgetTables).left = freeLeftTable s.draws := rfl
@[simp] theorem State.forgetTables_right : (s.forgetTables).right = freeRightTable s.draws := rfl
@[simp] theorem State.forgetTables_inq : (s.forgetTables).inq = freeInqTable s.draws := rfl
@[simp] theorem State.forgetTables_codeLen : (s.forgetTables).codeLen = freeCodeLenTable s.draws := rfl
@[simp] theorem State.forgetTables_code : (s.forgetTables).code = freeCodeTable s.draws := rfl
@[simp] theorem State.forgetTables_inBuf : (s.forgetTables).inBuf = s.inBuf := rfl
@[simp] theorem State.forgetTables_outBuf : (s.forgetTables).outBuf = s.outBuf := rfl
@[simp] theorem State.forgetTables_draws : (s.forgetTables).draws = s.draws := rfl
@[simp] theorem State.forgetTables_resets : (s.forgetTables).resets = s.resets := rfl
@[simp] theorem State.forgetTables_hostProgram : (s.forgetTables).hostProgram = s.hostProgram := rfl
@[simp] theorem State.forgetTables_hostReads : (s.forgetTables).hostReads = s.hostReads := rfl

@[simp] theorem State.zeroResults_caps : (s.zeroResults).caps = s.caps := rfl
@[simp] theorem State.zeroResults_cmd : (s.zeroResults).cmd = s.cmd := rfl
@[simp] theorem State.zeroResults_phase : (s.zeroResults).phase = s.phase := rfl
@[simp] theorem State.zeroResults_freqV : (s.zeroResults).freqV = s.freqV := rfl
@[simp] theorem State.zeroResults_treeV : (s.zeroResults).treeV = s.treeV := rfl
@[simp] theorem State.zeroResults_codeV : (s.zeroResults).codeV = s.codeV := rfl
@[simp] theorem State.zeroResults_hdrV : (s.zeroResults).hdrV = s.hdrV := rfl
@[simp] theorem State.zeroResults_err : (s.zeroResults).err = s.err := rfl
@[simp] theorem State.zeroResults_detail : (s.zeroResults).detail = s.detail := rfl
@[simp] theorem State.zeroResults_inLen : (s.zeroResults).inLen = s.inLen := rfl
@[simp] theorem State.zeroResults_outLen : (s.zeroResults).outLen = 0 := rfl
@[simp] theorem State.zeroResults_inPos : (s.zeroResults).inPos = 0 := rfl
@[simp] theorem State.zeroResults_nsym : (s.zeroResults).nsym = 0 := rfl
@[simp] theorem State.zeroResults_nint : (s.zeroResults).nint = 0 := rfl
@[simp] theorem State.zeroResults_root : (s.zeroResults).root = 0 := rfl
@[simp] theorem State.zeroResults_pad : (s.zeroResults).pad = 0 := rfl
@[simp] theorem State.zeroResults_lbits : (s.zeroResults).lbits = 0 := rfl
@[simp] theorem State.zeroResults_freq : (s.zeroResults).freq = s.freq := rfl
@[simp] theorem State.zeroResults_weight : (s.zeroResults).weight = s.weight := rfl
@[simp] theorem State.zeroResults_left : (s.zeroResults).left = s.left := rfl
@[simp] theorem State.zeroResults_right : (s.zeroResults).right = s.right := rfl
@[simp] theorem State.zeroResults_inq : (s.zeroResults).inq = s.inq := rfl
@[simp] theorem State.zeroResults_codeLen : (s.zeroResults).codeLen = s.codeLen := rfl
@[simp] theorem State.zeroResults_code : (s.zeroResults).code = s.code := rfl
@[simp] theorem State.zeroResults_inBuf : (s.zeroResults).inBuf = s.inBuf := rfl
@[simp] theorem State.zeroResults_outBuf : (s.zeroResults).outBuf = [] := rfl
@[simp] theorem State.zeroResults_draws : (s.zeroResults).draws = s.draws + 1 := rfl
@[simp] theorem State.zeroResults_resets : (s.zeroResults).resets = s.resets := rfl
@[simp] theorem State.zeroResults_hostProgram : (s.zeroResults).hostProgram = s.hostProgram := rfl
@[simp] theorem State.zeroResults_hostReads : (s.zeroResults).hostReads = s.hostReads := rfl

@[simp] theorem State.raise_caps (e : CmdError) : (s.raise e).caps = s.caps := rfl
@[simp] theorem State.raise_cmd (e : CmdError) : (s.raise e).cmd = s.cmd := rfl
@[simp] theorem State.raise_phase (e : CmdError) : (s.raise e).phase = .error := rfl
@[simp] theorem State.raise_freqV (e : CmdError) : (s.raise e).freqV = false := rfl
@[simp] theorem State.raise_treeV (e : CmdError) : (s.raise e).treeV = false := rfl
@[simp] theorem State.raise_codeV (e : CmdError) : (s.raise e).codeV = false := rfl
@[simp] theorem State.raise_hdrV (e : CmdError) : (s.raise e).hdrV = false := rfl
@[simp] theorem State.raise_err (e : CmdError) : (s.raise e).err = e.cls := rfl
@[simp] theorem State.raise_detail (e : CmdError) : (s.raise e).detail = e.detail := rfl
@[simp] theorem State.raise_inLen (e : CmdError) : (s.raise e).inLen = s.inLen := rfl
@[simp] theorem State.raise_outLen (e : CmdError) : (s.raise e).outLen = 0 := rfl
@[simp] theorem State.raise_inPos (e : CmdError) : (s.raise e).inPos = 0 := rfl
@[simp] theorem State.raise_nsym (e : CmdError) : (s.raise e).nsym = 0 := rfl
@[simp] theorem State.raise_nint (e : CmdError) : (s.raise e).nint = 0 := rfl
@[simp] theorem State.raise_root (e : CmdError) : (s.raise e).root = 0 := rfl
@[simp] theorem State.raise_pad (e : CmdError) : (s.raise e).pad = 0 := rfl
@[simp] theorem State.raise_lbits (e : CmdError) : (s.raise e).lbits = 0 := rfl
@[simp] theorem State.raise_freq (e : CmdError) : (s.raise e).freq = freeFreqTable (s.draws + 1) := rfl
@[simp] theorem State.raise_weight (e : CmdError) : (s.raise e).weight = freeWeightTable (s.draws + 1) := rfl
@[simp] theorem State.raise_left (e : CmdError) : (s.raise e).left = freeLeftTable (s.draws + 1) := rfl
@[simp] theorem State.raise_right (e : CmdError) : (s.raise e).right = freeRightTable (s.draws + 1) := rfl
@[simp] theorem State.raise_inq (e : CmdError) : (s.raise e).inq = freeInqTable (s.draws + 1) := rfl
@[simp] theorem State.raise_codeLen (e : CmdError) : (s.raise e).codeLen = freeCodeLenTable (s.draws + 1) := rfl
@[simp] theorem State.raise_code (e : CmdError) : (s.raise e).code = freeCodeTable (s.draws + 1) := rfl
@[simp] theorem State.raise_inBuf (e : CmdError) : (s.raise e).inBuf = s.inBuf := rfl
@[simp] theorem State.raise_outBuf (e : CmdError) : (s.raise e).outBuf = [] := rfl
@[simp] theorem State.raise_draws (e : CmdError) : (s.raise e).draws = s.draws + 1 := rfl
@[simp] theorem State.raise_resets (e : CmdError) : (s.raise e).resets = s.resets := rfl
@[simp] theorem State.raise_hostProgram (e : CmdError) : (s.raise e).hostProgram = s.hostProgram := rfl
@[simp] theorem State.raise_hostReads (e : CmdError) : (s.raise e).hostReads = s.hostReads := rfl

@[simp] theorem State.clear_caps : (s.clear).caps = s.caps := rfl
@[simp] theorem State.clear_cmd : (s.clear).cmd = s.cmd := rfl
@[simp] theorem State.clear_phase : (s.clear).phase = .idle := rfl
@[simp] theorem State.clear_freqV : (s.clear).freqV = false := rfl
@[simp] theorem State.clear_treeV : (s.clear).treeV = false := rfl
@[simp] theorem State.clear_codeV : (s.clear).codeV = false := rfl
@[simp] theorem State.clear_hdrV : (s.clear).hdrV = false := rfl
@[simp] theorem State.clear_err : (s.clear).err = 0 := rfl
@[simp] theorem State.clear_detail : (s.clear).detail = 0 := rfl
@[simp] theorem State.clear_inLen : (s.clear).inLen = s.inLen := rfl
@[simp] theorem State.clear_outLen : (s.clear).outLen = 0 := rfl
@[simp] theorem State.clear_inPos : (s.clear).inPos = 0 := rfl
@[simp] theorem State.clear_nsym : (s.clear).nsym = 0 := rfl
@[simp] theorem State.clear_nint : (s.clear).nint = 0 := rfl
@[simp] theorem State.clear_root : (s.clear).root = 0 := rfl
@[simp] theorem State.clear_pad : (s.clear).pad = 0 := rfl
@[simp] theorem State.clear_lbits : (s.clear).lbits = 0 := rfl
@[simp] theorem State.clear_freq : (s.clear).freq = s.freq := rfl
@[simp] theorem State.clear_weight : (s.clear).weight = s.weight := rfl
@[simp] theorem State.clear_left : (s.clear).left = s.left := rfl
@[simp] theorem State.clear_right : (s.clear).right = s.right := rfl
@[simp] theorem State.clear_inq : (s.clear).inq = s.inq := rfl
@[simp] theorem State.clear_codeLen : (s.clear).codeLen = s.codeLen := rfl
@[simp] theorem State.clear_code : (s.clear).code = s.code := rfl
@[simp] theorem State.clear_inBuf : (s.clear).inBuf = s.inBuf := rfl
@[simp] theorem State.clear_outBuf : (s.clear).outBuf = [] := rfl
@[simp] theorem State.clear_draws : (s.clear).draws = s.draws + 1 := rfl
@[simp] theorem State.clear_resets : (s.clear).resets = s.resets := rfl
@[simp] theorem State.clear_hostProgram : (s.clear).hostProgram = s.hostProgram := rfl
@[simp] theorem State.clear_hostReads : (s.clear).hostReads = s.hostReads := rfl

@[simp] theorem State.complete_caps : (s.complete).caps = s.caps := rfl
@[simp] theorem State.complete_cmd : (s.complete).cmd = s.cmd := rfl
@[simp] theorem State.complete_phase : (s.complete).phase = .done := rfl
@[simp] theorem State.complete_freqV : (s.complete).freqV = s.freqV := rfl
@[simp] theorem State.complete_treeV : (s.complete).treeV = s.treeV := rfl
@[simp] theorem State.complete_codeV : (s.complete).codeV = s.codeV := rfl
@[simp] theorem State.complete_hdrV : (s.complete).hdrV = s.hdrV := rfl
@[simp] theorem State.complete_err : (s.complete).err = 0 := rfl
@[simp] theorem State.complete_detail : (s.complete).detail = 0 := rfl
@[simp] theorem State.complete_inLen : (s.complete).inLen = s.inLen := rfl
@[simp] theorem State.complete_outLen : (s.complete).outLen = s.outLen := rfl
@[simp] theorem State.complete_inPos : (s.complete).inPos = s.inPos := rfl
@[simp] theorem State.complete_nsym : (s.complete).nsym = s.nsym := rfl
@[simp] theorem State.complete_nint : (s.complete).nint = s.nint := rfl
@[simp] theorem State.complete_root : (s.complete).root = s.root := rfl
@[simp] theorem State.complete_pad : (s.complete).pad = s.pad := rfl
@[simp] theorem State.complete_lbits : (s.complete).lbits = s.lbits := rfl
@[simp] theorem State.complete_freq : (s.complete).freq = s.freq := rfl
@[simp] theorem State.complete_weight : (s.complete).weight = s.weight := rfl
@[simp] theorem State.complete_left : (s.complete).left = s.left := rfl
@[simp] theorem State.complete_right : (s.complete).right = s.right := rfl
@[simp] theorem State.complete_inq : (s.complete).inq = s.inq := rfl
@[simp] theorem State.complete_codeLen : (s.complete).codeLen = s.codeLen := rfl
@[simp] theorem State.complete_code : (s.complete).code = s.code := rfl
@[simp] theorem State.complete_inBuf : (s.complete).inBuf = s.inBuf := rfl
@[simp] theorem State.complete_outBuf : (s.complete).outBuf = s.outBuf := rfl
@[simp] theorem State.complete_draws : (s.complete).draws = s.draws := rfl
@[simp] theorem State.complete_resets : (s.complete).resets = s.resets := rfl
@[simp] theorem State.complete_hostProgram : (s.complete).hostProgram = s.hostProgram := rfl
@[simp] theorem State.complete_hostReads : (s.complete).hostReads = s.hostReads := rfl

@[simp] theorem State.accept_caps (w : Word) : (s.accept w).caps = s.caps := rfl
@[simp] theorem State.accept_cmd (w : Word) : (s.accept w).cmd = w := rfl
@[simp] theorem State.accept_phase (w : Word) : (s.accept w).phase = s.phase := rfl
@[simp] theorem State.accept_freqV (w : Word) : (s.accept w).freqV = s.freqV := rfl
@[simp] theorem State.accept_treeV (w : Word) : (s.accept w).treeV = s.treeV := rfl
@[simp] theorem State.accept_codeV (w : Word) : (s.accept w).codeV = s.codeV := rfl
@[simp] theorem State.accept_hdrV (w : Word) : (s.accept w).hdrV = s.hdrV := rfl
@[simp] theorem State.accept_err (w : Word) : (s.accept w).err = s.err := rfl
@[simp] theorem State.accept_detail (w : Word) : (s.accept w).detail = s.detail := rfl
@[simp] theorem State.accept_inLen (w : Word) : (s.accept w).inLen = s.inLen := rfl
@[simp] theorem State.accept_outLen (w : Word) : (s.accept w).outLen = s.outLen := rfl
@[simp] theorem State.accept_inPos (w : Word) : (s.accept w).inPos = s.inPos := rfl
@[simp] theorem State.accept_nsym (w : Word) : (s.accept w).nsym = s.nsym := rfl
@[simp] theorem State.accept_nint (w : Word) : (s.accept w).nint = s.nint := rfl
@[simp] theorem State.accept_root (w : Word) : (s.accept w).root = s.root := rfl
@[simp] theorem State.accept_pad (w : Word) : (s.accept w).pad = s.pad := rfl
@[simp] theorem State.accept_lbits (w : Word) : (s.accept w).lbits = s.lbits := rfl
@[simp] theorem State.accept_freq (w : Word) : (s.accept w).freq = s.freq := rfl
@[simp] theorem State.accept_weight (w : Word) : (s.accept w).weight = s.weight := rfl
@[simp] theorem State.accept_left (w : Word) : (s.accept w).left = s.left := rfl
@[simp] theorem State.accept_right (w : Word) : (s.accept w).right = s.right := rfl
@[simp] theorem State.accept_inq (w : Word) : (s.accept w).inq = s.inq := rfl
@[simp] theorem State.accept_codeLen (w : Word) : (s.accept w).codeLen = s.codeLen := rfl
@[simp] theorem State.accept_code (w : Word) : (s.accept w).code = s.code := rfl
@[simp] theorem State.accept_inBuf (w : Word) : (s.accept w).inBuf = s.inBuf := rfl
@[simp] theorem State.accept_outBuf (w : Word) : (s.accept w).outBuf = s.outBuf := rfl
@[simp] theorem State.accept_draws (w : Word) : (s.accept w).draws = s.draws := rfl
@[simp] theorem State.accept_resets (w : Word) : (s.accept w).resets = s.resets := rfl
@[simp] theorem State.accept_hostProgram (w : Word) : (s.accept w).hostProgram = s.hostProgram := rfl
@[simp] theorem State.accept_hostReads (w : Word) : (s.accept w).hostReads = s.hostReads := rfl

@[simp] theorem State.withFreq_caps (t : Vector (BitVec 32) 256) : (s.withFreq t).caps = s.caps := rfl
@[simp] theorem State.withFreq_cmd (t : Vector (BitVec 32) 256) : (s.withFreq t).cmd = s.cmd := rfl
@[simp] theorem State.withFreq_phase (t : Vector (BitVec 32) 256) : (s.withFreq t).phase = s.phase := rfl
@[simp] theorem State.withFreq_freqV (t : Vector (BitVec 32) 256) : (s.withFreq t).freqV = s.freqV := rfl
@[simp] theorem State.withFreq_treeV (t : Vector (BitVec 32) 256) : (s.withFreq t).treeV = s.treeV := rfl
@[simp] theorem State.withFreq_codeV (t : Vector (BitVec 32) 256) : (s.withFreq t).codeV = s.codeV := rfl
@[simp] theorem State.withFreq_hdrV (t : Vector (BitVec 32) 256) : (s.withFreq t).hdrV = s.hdrV := rfl
@[simp] theorem State.withFreq_err (t : Vector (BitVec 32) 256) : (s.withFreq t).err = s.err := rfl
@[simp] theorem State.withFreq_detail (t : Vector (BitVec 32) 256) : (s.withFreq t).detail = s.detail := rfl
@[simp] theorem State.withFreq_inLen (t : Vector (BitVec 32) 256) : (s.withFreq t).inLen = s.inLen := rfl
@[simp] theorem State.withFreq_outLen (t : Vector (BitVec 32) 256) : (s.withFreq t).outLen = s.outLen := rfl
@[simp] theorem State.withFreq_inPos (t : Vector (BitVec 32) 256) : (s.withFreq t).inPos = s.inPos := rfl
@[simp] theorem State.withFreq_nsym (t : Vector (BitVec 32) 256) : (s.withFreq t).nsym = nsymOf t := rfl
@[simp] theorem State.withFreq_nint (t : Vector (BitVec 32) 256) : (s.withFreq t).nint = s.nint := rfl
@[simp] theorem State.withFreq_root (t : Vector (BitVec 32) 256) : (s.withFreq t).root = s.root := rfl
@[simp] theorem State.withFreq_pad (t : Vector (BitVec 32) 256) : (s.withFreq t).pad = s.pad := rfl
@[simp] theorem State.withFreq_lbits (t : Vector (BitVec 32) 256) : (s.withFreq t).lbits = s.lbits := rfl
@[simp] theorem State.withFreq_freq (t : Vector (BitVec 32) 256) : (s.withFreq t).freq = t := rfl
@[simp] theorem State.withFreq_weight (t : Vector (BitVec 32) 256) : (s.withFreq t).weight = s.weight := rfl
@[simp] theorem State.withFreq_left (t : Vector (BitVec 32) 256) : (s.withFreq t).left = s.left := rfl
@[simp] theorem State.withFreq_right (t : Vector (BitVec 32) 256) : (s.withFreq t).right = s.right := rfl
@[simp] theorem State.withFreq_inq (t : Vector (BitVec 32) 256) : (s.withFreq t).inq = s.inq := rfl
@[simp] theorem State.withFreq_codeLen (t : Vector (BitVec 32) 256) : (s.withFreq t).codeLen = s.codeLen := rfl
@[simp] theorem State.withFreq_code (t : Vector (BitVec 32) 256) : (s.withFreq t).code = s.code := rfl
@[simp] theorem State.withFreq_inBuf (t : Vector (BitVec 32) 256) : (s.withFreq t).inBuf = s.inBuf := rfl
@[simp] theorem State.withFreq_outBuf (t : Vector (BitVec 32) 256) : (s.withFreq t).outBuf = s.outBuf := rfl
@[simp] theorem State.withFreq_draws (t : Vector (BitVec 32) 256) : (s.withFreq t).draws = s.draws := rfl
@[simp] theorem State.withFreq_resets (t : Vector (BitVec 32) 256) : (s.withFreq t).resets = s.resets := rfl
@[simp] theorem State.withFreq_hostProgram (t : Vector (BitVec 32) 256) : (s.withFreq t).hostProgram = s.hostProgram := rfl
@[simp] theorem State.withFreq_hostReads (t : Vector (BitVec 32) 256) : (s.withFreq t).hostReads = s.hostReads := rfl

@[simp] theorem State.enqueue_caps (id : NodeId) : (s.enqueue id).caps = s.caps := rfl
@[simp] theorem State.enqueue_cmd (id : NodeId) : (s.enqueue id).cmd = s.cmd := rfl
@[simp] theorem State.enqueue_phase (id : NodeId) : (s.enqueue id).phase = s.phase := rfl
@[simp] theorem State.enqueue_freqV (id : NodeId) : (s.enqueue id).freqV = s.freqV := rfl
@[simp] theorem State.enqueue_treeV (id : NodeId) : (s.enqueue id).treeV = s.treeV := rfl
@[simp] theorem State.enqueue_codeV (id : NodeId) : (s.enqueue id).codeV = s.codeV := rfl
@[simp] theorem State.enqueue_hdrV (id : NodeId) : (s.enqueue id).hdrV = s.hdrV := rfl
@[simp] theorem State.enqueue_err (id : NodeId) : (s.enqueue id).err = s.err := rfl
@[simp] theorem State.enqueue_detail (id : NodeId) : (s.enqueue id).detail = s.detail := rfl
@[simp] theorem State.enqueue_inLen (id : NodeId) : (s.enqueue id).inLen = s.inLen := rfl
@[simp] theorem State.enqueue_outLen (id : NodeId) : (s.enqueue id).outLen = s.outLen := rfl
@[simp] theorem State.enqueue_inPos (id : NodeId) : (s.enqueue id).inPos = s.inPos := rfl
@[simp] theorem State.enqueue_nsym (id : NodeId) : (s.enqueue id).nsym = s.nsym := rfl
@[simp] theorem State.enqueue_nint (id : NodeId) : (s.enqueue id).nint = s.nint := rfl
@[simp] theorem State.enqueue_root (id : NodeId) : (s.enqueue id).root = s.root := rfl
@[simp] theorem State.enqueue_pad (id : NodeId) : (s.enqueue id).pad = s.pad := rfl
@[simp] theorem State.enqueue_lbits (id : NodeId) : (s.enqueue id).lbits = s.lbits := rfl
@[simp] theorem State.enqueue_freq (id : NodeId) : (s.enqueue id).freq = s.freq := rfl
@[simp] theorem State.enqueue_weight (id : NodeId) : (s.enqueue id).weight = s.weight := rfl
@[simp] theorem State.enqueue_left (id : NodeId) : (s.enqueue id).left = s.left := rfl
@[simp] theorem State.enqueue_right (id : NodeId) : (s.enqueue id).right = s.right := rfl
@[simp] theorem State.enqueue_inq (id : NodeId) : (s.enqueue id).inq = tset s.inq id.toNat true := rfl
@[simp] theorem State.enqueue_codeLen (id : NodeId) : (s.enqueue id).codeLen = s.codeLen := rfl
@[simp] theorem State.enqueue_code (id : NodeId) : (s.enqueue id).code = s.code := rfl
@[simp] theorem State.enqueue_inBuf (id : NodeId) : (s.enqueue id).inBuf = s.inBuf := rfl
@[simp] theorem State.enqueue_outBuf (id : NodeId) : (s.enqueue id).outBuf = s.outBuf := rfl
@[simp] theorem State.enqueue_draws (id : NodeId) : (s.enqueue id).draws = s.draws := rfl
@[simp] theorem State.enqueue_resets (id : NodeId) : (s.enqueue id).resets = s.resets := rfl
@[simp] theorem State.enqueue_hostProgram (id : NodeId) : (s.enqueue id).hostProgram = s.hostProgram := rfl
@[simp] theorem State.enqueue_hostReads (id : NodeId) : (s.enqueue id).hostReads = s.hostReads := rfl

@[simp] theorem State.join_caps (a b : NodeId) : (s.join a b).caps = s.caps := rfl
@[simp] theorem State.join_cmd (a b : NodeId) : (s.join a b).cmd = s.cmd := rfl
@[simp] theorem State.join_phase (a b : NodeId) : (s.join a b).phase = s.phase := rfl
@[simp] theorem State.join_freqV (a b : NodeId) : (s.join a b).freqV = s.freqV := rfl
@[simp] theorem State.join_treeV (a b : NodeId) : (s.join a b).treeV = s.treeV := rfl
@[simp] theorem State.join_codeV (a b : NodeId) : (s.join a b).codeV = s.codeV := rfl
@[simp] theorem State.join_hdrV (a b : NodeId) : (s.join a b).hdrV = s.hdrV := rfl
@[simp] theorem State.join_err (a b : NodeId) : (s.join a b).err = s.err := rfl
@[simp] theorem State.join_detail (a b : NodeId) : (s.join a b).detail = s.detail := rfl
@[simp] theorem State.join_inLen (a b : NodeId) : (s.join a b).inLen = s.inLen := rfl
@[simp] theorem State.join_outLen (a b : NodeId) : (s.join a b).outLen = s.outLen := rfl
@[simp] theorem State.join_inPos (a b : NodeId) : (s.join a b).inPos = s.inPos := rfl
@[simp] theorem State.join_nsym (a b : NodeId) : (s.join a b).nsym = s.nsym := rfl
@[simp] theorem State.join_nint (a b : NodeId) : (s.join a b).nint = s.nint + 1 := rfl
@[simp] theorem State.join_root (a b : NodeId) : (s.join a b).root = s.root := rfl
@[simp] theorem State.join_pad (a b : NodeId) : (s.join a b).pad = s.pad := rfl
@[simp] theorem State.join_lbits (a b : NodeId) : (s.join a b).lbits = s.lbits := rfl
@[simp] theorem State.join_freq (a b : NodeId) : (s.join a b).freq = s.freq := rfl
@[simp] theorem State.join_weight (a b : NodeId) : (s.join a b).weight = tset s.weight s.nextNode.toNat (weightAt s.weight a + weightAt s.weight b) := rfl
@[simp] theorem State.join_left (a b : NodeId) : (s.join a b).left = tset s.left s.nint.toNat a := rfl
@[simp] theorem State.join_right (a b : NodeId) : (s.join a b).right = tset s.right s.nint.toNat b := rfl
@[simp] theorem State.join_inq (a b : NodeId) : (s.join a b).inq = tset s.inq s.nextNode.toNat true := rfl
@[simp] theorem State.join_codeLen (a b : NodeId) : (s.join a b).codeLen = s.codeLen := rfl
@[simp] theorem State.join_code (a b : NodeId) : (s.join a b).code = s.code := rfl
@[simp] theorem State.join_inBuf (a b : NodeId) : (s.join a b).inBuf = s.inBuf := rfl
@[simp] theorem State.join_outBuf (a b : NodeId) : (s.join a b).outBuf = s.outBuf := rfl
@[simp] theorem State.join_draws (a b : NodeId) : (s.join a b).draws = s.draws := rfl
@[simp] theorem State.join_resets (a b : NodeId) : (s.join a b).resets = s.resets := rfl
@[simp] theorem State.join_hostProgram (a b : NodeId) : (s.join a b).hostProgram = s.hostProgram := rfl
@[simp] theorem State.join_hostReads (a b : NodeId) : (s.join a b).hostReads = s.hostReads := rfl

@[simp] theorem State.noCodes_caps : (s.noCodes).caps = s.caps := rfl
@[simp] theorem State.noCodes_cmd : (s.noCodes).cmd = s.cmd := rfl
@[simp] theorem State.noCodes_phase : (s.noCodes).phase = s.phase := rfl
@[simp] theorem State.noCodes_freqV : (s.noCodes).freqV = s.freqV := rfl
@[simp] theorem State.noCodes_treeV : (s.noCodes).treeV = s.treeV := rfl
@[simp] theorem State.noCodes_codeV : (s.noCodes).codeV = s.codeV := rfl
@[simp] theorem State.noCodes_hdrV : (s.noCodes).hdrV = s.hdrV := rfl
@[simp] theorem State.noCodes_err : (s.noCodes).err = s.err := rfl
@[simp] theorem State.noCodes_detail : (s.noCodes).detail = s.detail := rfl
@[simp] theorem State.noCodes_inLen : (s.noCodes).inLen = s.inLen := rfl
@[simp] theorem State.noCodes_outLen : (s.noCodes).outLen = s.outLen := rfl
@[simp] theorem State.noCodes_inPos : (s.noCodes).inPos = s.inPos := rfl
@[simp] theorem State.noCodes_nsym : (s.noCodes).nsym = s.nsym := rfl
@[simp] theorem State.noCodes_nint : (s.noCodes).nint = s.nint := rfl
@[simp] theorem State.noCodes_root : (s.noCodes).root = s.root := rfl
@[simp] theorem State.noCodes_pad : (s.noCodes).pad = s.pad := rfl
@[simp] theorem State.noCodes_lbits : (s.noCodes).lbits = s.lbits := rfl
@[simp] theorem State.noCodes_freq : (s.noCodes).freq = s.freq := rfl
@[simp] theorem State.noCodes_weight : (s.noCodes).weight = s.weight := rfl
@[simp] theorem State.noCodes_left : (s.noCodes).left = s.left := rfl
@[simp] theorem State.noCodes_right : (s.noCodes).right = s.right := rfl
@[simp] theorem State.noCodes_inq : (s.noCodes).inq = s.inq := rfl
@[simp] theorem State.noCodes_codeLen : (s.noCodes).codeLen = Vector.replicate 256 0 := rfl
@[simp] theorem State.noCodes_code : (s.noCodes).code = Vector.replicate 256 [] := rfl
@[simp] theorem State.noCodes_inBuf : (s.noCodes).inBuf = s.inBuf := rfl
@[simp] theorem State.noCodes_outBuf : (s.noCodes).outBuf = s.outBuf := rfl
@[simp] theorem State.noCodes_draws : (s.noCodes).draws = s.draws := rfl
@[simp] theorem State.noCodes_resets : (s.noCodes).resets = s.resets := rfl
@[simp] theorem State.noCodes_hostProgram : (s.noCodes).hostProgram = s.hostProgram := rfl
@[simp] theorem State.noCodes_hostReads : (s.noCodes).hostReads = s.hostReads := rfl

@[simp] theorem State.setCode_caps (id : NodeId) (p : BitString) : (s.setCode id p).caps = s.caps := rfl
@[simp] theorem State.setCode_cmd (id : NodeId) (p : BitString) : (s.setCode id p).cmd = s.cmd := rfl
@[simp] theorem State.setCode_phase (id : NodeId) (p : BitString) : (s.setCode id p).phase = s.phase := rfl
@[simp] theorem State.setCode_freqV (id : NodeId) (p : BitString) : (s.setCode id p).freqV = s.freqV := rfl
@[simp] theorem State.setCode_treeV (id : NodeId) (p : BitString) : (s.setCode id p).treeV = s.treeV := rfl
@[simp] theorem State.setCode_codeV (id : NodeId) (p : BitString) : (s.setCode id p).codeV = s.codeV := rfl
@[simp] theorem State.setCode_hdrV (id : NodeId) (p : BitString) : (s.setCode id p).hdrV = s.hdrV := rfl
@[simp] theorem State.setCode_err (id : NodeId) (p : BitString) : (s.setCode id p).err = s.err := rfl
@[simp] theorem State.setCode_detail (id : NodeId) (p : BitString) : (s.setCode id p).detail = s.detail := rfl
@[simp] theorem State.setCode_inLen (id : NodeId) (p : BitString) : (s.setCode id p).inLen = s.inLen := rfl
@[simp] theorem State.setCode_outLen (id : NodeId) (p : BitString) : (s.setCode id p).outLen = s.outLen := rfl
@[simp] theorem State.setCode_inPos (id : NodeId) (p : BitString) : (s.setCode id p).inPos = s.inPos := rfl
@[simp] theorem State.setCode_nsym (id : NodeId) (p : BitString) : (s.setCode id p).nsym = s.nsym := rfl
@[simp] theorem State.setCode_nint (id : NodeId) (p : BitString) : (s.setCode id p).nint = s.nint := rfl
@[simp] theorem State.setCode_root (id : NodeId) (p : BitString) : (s.setCode id p).root = s.root := rfl
@[simp] theorem State.setCode_pad (id : NodeId) (p : BitString) : (s.setCode id p).pad = s.pad := rfl
@[simp] theorem State.setCode_lbits (id : NodeId) (p : BitString) : (s.setCode id p).lbits = s.lbits := rfl
@[simp] theorem State.setCode_freq (id : NodeId) (p : BitString) : (s.setCode id p).freq = s.freq := rfl
@[simp] theorem State.setCode_weight (id : NodeId) (p : BitString) : (s.setCode id p).weight = s.weight := rfl
@[simp] theorem State.setCode_left (id : NodeId) (p : BitString) : (s.setCode id p).left = s.left := rfl
@[simp] theorem State.setCode_right (id : NodeId) (p : BitString) : (s.setCode id p).right = s.right := rfl
@[simp] theorem State.setCode_inq (id : NodeId) (p : BitString) : (s.setCode id p).inq = s.inq := rfl
@[simp] theorem State.setCode_codeLen (id : NodeId) (p : BitString) : (s.setCode id p).codeLen = tset s.codeLen id.toNat (BitVec.ofNat 8 p.length) := rfl
@[simp] theorem State.setCode_code (id : NodeId) (p : BitString) : (s.setCode id p).code = tset s.code id.toNat p := rfl
@[simp] theorem State.setCode_inBuf (id : NodeId) (p : BitString) : (s.setCode id p).inBuf = s.inBuf := rfl
@[simp] theorem State.setCode_outBuf (id : NodeId) (p : BitString) : (s.setCode id p).outBuf = s.outBuf := rfl
@[simp] theorem State.setCode_draws (id : NodeId) (p : BitString) : (s.setCode id p).draws = s.draws := rfl
@[simp] theorem State.setCode_resets (id : NodeId) (p : BitString) : (s.setCode id p).resets = s.resets := rfl
@[simp] theorem State.setCode_hostProgram (id : NodeId) (p : BitString) : (s.setCode id p).hostProgram = s.hostProgram := rfl
@[simp] theorem State.setCode_hostReads (id : NodeId) (p : BitString) : (s.setCode id p).hostReads = s.hostReads := rfl

@[simp] theorem State.withLbits_caps (n : Nat) : (s.withLbits n).caps = s.caps := rfl
@[simp] theorem State.withLbits_cmd (n : Nat) : (s.withLbits n).cmd = s.cmd := rfl
@[simp] theorem State.withLbits_phase (n : Nat) : (s.withLbits n).phase = s.phase := rfl
@[simp] theorem State.withLbits_freqV (n : Nat) : (s.withLbits n).freqV = s.freqV := rfl
@[simp] theorem State.withLbits_treeV (n : Nat) : (s.withLbits n).treeV = s.treeV := rfl
@[simp] theorem State.withLbits_codeV (n : Nat) : (s.withLbits n).codeV = s.codeV := rfl
@[simp] theorem State.withLbits_hdrV (n : Nat) : (s.withLbits n).hdrV = s.hdrV := rfl
@[simp] theorem State.withLbits_err (n : Nat) : (s.withLbits n).err = s.err := rfl
@[simp] theorem State.withLbits_detail (n : Nat) : (s.withLbits n).detail = s.detail := rfl
@[simp] theorem State.withLbits_inLen (n : Nat) : (s.withLbits n).inLen = s.inLen := rfl
@[simp] theorem State.withLbits_outLen (n : Nat) : (s.withLbits n).outLen = s.outLen := rfl
@[simp] theorem State.withLbits_inPos (n : Nat) : (s.withLbits n).inPos = s.inPos := rfl
@[simp] theorem State.withLbits_nsym (n : Nat) : (s.withLbits n).nsym = s.nsym := rfl
@[simp] theorem State.withLbits_nint (n : Nat) : (s.withLbits n).nint = s.nint := rfl
@[simp] theorem State.withLbits_root (n : Nat) : (s.withLbits n).root = s.root := rfl
@[simp] theorem State.withLbits_pad (n : Nat) : (s.withLbits n).pad = s.pad := rfl
@[simp] theorem State.withLbits_lbits (n : Nat) : (s.withLbits n).lbits = BitVec.ofNat 48 n := rfl
@[simp] theorem State.withLbits_freq (n : Nat) : (s.withLbits n).freq = s.freq := rfl
@[simp] theorem State.withLbits_weight (n : Nat) : (s.withLbits n).weight = s.weight := rfl
@[simp] theorem State.withLbits_left (n : Nat) : (s.withLbits n).left = s.left := rfl
@[simp] theorem State.withLbits_right (n : Nat) : (s.withLbits n).right = s.right := rfl
@[simp] theorem State.withLbits_inq (n : Nat) : (s.withLbits n).inq = s.inq := rfl
@[simp] theorem State.withLbits_codeLen (n : Nat) : (s.withLbits n).codeLen = s.codeLen := rfl
@[simp] theorem State.withLbits_code (n : Nat) : (s.withLbits n).code = s.code := rfl
@[simp] theorem State.withLbits_inBuf (n : Nat) : (s.withLbits n).inBuf = s.inBuf := rfl
@[simp] theorem State.withLbits_outBuf (n : Nat) : (s.withLbits n).outBuf = s.outBuf := rfl
@[simp] theorem State.withLbits_draws (n : Nat) : (s.withLbits n).draws = s.draws := rfl
@[simp] theorem State.withLbits_resets (n : Nat) : (s.withLbits n).resets = s.resets := rfl
@[simp] theorem State.withLbits_hostProgram (n : Nat) : (s.withLbits n).hostProgram = s.hostProgram := rfl
@[simp] theorem State.withLbits_hostReads (n : Nat) : (s.withLbits n).hostReads = s.hostReads := rfl

@[simp] theorem State.withPad_caps (v : BitVec 3) : (s.withPad v).caps = s.caps := rfl
@[simp] theorem State.withPad_cmd (v : BitVec 3) : (s.withPad v).cmd = s.cmd := rfl
@[simp] theorem State.withPad_phase (v : BitVec 3) : (s.withPad v).phase = s.phase := rfl
@[simp] theorem State.withPad_freqV (v : BitVec 3) : (s.withPad v).freqV = s.freqV := rfl
@[simp] theorem State.withPad_treeV (v : BitVec 3) : (s.withPad v).treeV = s.treeV := rfl
@[simp] theorem State.withPad_codeV (v : BitVec 3) : (s.withPad v).codeV = s.codeV := rfl
@[simp] theorem State.withPad_hdrV (v : BitVec 3) : (s.withPad v).hdrV = s.hdrV := rfl
@[simp] theorem State.withPad_err (v : BitVec 3) : (s.withPad v).err = s.err := rfl
@[simp] theorem State.withPad_detail (v : BitVec 3) : (s.withPad v).detail = s.detail := rfl
@[simp] theorem State.withPad_inLen (v : BitVec 3) : (s.withPad v).inLen = s.inLen := rfl
@[simp] theorem State.withPad_outLen (v : BitVec 3) : (s.withPad v).outLen = s.outLen := rfl
@[simp] theorem State.withPad_inPos (v : BitVec 3) : (s.withPad v).inPos = s.inPos := rfl
@[simp] theorem State.withPad_nsym (v : BitVec 3) : (s.withPad v).nsym = s.nsym := rfl
@[simp] theorem State.withPad_nint (v : BitVec 3) : (s.withPad v).nint = s.nint := rfl
@[simp] theorem State.withPad_root (v : BitVec 3) : (s.withPad v).root = s.root := rfl
@[simp] theorem State.withPad_pad (v : BitVec 3) : (s.withPad v).pad = v := rfl
@[simp] theorem State.withPad_lbits (v : BitVec 3) : (s.withPad v).lbits = s.lbits := rfl
@[simp] theorem State.withPad_freq (v : BitVec 3) : (s.withPad v).freq = s.freq := rfl
@[simp] theorem State.withPad_weight (v : BitVec 3) : (s.withPad v).weight = s.weight := rfl
@[simp] theorem State.withPad_left (v : BitVec 3) : (s.withPad v).left = s.left := rfl
@[simp] theorem State.withPad_right (v : BitVec 3) : (s.withPad v).right = s.right := rfl
@[simp] theorem State.withPad_inq (v : BitVec 3) : (s.withPad v).inq = s.inq := rfl
@[simp] theorem State.withPad_codeLen (v : BitVec 3) : (s.withPad v).codeLen = s.codeLen := rfl
@[simp] theorem State.withPad_code (v : BitVec 3) : (s.withPad v).code = s.code := rfl
@[simp] theorem State.withPad_inBuf (v : BitVec 3) : (s.withPad v).inBuf = s.inBuf := rfl
@[simp] theorem State.withPad_outBuf (v : BitVec 3) : (s.withPad v).outBuf = s.outBuf := rfl
@[simp] theorem State.withPad_draws (v : BitVec 3) : (s.withPad v).draws = s.draws := rfl
@[simp] theorem State.withPad_resets (v : BitVec 3) : (s.withPad v).resets = s.resets := rfl
@[simp] theorem State.withPad_hostProgram (v : BitVec 3) : (s.withPad v).hostProgram = s.hostProgram := rfl
@[simp] theorem State.withPad_hostReads (v : BitVec 3) : (s.withPad v).hostReads = s.hostReads := rfl

@[simp] theorem State.withHeader_caps (t : Vector (BitVec 32) 256) (n : Nat) (pad : BitVec 3) (pos : Nat) : (s.withHeader t n pad pos).caps = s.caps := rfl
@[simp] theorem State.withHeader_cmd (t : Vector (BitVec 32) 256) (n : Nat) (pad : BitVec 3) (pos : Nat) : (s.withHeader t n pad pos).cmd = s.cmd := rfl
@[simp] theorem State.withHeader_phase (t : Vector (BitVec 32) 256) (n : Nat) (pad : BitVec 3) (pos : Nat) : (s.withHeader t n pad pos).phase = s.phase := rfl
@[simp] theorem State.withHeader_freqV (t : Vector (BitVec 32) 256) (n : Nat) (pad : BitVec 3) (pos : Nat) : (s.withHeader t n pad pos).freqV = s.freqV := rfl
@[simp] theorem State.withHeader_treeV (t : Vector (BitVec 32) 256) (n : Nat) (pad : BitVec 3) (pos : Nat) : (s.withHeader t n pad pos).treeV = s.treeV := rfl
@[simp] theorem State.withHeader_codeV (t : Vector (BitVec 32) 256) (n : Nat) (pad : BitVec 3) (pos : Nat) : (s.withHeader t n pad pos).codeV = s.codeV := rfl
@[simp] theorem State.withHeader_hdrV (t : Vector (BitVec 32) 256) (n : Nat) (pad : BitVec 3) (pos : Nat) : (s.withHeader t n pad pos).hdrV = s.hdrV := rfl
@[simp] theorem State.withHeader_err (t : Vector (BitVec 32) 256) (n : Nat) (pad : BitVec 3) (pos : Nat) : (s.withHeader t n pad pos).err = s.err := rfl
@[simp] theorem State.withHeader_detail (t : Vector (BitVec 32) 256) (n : Nat) (pad : BitVec 3) (pos : Nat) : (s.withHeader t n pad pos).detail = s.detail := rfl
@[simp] theorem State.withHeader_inLen (t : Vector (BitVec 32) 256) (n : Nat) (pad : BitVec 3) (pos : Nat) : (s.withHeader t n pad pos).inLen = s.inLen := rfl
@[simp] theorem State.withHeader_outLen (t : Vector (BitVec 32) 256) (n : Nat) (pad : BitVec 3) (pos : Nat) : (s.withHeader t n pad pos).outLen = s.outLen := rfl
@[simp] theorem State.withHeader_inPos (t : Vector (BitVec 32) 256) (n : Nat) (pad : BitVec 3) (pos : Nat) : (s.withHeader t n pad pos).inPos = BitVec.ofNat 32 pos := rfl
@[simp] theorem State.withHeader_nsym (t : Vector (BitVec 32) 256) (n : Nat) (pad : BitVec 3) (pos : Nat) : (s.withHeader t n pad pos).nsym = BitVec.ofNat 9 n := rfl
@[simp] theorem State.withHeader_nint (t : Vector (BitVec 32) 256) (n : Nat) (pad : BitVec 3) (pos : Nat) : (s.withHeader t n pad pos).nint = s.nint := rfl
@[simp] theorem State.withHeader_root (t : Vector (BitVec 32) 256) (n : Nat) (pad : BitVec 3) (pos : Nat) : (s.withHeader t n pad pos).root = s.root := rfl
@[simp] theorem State.withHeader_pad (t : Vector (BitVec 32) 256) (n : Nat) (pad : BitVec 3) (pos : Nat) : (s.withHeader t n pad pos).pad = pad := rfl
@[simp] theorem State.withHeader_lbits (t : Vector (BitVec 32) 256) (n : Nat) (pad : BitVec 3) (pos : Nat) : (s.withHeader t n pad pos).lbits = s.lbits := rfl
@[simp] theorem State.withHeader_freq (t : Vector (BitVec 32) 256) (n : Nat) (pad : BitVec 3) (pos : Nat) : (s.withHeader t n pad pos).freq = t := rfl
@[simp] theorem State.withHeader_weight (t : Vector (BitVec 32) 256) (n : Nat) (pad : BitVec 3) (pos : Nat) : (s.withHeader t n pad pos).weight = s.weight := rfl
@[simp] theorem State.withHeader_left (t : Vector (BitVec 32) 256) (n : Nat) (pad : BitVec 3) (pos : Nat) : (s.withHeader t n pad pos).left = s.left := rfl
@[simp] theorem State.withHeader_right (t : Vector (BitVec 32) 256) (n : Nat) (pad : BitVec 3) (pos : Nat) : (s.withHeader t n pad pos).right = s.right := rfl
@[simp] theorem State.withHeader_inq (t : Vector (BitVec 32) 256) (n : Nat) (pad : BitVec 3) (pos : Nat) : (s.withHeader t n pad pos).inq = s.inq := rfl
@[simp] theorem State.withHeader_codeLen (t : Vector (BitVec 32) 256) (n : Nat) (pad : BitVec 3) (pos : Nat) : (s.withHeader t n pad pos).codeLen = s.codeLen := rfl
@[simp] theorem State.withHeader_code (t : Vector (BitVec 32) 256) (n : Nat) (pad : BitVec 3) (pos : Nat) : (s.withHeader t n pad pos).code = s.code := rfl
@[simp] theorem State.withHeader_inBuf (t : Vector (BitVec 32) 256) (n : Nat) (pad : BitVec 3) (pos : Nat) : (s.withHeader t n pad pos).inBuf = s.inBuf := rfl
@[simp] theorem State.withHeader_outBuf (t : Vector (BitVec 32) 256) (n : Nat) (pad : BitVec 3) (pos : Nat) : (s.withHeader t n pad pos).outBuf = s.outBuf := rfl
@[simp] theorem State.withHeader_draws (t : Vector (BitVec 32) 256) (n : Nat) (pad : BitVec 3) (pos : Nat) : (s.withHeader t n pad pos).draws = s.draws := rfl
@[simp] theorem State.withHeader_resets (t : Vector (BitVec 32) 256) (n : Nat) (pad : BitVec 3) (pos : Nat) : (s.withHeader t n pad pos).resets = s.resets := rfl
@[simp] theorem State.withHeader_hostProgram (t : Vector (BitVec 32) 256) (n : Nat) (pad : BitVec 3) (pos : Nat) : (s.withHeader t n pad pos).hostProgram = s.hostProgram := rfl
@[simp] theorem State.withHeader_hostReads (t : Vector (BitVec 32) 256) (n : Nat) (pad : BitVec 3) (pos : Nat) : (s.withHeader t n pad pos).hostReads = s.hostReads := rfl

@[simp] theorem State.writeIn_caps (i : Nat) (b : Byte) : (s.writeIn i b).caps = s.caps := rfl
@[simp] theorem State.writeIn_cmd (i : Nat) (b : Byte) : (s.writeIn i b).cmd = s.cmd := rfl
@[simp] theorem State.writeIn_phase (i : Nat) (b : Byte) : (s.writeIn i b).phase = s.phase := rfl
@[simp] theorem State.writeIn_freqV (i : Nat) (b : Byte) : (s.writeIn i b).freqV = s.freqV := rfl
@[simp] theorem State.writeIn_treeV (i : Nat) (b : Byte) : (s.writeIn i b).treeV = s.treeV := rfl
@[simp] theorem State.writeIn_codeV (i : Nat) (b : Byte) : (s.writeIn i b).codeV = s.codeV := rfl
@[simp] theorem State.writeIn_hdrV (i : Nat) (b : Byte) : (s.writeIn i b).hdrV = s.hdrV := rfl
@[simp] theorem State.writeIn_err (i : Nat) (b : Byte) : (s.writeIn i b).err = s.err := rfl
@[simp] theorem State.writeIn_detail (i : Nat) (b : Byte) : (s.writeIn i b).detail = s.detail := rfl
@[simp] theorem State.writeIn_inLen (i : Nat) (b : Byte) : (s.writeIn i b).inLen = s.inLen := rfl
@[simp] theorem State.writeIn_outLen (i : Nat) (b : Byte) : (s.writeIn i b).outLen = s.outLen := rfl
@[simp] theorem State.writeIn_inPos (i : Nat) (b : Byte) : (s.writeIn i b).inPos = s.inPos := rfl
@[simp] theorem State.writeIn_nsym (i : Nat) (b : Byte) : (s.writeIn i b).nsym = s.nsym := rfl
@[simp] theorem State.writeIn_nint (i : Nat) (b : Byte) : (s.writeIn i b).nint = s.nint := rfl
@[simp] theorem State.writeIn_root (i : Nat) (b : Byte) : (s.writeIn i b).root = s.root := rfl
@[simp] theorem State.writeIn_pad (i : Nat) (b : Byte) : (s.writeIn i b).pad = s.pad := rfl
@[simp] theorem State.writeIn_lbits (i : Nat) (b : Byte) : (s.writeIn i b).lbits = s.lbits := rfl
@[simp] theorem State.writeIn_freq (i : Nat) (b : Byte) : (s.writeIn i b).freq = s.freq := rfl
@[simp] theorem State.writeIn_weight (i : Nat) (b : Byte) : (s.writeIn i b).weight = s.weight := rfl
@[simp] theorem State.writeIn_left (i : Nat) (b : Byte) : (s.writeIn i b).left = s.left := rfl
@[simp] theorem State.writeIn_right (i : Nat) (b : Byte) : (s.writeIn i b).right = s.right := rfl
@[simp] theorem State.writeIn_inq (i : Nat) (b : Byte) : (s.writeIn i b).inq = s.inq := rfl
@[simp] theorem State.writeIn_codeLen (i : Nat) (b : Byte) : (s.writeIn i b).codeLen = s.codeLen := rfl
@[simp] theorem State.writeIn_code (i : Nat) (b : Byte) : (s.writeIn i b).code = s.code := rfl
@[simp] theorem State.writeIn_inBuf (i : Nat) (b : Byte) : (s.writeIn i b).inBuf = Memory.write s.inBuf i b := rfl
@[simp] theorem State.writeIn_outBuf (i : Nat) (b : Byte) : (s.writeIn i b).outBuf = s.outBuf := rfl
@[simp] theorem State.writeIn_draws (i : Nat) (b : Byte) : (s.writeIn i b).draws = s.draws := rfl
@[simp] theorem State.writeIn_resets (i : Nat) (b : Byte) : (s.writeIn i b).resets = s.resets := rfl
@[simp] theorem State.writeIn_hostProgram (i : Nat) (b : Byte) : (s.writeIn i b).hostProgram = s.hostProgram := rfl
@[simp] theorem State.writeIn_hostReads (i : Nat) (b : Byte) : (s.writeIn i b).hostReads = s.hostReads := rfl

@[simp] theorem State.returnRead_caps (v : ReadValue) : (s.returnRead v).caps = s.caps := rfl
@[simp] theorem State.returnRead_cmd (v : ReadValue) : (s.returnRead v).cmd = s.cmd := rfl
@[simp] theorem State.returnRead_phase (v : ReadValue) : (s.returnRead v).phase = s.phase := rfl
@[simp] theorem State.returnRead_freqV (v : ReadValue) : (s.returnRead v).freqV = s.freqV := rfl
@[simp] theorem State.returnRead_treeV (v : ReadValue) : (s.returnRead v).treeV = s.treeV := rfl
@[simp] theorem State.returnRead_codeV (v : ReadValue) : (s.returnRead v).codeV = s.codeV := rfl
@[simp] theorem State.returnRead_hdrV (v : ReadValue) : (s.returnRead v).hdrV = s.hdrV := rfl
@[simp] theorem State.returnRead_err (v : ReadValue) : (s.returnRead v).err = s.err := rfl
@[simp] theorem State.returnRead_detail (v : ReadValue) : (s.returnRead v).detail = s.detail := rfl
@[simp] theorem State.returnRead_inLen (v : ReadValue) : (s.returnRead v).inLen = s.inLen := rfl
@[simp] theorem State.returnRead_outLen (v : ReadValue) : (s.returnRead v).outLen = s.outLen := rfl
@[simp] theorem State.returnRead_inPos (v : ReadValue) : (s.returnRead v).inPos = s.inPos := rfl
@[simp] theorem State.returnRead_nsym (v : ReadValue) : (s.returnRead v).nsym = s.nsym := rfl
@[simp] theorem State.returnRead_nint (v : ReadValue) : (s.returnRead v).nint = s.nint := rfl
@[simp] theorem State.returnRead_root (v : ReadValue) : (s.returnRead v).root = s.root := rfl
@[simp] theorem State.returnRead_pad (v : ReadValue) : (s.returnRead v).pad = s.pad := rfl
@[simp] theorem State.returnRead_lbits (v : ReadValue) : (s.returnRead v).lbits = s.lbits := rfl
@[simp] theorem State.returnRead_freq (v : ReadValue) : (s.returnRead v).freq = s.freq := rfl
@[simp] theorem State.returnRead_weight (v : ReadValue) : (s.returnRead v).weight = s.weight := rfl
@[simp] theorem State.returnRead_left (v : ReadValue) : (s.returnRead v).left = s.left := rfl
@[simp] theorem State.returnRead_right (v : ReadValue) : (s.returnRead v).right = s.right := rfl
@[simp] theorem State.returnRead_inq (v : ReadValue) : (s.returnRead v).inq = s.inq := rfl
@[simp] theorem State.returnRead_codeLen (v : ReadValue) : (s.returnRead v).codeLen = s.codeLen := rfl
@[simp] theorem State.returnRead_code (v : ReadValue) : (s.returnRead v).code = s.code := rfl
@[simp] theorem State.returnRead_inBuf (v : ReadValue) : (s.returnRead v).inBuf = s.inBuf := rfl
@[simp] theorem State.returnRead_outBuf (v : ReadValue) : (s.returnRead v).outBuf = s.outBuf := rfl
@[simp] theorem State.returnRead_draws (v : ReadValue) : (s.returnRead v).draws = s.draws := rfl
@[simp] theorem State.returnRead_resets (v : ReadValue) : (s.returnRead v).resets = s.resets := rfl
@[simp] theorem State.returnRead_hostProgram (v : ReadValue) : (s.returnRead v).hostProgram = s.hostProgram := rfl
@[simp] theorem State.returnRead_hostReads (v : ReadValue) : (s.returnRead v).hostReads = v :: s.hostReads := rfl

@[simp] theorem State.initQueue_caps : s.initQueue.caps = s.caps := rfl
@[simp] theorem State.initQueue_cmd : s.initQueue.cmd = s.cmd := rfl
@[simp] theorem State.initQueue_phase : s.initQueue.phase = s.phase := rfl
@[simp] theorem State.initQueue_freqV : s.initQueue.freqV = s.freqV := rfl
@[simp] theorem State.initQueue_treeV : s.initQueue.treeV = s.treeV := rfl
@[simp] theorem State.initQueue_codeV : s.initQueue.codeV = s.codeV := rfl
@[simp] theorem State.initQueue_hdrV : s.initQueue.hdrV = s.hdrV := rfl
@[simp] theorem State.initQueue_err : s.initQueue.err = s.err := rfl
@[simp] theorem State.initQueue_detail : s.initQueue.detail = s.detail := rfl
@[simp] theorem State.initQueue_inLen : s.initQueue.inLen = s.inLen := rfl
@[simp] theorem State.initQueue_outLen : s.initQueue.outLen = s.outLen := rfl
@[simp] theorem State.initQueue_inPos : s.initQueue.inPos = s.inPos := rfl
@[simp] theorem State.initQueue_nsym : s.initQueue.nsym = s.nsym := rfl
@[simp] theorem State.initQueue_nint : s.initQueue.nint = 0 := rfl
@[simp] theorem State.initQueue_root : s.initQueue.root = s.root := rfl
@[simp] theorem State.initQueue_pad : s.initQueue.pad = s.pad := rfl
@[simp] theorem State.initQueue_lbits : s.initQueue.lbits = s.lbits := rfl
@[simp] theorem State.initQueue_freq : s.initQueue.freq = s.freq := rfl
@[simp] theorem State.initQueue_left : s.initQueue.left = s.left := rfl
@[simp] theorem State.initQueue_right : s.initQueue.right = s.right := rfl
@[simp] theorem State.initQueue_codeLen : s.initQueue.codeLen = s.codeLen := rfl
@[simp] theorem State.initQueue_code : s.initQueue.code = s.code := rfl
@[simp] theorem State.initQueue_inBuf : s.initQueue.inBuf = s.inBuf := rfl
@[simp] theorem State.initQueue_outBuf : s.initQueue.outBuf = s.outBuf := rfl
@[simp] theorem State.initQueue_draws : s.initQueue.draws = s.draws := rfl
@[simp] theorem State.initQueue_resets : s.initQueue.resets = s.resets := rfl
@[simp] theorem State.initQueue_hostProgram : s.initQueue.hostProgram = s.hostProgram := rfl
@[simp] theorem State.initQueue_hostReads : s.initQueue.hostReads = s.hostReads := rfl

end Sys2Proof.Machine
end

