-- ==== Sys2Proof/Laws/Table.lean ====
section
/-!
SUPPORT. The laws of the tables: what a read gives after a write, and which indices `indicesOf` lists.
-/
namespace Sys2Proof.Machine

variable {α : Type} {n : Nat}

theorem tget_of_lt (v : Vector α n) (d : α) {i : Nat} (h : i < n) : tget v i d = v[i] := by simp [tget, h]

theorem tget_of_ge (v : Vector α n) (d : α) {i : Nat} (h : n ≤ i) : tget v i d = d := by
  simp [tget, Nat.not_lt.mpr h]

@[simp] theorem tget_tset_self (v : Vector α n) (a d : α) {i : Nat} (h : i < n) : tget (tset v i a) i d = a := by
  simp [tget, tset, h]

theorem tget_tset_ne (v : Vector α n) (a d : α) {i j : Nat} (h : i ≠ j) : tget (tset v i a) j d = tget v j d := by
  unfold tget tset
  split
  · split
    · rw [Vector.getElem_set_ne _ _ h]
    · rfl
  · rfl

theorem tget_tset (v : Vector α n) (a d : α) (i j : Nat) :
    tget (tset v i a) j d = if i = j ∧ i < n then a else tget v j d := by
  by_cases h : i = j
  · subst h
    by_cases hi : i < n
    · simp [hi]
    · simp [hi, tget]
  · simp [h, tget_tset_ne]

@[simp] theorem tget_tabulate (f : Nat → α) (d : α) {i : Nat} (h : i < n) : tget (tabulate n f) i d = f i := by
  simp [tget, tabulate, h]

@[simp] theorem tget_replicate (a d : α) {i : Nat} (h : i < n) : tget (Vector.replicate n a) i d = a := by
  simp [tget, h]

/-- Two tables with equal entries are equal. -/
theorem table_ext {v w : Vector α n} (d : α) (h : ∀ i, i < n → tget v i d = tget w i d) : v = w := by
  ext i hi
  simpa [tget, hi] using h i hi

theorem indicesFrom_eq_filter (p : α → Bool) (d : α) :
    ∀ (l : List α) (i : Nat),
      indicesFrom p l i = (List.range' i l.length).filter fun j => p (l[j - i]?.getD d)
  | [], i => by simp [indicesFrom]
  | x :: xs, i => by
    have ih := indicesFrom_eq_filter p d xs (i + 1)
    have hc : (List.range' (i + 1) xs.length).filter (fun j => p (((x :: xs)[j - i]?).getD d))
        = (List.range' (i + 1) xs.length).filter fun j => p ((xs[j - (i + 1)]?).getD d) := by
      apply List.filter_congr
      intro j hj
      have : i + 1 ≤ j := (List.mem_range'_1.mp hj).1
      rw [show j - i = (j - (i + 1)) + 1 by omega, List.getElem?_cons_succ]
    simp only [indicesFrom, List.length_cons, List.range'_succ, List.filter_cons, Nat.sub_self,
      List.getElem?_cons_zero, Option.getD_some, hc, ih]

/-- The indices listed are those whose entries satisfy the condition, in ascending order. -/
theorem indicesOf_eq_filter (p : α → Bool) (v : Vector α n) (d : α) :
    indicesOf p v = (List.range n).filter fun i => p (tget v i d) := by
  rw [indicesOf, indicesFrom_eq_filter p d, Vector.length_toList, ← List.range_eq_range']
  apply List.filter_congr
  intro i hi
  have h : i < n := List.mem_range.mp hi
  simp [tget, h]

theorem mem_indicesOf (p : α → Bool) (v : Vector α n) (d : α) (i : Nat) :
    i ∈ indicesOf p v ↔ i < n ∧ p (tget v i d) = true := by
  simp [indicesOf_eq_filter p v d]

theorem indicesOf_sorted (p : α → Bool) (v : Vector α n) : (indicesOf p v).Pairwise (· < ·) := by
  cases n with
  | zero =>
    have : v.toList = [] := by simp
    simp [indicesOf, this, indicesFrom]
  | succ n =>
    rw [indicesOf_eq_filter p v v[0]]
    exact List.Pairwise.filter _ List.pairwise_lt_range

end Sys2Proof.Machine
end

