-- ==== Sys2Proof/Laws/Operands.lean ====
section
/-!
SUPPORT. What each operand form gives: header integers, the alphabet, codes, children, pad counts.
-/
namespace Sys2Proof.Machine

/-! ## Header integers -/

/-- The value of a header integer: first byte most significant (00_scope.md R11). -/
theorem be32Of_toNat (b0 b1 b2 b3 : Byte) :
    (be32Of b0 b1 b2 b3).toNat = b0.toNat * 2 ^ 24 + b1.toNat * 2 ^ 16 + b2.toNat * 2 ^ 8 + b3.toNat := by
  simp only [be32Of, BitVec.toNat_append]
  rw [← Nat.shiftLeft_add_eq_or_of_lt (by omega), ← Nat.shiftLeft_add_eq_or_of_lt (by omega),
    ← Nat.shiftLeft_add_eq_or_of_lt (by omega)]
  simp only [Nat.shiftLeft_eq]
  omega

/-- Taking a word apart and assembling it gives it back (00_scope.md R11). -/
theorem be32Of_be32 (v : Word) :
    be32Of (v.extractLsb' 24 8) (v.extractLsb' 16 8) (v.extractLsb' 8 8) (v.extractLsb' 0 8) = v := by
  apply BitVec.eq_of_toNat_eq
  rw [be32Of_toNat]
  simp only [BitVec.extractLsb'_toNat, Nat.shiftRight_eq_div_pow]
  have := v.isLt
  omega

@[simp] theorem be32_length (v : Word) : (be32 v).length = 4 := rfl

/-- The header integer at index `i`, as a number. -/
theorem inWord_toNat (s : State) (i : Nat) :
    (s.inWord i).toNat = (s.inByte i).toNat * 2 ^ 24 + (s.inByte (i + 1)).toNat * 2 ^ 16
      + (s.inByte (i + 2)).toNat * 2 ^ 8 + (s.inByte (i + 3)).toNat :=
  be32Of_toNat _ _ _ _

/-- A header integer is 0 exactly when its four bytes are. -/
theorem inWord_eq_zero (s : State) (i : Nat) : s.inWord i = 0 ↔ ∀ k, k < 4 → s.inByte (i + k) = 0 := by
  have h := inWord_toNat s i
  have hz (v : Byte) : v = 0 ↔ v.toNat = 0 := by rw [← BitVec.toNat_inj]; rfl
  have h4 : (∀ k, k < 4 → s.inByte (i + k) = 0) ↔
      s.inByte i = 0 ∧ s.inByte (i + 1) = 0 ∧ s.inByte (i + 2) = 0 ∧ s.inByte (i + 3) = 0 := by
    constructor
    · intro h
      exact ⟨h 0 (by omega), h 1 (by omega), h 2 (by omega), h 3 (by omega)⟩
    · rintro ⟨h0, h1, h2, h3⟩ k hk
      have : k = 0 ∨ k = 1 ∨ k = 2 ∨ k = 3 := by omega
      rcases this with rfl | rfl | rfl | rfl <;> assumption
  have hw : s.inWord i = 0 ↔ (s.inWord i).toNat = 0 := by rw [← BitVec.toNat_inj]; rfl
  rw [h4, hw, hz, hz, hz, hz, h]
  omega

/-! ## The alphabet -/

theorem mem_alphabetOf (freq : Vector (BitVec 32) 256) (x : Byte) : x ∈ alphabetOf freq ↔ freqAt freq x ≠ 0 := by
  have hx : x.toNat < 256 := x.isLt
  have hm (i : Nat) : i ∈ indicesOf (fun f => f != 0) freq ↔ i < 256 ∧ tget freq i 0 ≠ 0 := by
    simpa using mem_indicesOf (fun f => f != 0) freq 0 i
  rw [alphabetOf, List.mem_map]
  constructor
  · rintro ⟨i, hi, rfl⟩
    obtain ⟨hi, h⟩ := (hm i).mp hi
    simpa [freqAt, Nat.mod_eq_of_lt hi] using h
  · intro h
    exact ⟨x.toNat, (hm _).mpr ⟨hx, h⟩, by simp⟩

/-- The alphabet in ascending order (30_encoding.md R50). -/
theorem alphabetOf_sorted (freq : Vector (BitVec 32) 256) :
    (alphabetOf freq).Pairwise fun a b => a.toNat < b.toNat := by
  rw [alphabetOf, List.pairwise_map]
  refine (indicesOf_sorted _ freq).imp_of_mem ?_
  intro a b ha hb h
  have ha := ((mem_indicesOf _ _ 0 _).mp ha).1
  have hb := ((mem_indicesOf _ _ 0 _).mp hb).1
  simpa [Nat.mod_eq_of_lt ha, Nat.mod_eq_of_lt hb] using h

theorem alphabetOf_nodup (freq : Vector (BitVec 32) 256) : (alphabetOf freq).Nodup :=
  (alphabetOf_sorted freq).imp fun h => by
    rintro rfl
    exact absurd h (Nat.lt_irrefl _)

/-- An alphabet of byte values has at most 256 symbols (00_scope.md R7). -/
theorem alphabetOf_length_le (freq : Vector (BitVec 32) 256) : (alphabetOf freq).length ≤ 256 := by
  have h : indicesOf (fun f => f != 0) freq = (List.range 256).filter _ := indicesOf_eq_filter _ freq 0
  rw [alphabetOf, List.length_map, h]
  exact (List.length_filter_le _ _).trans (by simp)

theorem nsymOf_toNat (freq : Vector (BitVec 32) 256) : (nsymOf freq).toNat = (alphabetOf freq).length := by
  have h := alphabetOf_length_le freq
  rw [nsymOf, BitVec.toNat_ofNat, Nat.mod_eq_of_lt (by omega)]

theorem nsymOf_ne_zero (freq : Vector (BitVec 32) 256) : nsymOf freq ≠ 0 ↔ ∃ x, freqAt freq x ≠ 0 := by
  rw [ne_eq, ← BitVec.toNat_inj, nsymOf_toNat]
  simp [List.length_eq_zero_iff, List.eq_nil_iff_forall_not_mem, mem_alphabetOf]

/-- Two frequency tables with the same frequency of every symbol are equal. -/
theorem freq_ext {f g : Vector (BitVec 32) 256} (h : ∀ x, freqAt f x = freqAt g x) : f = g := by
  refine table_ext 0 fun i hi => ?_
  have := h (BitVec.ofNat 8 i)
  simpa [freqAt, Nat.mod_eq_of_lt hi] using this

theorem freqAt_tset (f : Vector (BitVec 32) 256) (x y : Byte) (v : BitVec 32) :
    freqAt (tset f x.toNat v) y = if x = y then v else freqAt f y := by
  simp [freqAt, tget_tset, BitVec.toNat_inj, x.isLt]

@[simp] theorem freqAt_zero (x : Byte) : freqAt (Vector.replicate 256 0) x = 0 := by
  simp [freqAt, x.isLt]

/-! ## Nodes -/

/-- The children of an internal node; any other id has none (30_encoding.md R57). -/
theorem child_ok (s : State) (id : NodeId) (b : Bool) (c : NodeId) :
    s.child id b = .ok c ↔
      (256 ≤ id.toNat ∧ id.toNat ≤ 510) ∧ c = tget (if b then s.right else s.left) (id.toNat - 256) 0 := by
  unfold State.child
  split <;> simp_all [eq_comm]

/-- A node without children stops the model; nothing else does. -/
theorem child_error (s : State) (id : NodeId) (b : Bool) (x : Stop) :
    s.child id b = .error x ↔ ¬ (256 ≤ id.toNat ∧ id.toNat ≤ 510) ∧ x = .stuck .noSuchNode := by
  unfold State.child
  split <;> simp_all [eq_comm]

theorem isLeaf_iff (id : NodeId) : isLeaf id = true ↔ id.toNat < 256 := by simp [isLeaf]

@[simp] theorem leafOf_toNat (x : Byte) : (leafOf x).toNat = x.toNat := by
  have := x.isLt
  simp [leafOf]
  omega

@[simp] theorem leafByte_leafOf (x : Byte) : leafByte (leafOf x) = x := by simp [leafByte, leafOf]

theorem leafOf_leafByte {id : NodeId} (h : id.toNat < 256) : leafOf (leafByte id) = id := by
  apply BitVec.eq_of_toNat_eq
  simp [leafByte, Nat.mod_eq_of_lt h]

/-! ## Codes and pad counts -/

/-- The code of a symbol is the stored string where its length is the stored length (10_state.md R20). -/
theorem codeBits_eq {s : State} {x : Byte} (h : (tget s.code x.toNat []).length = (s.codeLenAt x).toNat) :
    s.codeBits x = tget s.code x.toNat [] := by
  unfold State.codeBits
  rw [← h]
  generalize tget s.code x.toNat [] = l
  apply List.ext_getElem
  · simp
  · intro i h1 h2
    simp [List.getElem?_eq_getElem h2]

/-- The pad count of 30_encoding.md R55. -/
theorem padCount_toNat (n : Nat) : (padCount n).toNat = (8 - n % 8) % 8 := by
  rw [padCount, BitVec.toNat_ofNat]
  omega

end Sys2Proof.Machine
end

