-- ==== Sys2Proof/Laws/Ops.lean ====
section
/-!
SUPPORT. What the shared operations can do, said once: the results of pseudocode, the checks, `emit`, and the frame of a
command (45_control_and_composite.md R86).
-/
namespace Sys2Proof.Machine

/-! ## Results of pseudocode -/

theorem run_bind_ok {α β : Type} (r : Run α) (f : α → Run β) (b : β) :
    (r >>= f) = .ok b ↔ ∃ a, r = .ok a ∧ f a = .ok b := by
  cases r <;> simp [bind, Except.bind]

theorem run_bind_error {α β : Type} (r : Run α) (f : α → Run β) (x : Stop) :
    (r >>= f) = .error x ↔ r = .error x ∨ ∃ a, r = .ok a ∧ f a = .error x := by
  cases r <;> simp [bind, Except.bind]

@[simp] theorem run_ok_bind {α β : Type} (a : α) (f : α → Run β) : ((.ok a : Run α) >>= f) = f a := rfl

@[simp] theorem run_error_bind {α β : Type} (x : Stop) (f : α → Run β) :
    ((.error x : Run α) >>= f) = .error x := rfl

theorem require_ok (c : Bool) (e : CmdError) (u : Unit) : require c e = .ok u ↔ c = true := by
  cases c <;> simp [require]

theorem require_error (c : Bool) (e : CmdError) (x : Stop) : require c e = .error x ↔ c = false ∧ x = .raise e := by
  cases c <;> simp [require, eq_comm]

@[simp] theorem require_true (e : CmdError) : require true e = .ok () := rfl

@[simp] theorem require_false (e : CmdError) : require false e = .error (.raise e) := rfl

theorem requireInLen_of_le {s : State} (h : s.inLen.toNat ≤ s.caps.inCap) : s.requireInLen = .ok () := by
  simp [State.requireInLen, Nat.not_lt.mpr h]

theorem requireInLen_of_gt {s : State} (h : s.caps.inCap < s.inLen.toNat) :
    s.requireInLen = .error (.raise .inLenRange) := by
  simp [State.requireInLen, h]

theorem requireInLen_ok (s : State) (u : Unit) : s.requireInLen = .ok u ↔ s.inLen.toNat ≤ s.caps.inCap := by
  simp [State.requireInLen, require_ok, -gt_iff_lt]

theorem emit_ok (s t : State) (v : Byte) : s.emit v = .ok t ↔ s.outLen.toNat ≠ s.caps.outCap ∧ t = s.put v := by
  unfold State.emit
  split <;> simp_all [eq_comm]

/-! ## The frame of a command -/

theorem command_in_error {s : State} (h : s.phase = .error) (w : Word) (body : State → Run State) :
    s.command w body = .next s := by
  simp [State.command, h]

theorem command_ok {s t : State} (h : s.phase ≠ .error) {w : Word} {body : State → Run State}
    (hb : body (s.accept w) = .ok t) : s.command w body = .next t.complete := by
  simp [State.command, h, hb, State.finish]

theorem command_raise {s : State} (h : s.phase ≠ .error) {w : Word} {body : State → Run State} {e : CmdError}
    (hb : body (s.accept w) = .error (.raise e)) : s.command w body = .next ((s.accept w).raise e) := by
  simp [State.command, h, hb, State.finish]

/-- Every way a command can answer a next state. -/
theorem command_next {s t : State} {w : Word} {body : State → Run State} (h : s.command w body = .next t) :
    (s.phase = .error ∧ t = s) ∨
    (s.phase ≠ .error ∧ ∃ u, body (s.accept w) = .ok u ∧ t = u.complete) ∨
    (s.phase ≠ .error ∧ ∃ e, body (s.accept w) = .error (.raise e) ∧ t = (s.accept w).raise e) := by
  unfold State.command at h
  split at h
  · exact .inl ⟨‹_›, by simpa [eq_comm] using h⟩
  · unfold State.finish at h
    split at h
    · exact .inr (.inl ⟨‹_›, _, ‹_›, by simpa [eq_comm] using h⟩)
    · exact .inr (.inr ⟨‹_›, _, ‹_›, by simpa [eq_comm] using h⟩)
    · cases h

/-- A command stops only where its pseudocode does. -/
theorem command_fault {s : State} {w : Word} {body : State → Run State} {f : Fault} (h : s.command w body = .fault f) :
    s.phase ≠ .error ∧ body (s.accept w) = .error (.stuck f) := by
  unfold State.command at h
  split at h
  · cases h
  · refine ⟨‹_›, ?_⟩
    unfold State.finish at h
    split at h
    · cases h
    · cases h
    · simp_all

/-- A command is never refused. -/
theorem command_not_refused (s : State) (w : Word) (body : State → Run State) (r : Refusal) :
    s.command w body ≠ .refused r := by
  unfold State.command State.finish
  split
  · simp
  · split <;> simp

/-- The three outcomes an accepted command can have, from its pseudocode's result. -/
theorem command_eq {s : State} (h : s.phase ≠ .error) (w : Word) (body : State → Run State) :
    s.command w body = (s.accept w).finish (body (s.accept w)) := by
  simp [State.command, h]

end Sys2Proof.Machine
end

