-- ==== Sys2Proof/Laws/Writes.lean ====
section
/-!
SUPPORT. What each command's pseudocode writes when it reaches its end: the state it answers is the state it began in, but
for the named fields ("writes", "flags written" and "does not touch" of 40 to 45).
-/
namespace Sys2Proof.Machine

/-- `put` writes the bytes of `OUT` and its length. -/
theorem putAll_writes (l : List Byte) (s : State) : ∃ n b, s.putAll l = { s with outLen := n, outBuf := b } := by
  induction l generalizing s with
  | nil => exact ⟨_, _, rfl⟩
  | cons v l ih =>
    obtain ⟨n, b, h⟩ := ih (s.put v)
    exact ⟨n, b, h⟩

theorem emit_writes {s t : State} {v : Byte} (h : s.emit v = .ok t) :
    ∃ n b, t = { s with outLen := n, outBuf := b } :=
  ⟨_, _, ((emit_ok s t v).mp h).2⟩

/-- `FREQ` answers exactly this state, exactly when `IN_LEN` is within `IN_CAP` (block F1). -/
theorem freqBody_ok (s t : State) :
    freqBody s = .ok t ↔ s.inLen.toNat ≤ s.caps.inCap ∧ t = (s.withFreq (countBytes s.inputBytes)).flagsFreq := by
  by_cases h : s.inLen.toNat ≤ s.caps.inCap
  · simp [freqBody, requireInLen_of_le h, h, eq_comm]
  · simp [freqBody, requireInLen_of_gt (Nat.lt_of_not_le h), h]

theorem extractMin_writes {s t : State} {m : NodeId} (h : s.extractMin = some (m, t)) : ∃ q, t = { s with inq := q } := by
  unfold State.extractMin at h
  split at h
  · cases h
  · cases h
    exact ⟨_, rfl⟩

theorem mergeLoop_writes (n : Nat) (s : State) :
    ∃ w l r q k, State.mergeLoop n s = { s with weight := w, left := l, right := r, inq := q, nint := k } := by
  induction n generalizing s with
  | zero => exact ⟨_, _, _, _, _, rfl⟩
  | succ n ih =>
    unfold State.mergeLoop
    split
    · exact ⟨_, _, _, _, _, rfl⟩
    · split
      · exact ⟨_, _, _, _, _, rfl⟩
      · rename_i _ a s1 h1 _ b s2 h2
        obtain ⟨q1, rfl⟩ := extractMin_writes h1
        obtain ⟨q2, rfl⟩ := extractMin_writes h2
        obtain ⟨w, l, r, q, k, h⟩ := ih (State.join { s with inq := q2 } a b)
        exact ⟨w, l, r, q, k, h⟩

theorem takeRoot_ok (s t : State) : s.takeRoot = .ok t ↔ ∃ m, s.queue = [m] ∧ t = { s with root := m } := by
  unfold State.takeRoot
  split
  · rename_i m hm
    simp [hm, eq_comm]
  · rename_i hm
    simp only [reduceCtorEq, false_iff, not_exists, not_and]
    intro m h
    exact absurd h (hm m)

/-- `BUILD` writes the arena, the queue, `NINT`, `ROOT` and two flags (block B1). -/
theorem buildBody_writes {s t : State} (h : buildBody s = .ok t) :
    s.freqV = true ∧ s.nsym ≠ 0 ∧ ∃ w l r q k m,
      t = { s with weight := w, left := l, right := r, inq := q, nint := k, root := m, treeV := true, codeV := false } := by
  obtain ⟨_, hf, h⟩ := (run_bind_ok _ _ _).mp h
  obtain ⟨_, hn, h⟩ := (run_bind_ok _ _ _).mp h
  obtain ⟨u, hu, h⟩ := (run_bind_ok _ _ _).mp h
  refine ⟨(require_ok _ _ _).mp hf, by simpa using (require_ok _ _ _).mp hn, ?_⟩
  obtain ⟨m, -, rfl⟩ := (takeRoot_ok _ _).mp hu
  obtain ⟨w, l, r, q, k, hm⟩ := mergeLoop_writes 255 s.initQueue
  obtain rfl := Except.ok.inj h
  rw [hm]
  exact ⟨_, _, _, _, _, _, rfl⟩

theorem visit_writes {n : Nat} {s t : State} {id : NodeId} {p : BitString} (h : State.visit n s id p = .ok t) :
    ∃ a c, t = { s with codeLen := a, code := c } := by
  induction n generalizing s t id p with
  | zero =>
    unfold State.visit at h
    split at h
    · cases h
      exact ⟨_, _, rfl⟩
    · cases h
  | succ n ih =>
    unfold State.visit at h
    split at h
    · cases h
      exact ⟨_, _, rfl⟩
    · obtain ⟨_, -, h⟩ := (run_bind_ok _ _ _).mp h
      obtain ⟨_, -, h⟩ := (run_bind_ok _ _ _).mp h
      obtain ⟨u, hu, h⟩ := (run_bind_ok _ _ _).mp h
      obtain ⟨a, c, rfl⟩ := ih hu
      obtain ⟨a', c', h⟩ := ih h
      exact ⟨a', c', h⟩

/-- `GEN` writes the code table, `LBITS` and one flag (block G1). -/
theorem genBody_writes {s t : State} (h : genBody s = .ok t) :
    s.treeV = true ∧ ∃ a c n, t = { s with codeLen := a, code := c, lbits := n, codeV := true } := by
  obtain ⟨_, hv, h⟩ := (run_bind_ok _ _ _).mp h
  obtain ⟨u, hu, h⟩ := (run_bind_ok _ _ _).mp h
  refine ⟨(require_ok _ _ _).mp hv, ?_⟩
  cases h
  unfold State.assignCodes at hu
  split at hu
  · cases hu
    exact ⟨_, _, _, rfl⟩
  · obtain ⟨a, c, rfl⟩ := visit_writes hu
    exact ⟨_, _, _, rfl⟩

/-- `HDRW` answers exactly this state, exactly when `CODE_V = 1` (block H1). -/
theorem hdrwBody_ok (s t : State) :
    hdrwBody s = .ok t ↔ s.codeV = true ∧
      t = ((s.withPad (padCount s.lbits.toNat)).outRestart.putAll
        (headerBytes s.freq s.nsym (padCount s.lbits.toNat))).flagsHdrw := by
  cases h : s.codeV <;> simp [hdrwBody, h, eq_comm]

/-- `HDRW` writes `PAD`, `OUT`, `OUT_LEN` and one flag. -/
theorem hdrwBody_writes {s t : State} (h : hdrwBody s = .ok t) :
    s.codeV = true ∧ ∃ p n b,
      t = { s with pad := p, outLen := n, outBuf := b, draws := s.draws + 1, hdrV := false } := by
  obtain ⟨hv, rfl⟩ := (hdrwBody_ok s t).mp h
  obtain ⟨n, b, hp⟩ := putAll_writes (headerBytes s.freq s.nsym (padCount s.lbits.toNat))
    (s.withPad (padCount s.lbits.toNat)).outRestart
  rw [hp]
  exact ⟨hv, _, _, _, rfl⟩

theorem parseStream_writes {s t : State} (h : s.parseStream = .ok t) :
    ∃ f n p i, t = { s with freq := f, nsym := n, pad := p, inPos := i } := by
  unfold State.parseStream at h
  split at h
  · cases h
    exact ⟨_, _, _, _, rfl⟩
  · unfold State.parseHeader at h
    dsimp only at h
    split at h
    · cases h
    · split at h
      · cases h
      · split at h
        · cases h
        · obtain ⟨f, -, h⟩ := (run_bind_ok _ _ _).mp h
          split at h
          · cases h
          · cases h
            exact ⟨_, _, _, _, rfl⟩

/-- `HDRP` writes `FREQ[]`, `NSYM`, `PAD`, `IN_POS` and the flags (block H2). -/
theorem hdrpBody_writes {s t : State} (h : hdrpBody s = .ok t) :
    s.inLen.toNat ≤ s.caps.inCap ∧ ∃ f n p i,
      t = { s with freq := f, nsym := n, pad := p, inPos := i, freqV := true, treeV := false, codeV := false, hdrV := true } := by
  obtain ⟨_, hl, h⟩ := (run_bind_ok _ _ _).mp h
  obtain ⟨u, hu, h⟩ := (run_bind_ok _ _ _).mp h
  refine ⟨(requireInLen_ok _ _).mp hl, ?_⟩
  cases h
  obtain ⟨f, n, p, i, rfl⟩ := parseStream_writes hu
  exact ⟨_, _, _, _, rfl⟩

theorem putBit_writes {p q : Packer} {b : Bool} (h : p.putBit b = .ok q) :
    ∃ n m, q.st = { p.st with outLen := n, outBuf := m } := by
  unfold Packer.putBit at h
  dsimp only at h
  split at h
  · obtain ⟨t, ht, h⟩ := (run_bind_ok _ _ _).mp h
    cases h
    exact emit_writes ht
  · cases h
    exact ⟨_, _, rfl⟩

/-- A loop whose every step writes only the bytes of `OUT` and its length writes only these. -/
theorem foldlM_writes {α : Type} {f : Packer → α → Run Packer}
    (hf : ∀ p a q, f p a = .ok q → ∃ n m, q.st = { p.st with outLen := n, outBuf := m }) :
    ∀ (l : List α) (p q : Packer), l.foldlM f p = .ok q → ∃ n m, q.st = { p.st with outLen := n, outBuf := m }
  | [], p, q, h => by
    cases h
    exact ⟨_, _, rfl⟩
  | a :: l, p, q, h => by
    rw [List.foldlM_cons] at h
    obtain ⟨r, hr, h⟩ := (run_bind_ok _ _ _).mp h
    obtain ⟨n, m, h1⟩ := hf p a r hr
    obtain ⟨n', m', h2⟩ := foldlM_writes hf l r q h
    exact ⟨n', m', by rw [h2, h1]⟩

theorem putCodeBit_writes {p q : Packer} {b : Bool} (h : p.putCodeBit b = .ok q) :
    ∃ n m, q.st = { p.st with outLen := n, outBuf := m } := by
  obtain ⟨r, hr, h⟩ := (run_bind_ok _ _ _).mp h
  obtain rfl := Except.ok.inj h
  exact putBit_writes (q := r) hr

theorem putCode_writes {p q : Packer} {x : Byte} (h : p.putCode x = .ok q) :
    ∃ n m, q.st = { p.st with outLen := n, outBuf := m } := by
  unfold Packer.putCode at h
  split at h
  · cases h
  · exact foldlM_writes (fun _ _ _ => putCodeBit_writes) _ _ _ h

/-- `PACK` writes `OUT`, `OUT_LEN`, `PAD` and one flag (block P1). -/
theorem packBody_writes {s t : State} (h : packBody s = .ok t) :
    s.codeV = true ∧ s.inLen.toNat ≤ s.caps.inCap ∧ ∃ p n b,
      t = { s with pad := p, outLen := n, outBuf := b, hdrV := false } := by
  obtain ⟨_, hv, h⟩ := (run_bind_ok _ _ _).mp h
  obtain ⟨_, hl, h⟩ := (run_bind_ok _ _ _).mp h
  obtain ⟨p, hp, h⟩ := (run_bind_ok _ _ _).mp h
  obtain ⟨q, hq, h⟩ := (run_bind_ok _ _ _).mp h
  refine ⟨(require_ok _ _ _).mp hv, (requireInLen_ok _ _).mp hl, ?_⟩
  obtain ⟨n, m, h1⟩ := foldlM_writes (fun _ _ _ => putCode_writes) _ _ _ hp
  obtain ⟨n', m', h2⟩ := foldlM_writes (fun _ _ _ => putBit_writes) _ _ _ hq
  cases h
  rw [h2, h1]
  exact ⟨_, _, _, rfl⟩

theorem unpackLoop_writes {n j : Nat} {cur : NodeId} {s t : State} (h : State.unpackLoop n j cur s = .ok t) :
    ∃ k b, t = { s with outLen := k, outBuf := b } := by
  induction n generalizing j cur s with
  | zero =>
    unfold State.unpackLoop at h
    split at h
    · cases h
      exact ⟨_, _, rfl⟩
    · cases h
  | succ n ih =>
    unfold State.unpackLoop at h
    split at h
    · obtain ⟨u, hu, h⟩ := (run_bind_ok _ _ _).mp h
      obtain ⟨_, _, rfl⟩ := emit_writes hu
      obtain ⟨k, b, h⟩ := ih h
      exact ⟨k, b, h⟩
    · obtain ⟨c, -, h⟩ := (run_bind_ok _ _ _).mp h
      split at h
      · obtain ⟨u, hu, h⟩ := (run_bind_ok _ _ _).mp h
        obtain ⟨_, _, rfl⟩ := emit_writes hu
        obtain ⟨k, b, h⟩ := ih h
        exact ⟨k, b, h⟩
      · exact ih h

/-- `UNPACK` writes `OUT` and `OUT_LEN` (block U1). -/
theorem unpackBody_writes {s t : State} (h : unpackBody s = .ok t) :
    s.codeV = true ∧ s.hdrV = true ∧ s.inLen.toNat ≤ s.caps.inCap ∧ s.payloadLength = (s.lbits.toNat : Int) ∧
      ∃ n b, t = { s with outLen := n, outBuf := b, draws := s.draws + 1 } := by
  obtain ⟨_, hv, h⟩ := (run_bind_ok _ _ _).mp h
  obtain ⟨_, hh, h⟩ := (run_bind_ok _ _ _).mp h
  obtain ⟨_, hl, h⟩ := (run_bind_ok _ _ _).mp h
  obtain ⟨_, hn, h⟩ := (run_bind_ok _ _ _).mp h
  refine ⟨(require_ok _ _ _).mp hv, (require_ok _ _ _).mp hh, (requireInLen_ok _ _).mp hl,
    by simpa using (require_ok _ _ _).mp hn, ?_⟩
  obtain ⟨k, b, h⟩ := unpackLoop_writes h
  exact ⟨k, b, h⟩

/-- `COMPRESS` ends as `FREQ` with an empty output, or as its five parts in sequence (block X1). -/
theorem compressBody_ok (s t : State) :
    compressBody s = .ok t ↔ ∃ u, freqBody s = .ok u ∧
      ((u.nsym = 0 ∧ t = u.outRestart.withPad 0) ∨
        (u.nsym ≠ 0 ∧ ∃ v, buildBody u = .ok v ∧ ∃ w, genBody v = .ok w ∧ ∃ x, hdrwBody w = .ok x ∧ packBody x = .ok t)) := by
  unfold compressBody
  rw [run_bind_ok]
  refine exists_congr fun u => and_congr_right fun _ => ?_
  by_cases h : u.nsym = 0
  · simp [h, eq_comm]
  · rw [if_neg h]
    simp only [run_bind_ok, h, false_and, false_or, ne_eq, not_false_eq_true, true_and]

/-- `DECOMPRESS` ends as `HDRP` with an empty output, or as its four parts in sequence (block X2). -/
theorem decompressBody_ok (s t : State) :
    decompressBody s = .ok t ↔ ∃ u, hdrpBody s = .ok u ∧
      ((u.nsym = 0 ∧ t = u.outRestart) ∨
        (u.nsym ≠ 0 ∧ ∃ v, buildBody u = .ok v ∧ ∃ w, genBody v = .ok w ∧ unpackBody w = .ok t)) := by
  unfold decompressBody
  rw [run_bind_ok]
  refine exists_congr fun u => and_congr_right fun _ => ?_
  by_cases h : u.nsym = 0
  · simp [h, eq_comm]
  · rw [if_neg h]
    simp only [run_bind_ok, h, false_and, false_or, ne_eq, not_false_eq_true, true_and]

end Sys2Proof.Machine
end

