-- ==== Sys2Proof/Laws/BitPacker.lean ====
section
/-!
SUPPORT. What one bit put, one code put and one step of the decode loop do (44_bit_packer.md R80 to R84).
-/
namespace Sys2Proof.Machine

/-- A bit put into an accumulator that is not about to be full stays there (block P1). -/
theorem putBit_held {p : Packer} (h : p.nbit ≠ 7) (b : Bool) :
    p.putBit b = .ok { p with
      acc := p.acc + BitVec.ofNat 8 (b.toNat * 2 ^ (7 - p.nbit.toNat))
      nbit := p.nbit + 1 } := by
  exact if_neg h

/-- The eighth bit completes the byte, which is written if it has room (block P1). -/
theorem putBit_full {p : Packer} (h : p.nbit = 7) (b : Bool) :
    p.putBit b =
      (p.st.emit (p.acc + BitVec.ofNat 8 (b.toNat * 2 ^ (7 - p.nbit.toNat))) >>= fun t =>
        .ok { p with acc := 0, nbit := 0, st := t }) := by
  exact if_pos h

/-- A bit put raises nothing but `CAPACITY` detail 1. -/
theorem putBit_error {p : Packer} {b : Bool} {x : Stop} (h : p.putBit b = .error x) : x = .raise .outFull := by
  by_cases k : p.nbit = 7
  · rw [putBit_full k] at h
    rcases (run_bind_error _ _ _).mp h with h | ⟨t, -, h⟩
    · unfold State.emit at h
      split at h <;> cases h
      rfl
    · cases h
  · rw [putBit_held k] at h
    cases h

/-- A byte without a code raises `INVARIANT`; a byte with one has the bits of its code put in order. -/
theorem putCode_eq (p : Packer) (x : Byte) :
    p.putCode x = if p.st.codeLenAt x = 0 then .error (.raise .noCode)
      else (p.st.codeBits x).foldlM Packer.putCodeBit p := rfl

theorem foldlM_error {α : Type} {f : Packer → α → Run Packer} {P : Stop → Prop}
    (hf : ∀ p a x, f p a = .error x → P x) : ∀ (l : List α) (p : Packer) (x : Stop), l.foldlM f p = .error x → P x
  | [], _, _, h => by cases h
  | a :: l, p, x, h => by
    rw [List.foldlM_cons] at h
    rcases (run_bind_error _ _ _).mp h with h | ⟨q, -, h⟩
    · exact hf p a x h
    · exact foldlM_error hf l q x h

theorem putCodeBit_error {p : Packer} {b : Bool} {x : Stop} (h : p.putCodeBit b = .error x) : x = .raise .outFull := by
  rcases (run_bind_error _ _ _).mp h with h | ⟨q, -, h⟩
  · exact putBit_error h
  · cases h

theorem putCode_error {p : Packer} {y : Byte} {x : Stop} (h : p.putCode y = .error x) :
    x = .raise .noCode ∨ x = .raise .outFull := by
  rw [putCode_eq] at h
  split at h
  · exact .inl (by cases h; rfl)
  · exact .inr (foldlM_error (P := fun x => x = .raise .outFull) (fun _ _ _ => putCodeBit_error) _ _ _ h)

/-- The errors of `PACK`; it never stops the model (R80). -/
theorem packBody_error {s : State} {x : Stop} (h : packBody s = .error x) :
    x = .raise .codeNotValid ∨ x = .raise .inLenRange ∨ x = .raise .noCode ∨ x = .raise .outFull := by
  rcases (run_bind_error _ _ _).mp h with h | ⟨_, -, h⟩
  · exact .inl ((require_error _ _ _).mp h).2
  rcases (run_bind_error _ _ _).mp h with h | ⟨_, -, h⟩
  · exact .inr (.inl ((require_error _ _ _).mp h).2)
  rcases (run_bind_error _ _ _).mp h with h | ⟨p, -, h⟩
  · rcases foldlM_error (fun _ _ _ => putCode_error) _ _ _ h with h | h
    · exact .inr (.inr (.inl h))
    · exact .inr (.inr (.inr h))
  rcases (run_bind_error _ _ _).mp h with h | ⟨q, -, h⟩
  · exact .inr (.inr (.inr (foldlM_error (P := fun x => x = .raise .outFull) (fun _ _ _ => putBit_error) _ _ _ h)))
  · cases h

/-! ## The decode loop -/

/-- With no bit left the cursor must be at the root (block U1). -/
theorem unpackLoop_zero (s : State) (j : Nat) (cur : NodeId) :
    State.unpackLoop 0 j cur s = if cur = s.root then .ok s else .error (.raise .exhausted) := rfl

/-- With a leaf as root a bit emits that leaf's byte, and the cursor stays (R84). -/
theorem unpackLoop_leaf {s : State} (h : s.root.toNat < 256) (n j : Nat) (cur : NodeId) :
    State.unpackLoop (n + 1) j cur s = (s.emit (leafByte s.root) >>= fun t => State.unpackLoop n (j + 1) cur t) := by
  have h := (isLeaf_iff _).mpr h
  simp [State.unpackLoop, h]

/-- With an internal root a bit moves the cursor to a child; a leaf reached is emitted, and the cursor returns (R83). -/
theorem unpackLoop_node {s : State} (h : 256 ≤ s.root.toNat) (n j : Nat) {cur : NodeId} (h1 : 256 ≤ cur.toNat)
    (h2 : cur.toNat ≤ 510) :
    State.unpackLoop (n + 1) j cur s =
      let c := tget (if s.payloadBit j then s.right else s.left) (cur.toNat - 256) 0
      if isLeaf c then (s.emit (leafByte c) >>= fun t => State.unpackLoop n (j + 1) t.root t)
      else State.unpackLoop n (j + 1) c s := by
  have hl : isLeaf s.root = false := by simpa [isLeaf] using h
  have hc := (child_ok s cur (s.payloadBit j) _).mpr ⟨⟨h1, h2⟩, rfl⟩
  rw [State.unpackLoop, if_neg (by simp [hl]), hc, run_ok_bind]

/-- Bit `j` of the payload, as a bit of its byte's value (20_memory.md R35). -/
theorem payloadBit_eq (s : State) (j : Nat) :
    s.payloadBit j = (s.inByte (s.inPos.toNat + j / 8)).toNat.testBit (7 - j % 8) := rfl

end Sys2Proof.Machine
end

