-- ==== Sys2Proof/Laws/CodeGenerator.lean ====
section
/-!
SUPPORT. What one visit of the traversal does (42_code_table_generator.md R70), and what `setCode` leaves.
-/
namespace Sys2Proof.Machine

/-- A leaf takes the path as its code, at any depth. -/
theorem visit_leaf {id : NodeId} (h : id.toNat < 256) (n : Nat) (s : State) (p : BitString) :
    State.visit n s id p = .ok (s.setCode id p) := by
  have h := (isLeaf_iff id).mpr h
  cases n <;> simp [State.visit, h]

/-- An internal node visits its left child with "0" appended, then its right child with "1" appended. -/
theorem visit_node {id : NodeId} (h : 256 ≤ id.toNat) (h' : id.toNat ≤ 510) (n : Nat) (s : State) (p : BitString) :
    State.visit (n + 1) s id p =
      (State.visit n s (tget s.left (id.toNat - 256) 0) (p ++ [false]) >>= fun t =>
        State.visit n t (tget s.right (id.toNat - 256) 0) (p ++ [true])) := by
  have hl : isLeaf id = false := by simpa [isLeaf] using h
  have hc (b : Bool) : s.child id b = .ok (tget (if b then s.right else s.left) (id.toNat - 256) 0) :=
    (child_ok s id b _).mpr ⟨⟨h, h'⟩, rfl⟩
  rw [State.visit, if_neg (by simp [hl]), hc false, hc true]
  rfl

/-- The traversal stops only where the arena holds no tree. -/
theorem visit_error {n : Nat} {s : State} {id : NodeId} {p : BitString} {x : Stop} (h : State.visit n s id p = .error x) :
    x = .stuck .noSuchNode ∨ x = .stuck .arenaNotTree := by
  induction n generalizing s id p with
  | zero =>
    unfold State.visit at h
    split at h
    · cases h
    · exact .inr (by cases h; rfl)
  | succ n ih =>
    unfold State.visit at h
    split at h
    · cases h
    · rcases (run_bind_error _ _ _).mp h with h | ⟨l, -, h⟩
      · exact .inl ((child_error _ _ _ _).mp h).2
      rcases (run_bind_error _ _ _).mp h with h | ⟨r, -, h⟩
      · exact .inl ((child_error _ _ _ _).mp h).2
      rcases (run_bind_error _ _ _).mp h with h | ⟨t, -, h⟩
      · exact ih h
      · exact ih h

/-- `GEN` raises nothing but `PRECOND` detail 3 (R70, R74). -/
theorem genBody_raise {s : State} {e : CmdError} (h : genBody s = .error (.raise e)) :
    s.treeV = false ∧ e = .treeNotValid := by
  rcases (run_bind_error _ _ _).mp h with h | ⟨_, -, h⟩
  · have := (require_error _ _ _).mp h
    simp_all
  · rcases (run_bind_error _ _ _).mp h with h | ⟨t, -, h⟩
    · unfold State.assignCodes at h
      split at h
      · cases h
      · rcases visit_error h with h | h <;> cases h
    · cases h

/-- The code a symbol has after one code is stored. -/
theorem codeString_setCode (s : State) (id : NodeId) (p : BitString) (x : Byte) (h : id.toNat < 256) :
    tget (s.setCode id p).code x.toNat [] = if id.toNat = x.toNat then p else tget s.code x.toNat [] := by
  simp [State.setCode, tget_tset, h]

theorem codeLenAt_setCode (s : State) (id : NodeId) (p : BitString) (x : Byte) (h : id.toNat < 256) :
    (s.setCode id p).codeLenAt x = if id.toNat = x.toNat then BitVec.ofNat 8 p.length else s.codeLenAt x := by
  simp [State.setCode, State.codeLenAt, tget_tset, h]

@[simp] theorem codeString_noCodes (s : State) (x : Byte) : tget s.noCodes.code x.toNat [] = [] :=
  tget_replicate _ _ x.isLt

@[simp] theorem codeLenAt_noCodes (s : State) (x : Byte) : s.noCodes.codeLenAt x = 0 := tget_replicate _ _ x.isLt

end Sys2Proof.Machine
end

