-- ==== Sys2Proof/Laws/HeaderCodec.lean ====
section
/-!
SUPPORT. What the header's bytes are, and what one entry of the parse does (43_header_codec.md R75 to R78).
-/
namespace Sys2Proof.Machine

/-- The header has `5 * NSYM + 5` bytes (30_encoding.md R51). -/
theorem headerBytes_length (freq : Vector (BitVec 32) 256) (n : BitVec 9) (p : BitVec 3) :
    (headerBytes freq n p).length = 5 * (alphabetOf freq).length + 5 := by
  have (l : List Byte) : (l.flatMap fun x => x :: be32 (freqAt freq x)).length = 5 * l.length := by
    induction l with
    | nil => rfl
    | cons x l ih =>
      simp only [List.flatMap_cons, List.length_append, List.length_cons, be32_length, ih]
      omega
  simp only [headerBytes, List.length_append, be32_length, this, List.length_singleton]
  omega

/-- One entry of the header: the order is checked, then the frequency, then the entry is stored (R77). -/
theorem parseEntries_succ (s : State) (n i : Nat) (prev : Option Byte) (t : Vector (BitVec 32) 256) :
    s.parseEntries (n + 1) i prev t =
      if prev.any (fun q => decide ((s.inByte (4 + 5 * i)).toNat ≤ q.toNat)) then .error (.raise .hdrOrder)
      else if s.inWord (5 + 5 * i) = 0 then .error (.raise .hdrZeroFreq)
      else s.parseEntries n (i + 1) (some (s.inByte (4 + 5 * i)))
        (tset t (s.inByte (4 + 5 * i)).toNat (s.inWord (5 + 5 * i))) := rfl

@[simp] theorem parseEntries_zero (s : State) (i : Nat) (prev : Option Byte) (t : Vector (BitVec 32) 256) :
    s.parseEntries 0 i prev t = .ok t := rfl

/-- The entries raise nothing but disorder and a zero frequency, and never stop the model. -/
theorem parseEntries_error {s : State} {n i : Nat} {prev : Option Byte} {t : Vector (BitVec 32) 256} {x : Stop}
    (h : s.parseEntries n i prev t = .error x) : x = .raise .hdrOrder ∨ x = .raise .hdrZeroFreq := by
  induction n generalizing i prev t with
  | zero => cases h
  | succ n ih =>
    rw [parseEntries_succ] at h
    split at h
    · exact .inl (by cases h; rfl)
    · split at h
      · exact .inr (by cases h; rfl)
      · exact ih h

/-- A parsed header: its length fits, its count is at most 256, its entries and its pad count are legal (R76). -/
theorem parseHeader_ok (s t : State) :
    s.parseHeader = .ok t ↔
      (s.inWord 0).toNat ≤ 256 ∧ 5 * (s.inWord 0).toNat + 5 ≤ s.inLen.toNat ∧
        (s.inByte (4 + 5 * (s.inWord 0).toNat)).toNat ≤ 7 ∧
        ∃ f, s.parseEntries (s.inWord 0).toNat 0 none (Vector.replicate 256 0) = .ok f ∧
          t = s.withHeader f (s.inWord 0).toNat ((s.inByte (4 + 5 * (s.inWord 0).toNat)).setWidth 3)
            (5 * (s.inWord 0).toNat + 5) := by
  unfold State.parseHeader
  dsimp only
  split
  · simp only [reduceCtorEq, false_iff]
    omega
  · split
    · simp only [reduceCtorEq, false_iff]
      omega
    · split
      · simp only [reduceCtorEq, false_iff]
        omega
      · rw [run_bind_ok]
        by_cases h : (s.inByte (4 + 5 * (s.inWord 0).toNat)).toNat ≤ 7
        · simp only [if_neg (Nat.not_lt.mpr h), Except.ok.injEq]
          simp only [Nat.not_lt] at *
          simp [*, eq_comm]
        · simp only [if_pos (Nat.lt_of_not_le h), reduceCtorEq, and_false, exists_false, false_iff]
          tauto

/-- The header's checks raise the five `FORMAT` errors of R77 and never stop the model. -/
theorem parseStream_not_stuck {s : State} {f : Fault} : s.parseStream ≠ .error (.stuck f) := by
  unfold State.parseStream State.parseHeader
  dsimp only
  intro h
  split at h
  · cases h
  · split at h
    · cases h
    · split at h
      · cases h
      · split at h
        · cases h
        · rcases (run_bind_error _ _ _).mp h with h | ⟨t, -, h⟩
          · rcases parseEntries_error h with h | h <;> cases h
          · split at h <;> cases h

end Sys2Proof.Machine
end

