-- ==== Sys2Proof/Laws/Keeps.lean ====
section
/-!
SUPPORT. What no command's pseudocode touches: the input and its length, the capacities, `CMD`, the control part of
`STATUS`, and the host's side (20_memory.md R32, 10_state.md R22, R23, R30).
-/
namespace Sys2Proof.Machine

/-- `t` agrees with `s` on everything that only the host, dispatch or error entry writes. -/
structure State.Keeps (s t : State) : Prop where
  caps : t.caps = s.caps
  cmd : t.cmd = s.cmd
  phase : t.phase = s.phase
  err : t.err = s.err
  detail : t.detail = s.detail
  inLen : t.inLen = s.inLen
  inBuf : t.inBuf = s.inBuf
  resets : t.resets = s.resets
  hostProgram : t.hostProgram = s.hostProgram
  hostReads : t.hostReads = s.hostReads

theorem State.Keeps.refl (s : State) : s.Keeps s := by constructor <;> rfl

theorem State.Keeps.trans {s t u : State} (h : s.Keeps t) (k : t.Keeps u) : s.Keeps u := by
  cases h; cases k; constructor <;> simp_all

theorem State.Keeps.inByte {s t : State} (h : s.Keeps t) (i : Nat) : t.inByte i = s.inByte i := by
  simp [State.inByte, h.inBuf, h.resets]

theorem State.Keeps.inputBytes {s t : State} (h : s.Keeps t) : t.inputBytes = s.inputBytes := by
  have : t.inByte = s.inByte := funext h.inByte
  simp [State.inputBytes, h.inLen, this]

theorem freqBody_keeps {s t : State} (h : freqBody s = .ok t) : s.Keeps t := by
  obtain ⟨-, rfl⟩ := (freqBody_ok s t).mp h
  constructor <;> rfl

theorem buildBody_keeps {s t : State} (h : buildBody s = .ok t) : s.Keeps t := by
  obtain ⟨-, -, _, _, _, _, _, _, rfl⟩ := buildBody_writes h
  constructor <;> rfl

theorem genBody_keeps {s t : State} (h : genBody s = .ok t) : s.Keeps t := by
  obtain ⟨-, _, _, _, rfl⟩ := genBody_writes h
  constructor <;> rfl

theorem hdrwBody_keeps {s t : State} (h : hdrwBody s = .ok t) : s.Keeps t := by
  obtain ⟨-, _, _, _, rfl⟩ := hdrwBody_writes h
  constructor <;> rfl

theorem hdrpBody_keeps {s t : State} (h : hdrpBody s = .ok t) : s.Keeps t := by
  obtain ⟨-, _, _, _, _, rfl⟩ := hdrpBody_writes h
  constructor <;> rfl

theorem packBody_keeps {s t : State} (h : packBody s = .ok t) : s.Keeps t := by
  obtain ⟨-, -, _, _, _, rfl⟩ := packBody_writes h
  constructor <;> rfl

theorem unpackBody_keeps {s t : State} (h : unpackBody s = .ok t) : s.Keeps t := by
  obtain ⟨-, -, -, -, _, _, rfl⟩ := unpackBody_writes h
  constructor <;> rfl

theorem compressBody_keeps {s t : State} (h : compressBody s = .ok t) : s.Keeps t := by
  obtain ⟨u, hu, ⟨-, rfl⟩ | ⟨-, v, hv, w, hw, x, hx, hp⟩⟩ := (compressBody_ok s t).mp h
  · exact (freqBody_keeps hu).trans (by constructor <;> rfl)
  · exact (freqBody_keeps hu).trans ((buildBody_keeps hv).trans ((genBody_keeps hw).trans
      ((hdrwBody_keeps hx).trans (packBody_keeps hp))))

theorem decompressBody_keeps {s t : State} (h : decompressBody s = .ok t) : s.Keeps t := by
  obtain ⟨u, hu, ⟨-, rfl⟩ | ⟨-, v, hv, w, hw, hp⟩⟩ := (decompressBody_ok s t).mp h
  · exact (hdrpBody_keeps hu).trans (by constructor <;> rfl)
  · exact (hdrpBody_keeps hu).trans ((buildBody_keeps hv).trans ((genBody_keeps hw).trans (unpackBody_keeps hp)))

end Sys2Proof.Machine
end

