-- ==== Sys2Proof/Laws/HostPort.lean ====
section
/-!
SUPPORT. What one step does, by the access the host makes (20_memory.md R33, R37), and how each command's arm runs.
-/
namespace Sys2Proof.Machine

/-! ## The arms of `exec` -/

/-- The pseudocode of a command other than `NOP` and `CLEAR`. -/
theorem exec_command (s : State) :
    exec .freq s = s.command (encode .freq) freqBody ∧ exec .build s = s.command (encode .build) buildBody ∧
    exec .gen s = s.command (encode .gen) genBody ∧ exec .hdrw s = s.command (encode .hdrw) hdrwBody ∧
    exec .pack s = s.command (encode .pack) packBody ∧ exec .hdrp s = s.command (encode .hdrp) hdrpBody ∧
    exec .unpack s = s.command (encode .unpack) unpackBody ∧ exec .compress s = s.command (encode .compress) compressBody ∧
    exec .decompress s = s.command (encode .decompress) decompressBody :=
  ⟨rfl, rfl, rfl, rfl, rfl, rfl, rfl, rfl, rfl⟩

/-- No command is refused. -/
theorem exec_not_refused (i : Instr) (s : State) (r : Refusal) : exec i s ≠ .refused r := by
  cases i with
  | nop =>
    show execNop s ≠ _
    unfold execNop
    split <;> simp
  | clear => simp [exec, execClear]
  | freq => exact command_not_refused _ _ _ _
  | build => exact command_not_refused _ _ _ _
  | gen => exact command_not_refused _ _ _ _
  | hdrw => exact command_not_refused _ _ _ _
  | pack => exact command_not_refused _ _ _ _
  | hdrp => exact command_not_refused _ _ _ _
  | unpack => exact command_not_refused _ _ _ _
  | compress => exact command_not_refused _ _ _ _
  | decompress => exact command_not_refused _ _ _ _

/-! ## Steps -/

theorem step_nil {s : State} (h : s.hostProgram = []) : step s = .next s := by
  simp [step, State.hostStep, h]

theorem step_cons {s : State} {a : HostAccess} {rest : List HostAccess} (h : s.hostProgram = a :: rest) :
    step s = State.access { s with hostProgram := rest } a := by
  simp [step, State.hostStep, h]

theorem regOffsetOk_iff (off : Nat) : regOffsetOk off = true ↔ off % 4 = 0 ∧ off ≤ 0x3C := by
  simp [regOffsetOk]

/-- A write of `CMD` runs the word; of `IN_LEN`, stores; of any other register, is ignored (10_state.md R15). -/
theorem writeReg_cases (s : State) (off : Nat) (v : Word) :
    s.writeReg off v =
      if off = 0 then s.writeCmd v else if off = 8 then .next { s with inLen := v } else .next s := by
  unfold State.writeReg
  split <;> simp_all

/-- Every way a step can answer a next state. -/
theorem step_next {s t : State} (h : step s = .next t) :
    (s.hostProgram = [] ∧ t = s) ∨
    ∃ a rest u, s.hostProgram = a :: rest ∧ u = { s with hostProgram := rest } ∧
      ((∃ w, a = .writeReg 0 w ∧ u.writeCmd w = .next t) ∨ (∃ w, a = .writeReg 8 w ∧ t = { u with inLen := w }) ∨
        (∃ off w, a = .writeReg off w ∧ off ≠ 0 ∧ off ≠ 8 ∧ t = u) ∨ (∃ i b, i < s.caps.inCap ∧ t = u.writeIn i b) ∨
        (∃ v, t = u.returnRead v) ∨ (a = .reset ∧ t = u.resetBlock)) := by
  cases hp : s.hostProgram with
  | nil =>
    rw [step_nil hp] at h
    cases h
    exact .inl ⟨rfl, rfl⟩
  | cons a rest =>
    rw [step_cons hp] at h
    refine .inr ⟨a, rest, _, rfl, rfl, ?_⟩
    cases a with
    | writeReg off w =>
      simp only [State.access] at h
      split at h
      · rw [writeReg_cases] at h
        split at h
        · subst off
          exact .inl ⟨w, rfl, h⟩
        · split at h
          · subst off
            cases h
            exact .inr (.inl ⟨w, rfl, rfl⟩)
          · cases h
            exact .inr (.inr (.inl ⟨off, w, rfl, ‹_›, ‹_›, rfl⟩))
      · cases h
    | readReg off =>
      simp only [State.access] at h
      split at h
      · cases h
        exact .inr (.inr (.inr (.inr (.inl ⟨_, rfl⟩))))
      · cases h
    | writeIn i b =>
      simp only [State.access] at h
      split at h
      · cases h
        exact .inr (.inr (.inr (.inl ⟨i, b, ‹_›, rfl⟩)))
      · cases h
    | readIn i =>
      simp only [State.access] at h
      split at h
      · cases h
        exact .inr (.inr (.inr (.inr (.inl ⟨_, rfl⟩))))
      · cases h
    | readOut i =>
      simp only [State.access] at h
      split at h
      · cases h
        exact .inr (.inr (.inr (.inr (.inl ⟨_, rfl⟩))))
      · cases h
    | reset =>
      simp only [State.access] at h
      cases h
      exact .inr (.inr (.inr (.inr (.inr ⟨rfl, rfl⟩))))
    | writeOut => cases h
    | otherWidth => cases h
    | duringCommand => cases h

end Sys2Proof.Machine
end

