-- ==== Sys2Proof/Laws/Memory.lean ====
section
/-!
SUPPORT. The laws of a buffer's memory: a read after a write, and that a write keeps the canonical form.
-/
namespace Sys2Proof.Machine

@[simp] theorem Memory.read_nil (i : Nat) : Memory.read [] i = none := rfl

@[simp] theorem Memory.wf_nil : Memory.wf [] := List.Pairwise.nil

/-- The state after reset lists nothing, so both memories have the canonical form. -/
theorem reset_memory_wf : Memory.wf State.reset.inBuf ∧ Memory.wf State.reset.outBuf :=
  ⟨List.Pairwise.nil, List.Pairwise.nil⟩

@[simp] theorem Memory.read_write_self (m : Memory) (i : Nat) (b : Byte) : Memory.read (Memory.write m i b) i = some b := by
  induction m with
  | nil => simp [Memory.write, Memory.read]
  | cons c rest ih =>
    unfold Memory.write
    split
    · simp [Memory.read]
    · split
      · simp [Memory.read]
      · simp [Memory.read, ih, Ne.symm ‹¬i = c.1›]

/-- A write leaves every other index alone. -/
theorem Memory.read_write_ne (m : Memory) (b : Byte) {i j : Nat} (h : i ≠ j) :
    Memory.read (Memory.write m i b) j = Memory.read m j := by
  induction m with
  | nil => simp [Memory.write, Memory.read, h, Memory.unlisted]
  | cons c rest ih =>
    unfold Memory.write
    split
    · simp [Memory.read, h]
    · split
      · simp [Memory.read, h, ← ‹i = c.1›]
      · simp [Memory.read, ih]

theorem Memory.mem_write {m : Memory} {i : Nat} {b : Byte} {c : Host.Cell} (h : c ∈ Memory.write m i b) :
    c = (i, b) ∨ c ∈ m := by
  induction m with
  | nil => simpa [Memory.write] using h
  | cons d rest ih =>
    unfold Memory.write at h
    split at h
    · simpa using h
    · split at h
      · simp only [List.mem_cons] at h ⊢
        tauto
      · simp only [List.mem_cons] at h ⊢
        rcases h with h | h
        · exact .inr (.inl h)
        · rcases ih h with h | h
          · exact .inl h
          · exact .inr (.inr h)

/-- Every memory operation keeps the canonical form. -/
theorem Memory.wf_write {m : Memory} (h : Memory.wf m) (i : Nat) (b : Byte) : Memory.wf (Memory.write m i b) := by
  induction m with
  | nil => simp [Memory.write]
  | cons c rest ih =>
    have hc := List.pairwise_cons.mp h
    unfold Memory.write
    split
    · exact List.pairwise_cons.mpr ⟨fun d hd => by
        rcases List.mem_cons.mp hd with rfl | hd
        · assumption
        · exact lt_trans ‹i < c.1› (hc.1 d hd), h⟩
    · split
      · exact List.pairwise_cons.mpr ⟨fun d hd => ‹i = c.1› ▸ hc.1 d hd, hc.2⟩
      · refine List.pairwise_cons.mpr ⟨fun d hd => ?_, ih hc.2⟩
        rcases Memory.mem_write hd with rfl | hd
        · show c.1 < i
          omega
        · exact hc.1 d hd

/-- A write above every listed index is appended. -/
theorem Memory.write_append {m : Memory} {i : Nat} (h : ∀ c ∈ m, c.1 < i) (b : Byte) :
    Memory.write m i b = m ++ [(i, b)] := by
  induction m with
  | nil => rfl
  | cons c rest ih =>
    have hc : c.1 < i := h c (by simp)
    simp [Memory.write, Nat.not_lt.mpr hc.le, hc.ne', ih fun d hd => h d (by simp [hd])]

end Sys2Proof.Machine
end

