-- ==== Sys2Proof/Laws/Invariant.lean ====
section
/-!
SUPPORT. What each piece of pseudocode does to the parts of the invariant: a byte put into `OUT`, the codes a traversal
stores, and the tables that `FREQ`, `BUILD` and `GEN` fill (10_state.md R26).
-/
namespace Sys2Proof.Machine

/-! ## The output buffer -/

/-- A byte put where there is room keeps the buffers as they must be (20_memory.md R34). -/
theorem put_buffersOk {s : State} (h : s.BuffersOk) (k : s.outLen.toNat < s.caps.outCap) (v : Byte) :
    (s.put v).BuffersOk := by
  have hc := h.caps
  obtain ⟨-, -, -, hc⟩ := hc
  have hn : (s.outLen + 1).toNat = s.outLen.toNat + 1 := by
    rw [BitVec.toNat_add]
    simp
    omega
  have hw : Memory.write s.outBuf s.outLen.toNat v = s.outBuf ++ [(s.outLen.toNat, v)] := by
    refine Memory.write_append (fun c hc => ?_) v
    have : c.1 ∈ s.outBuf.map Prod.fst := List.mem_map_of_mem hc
    rw [h.outRange] at this
    exact List.mem_range.mp this
  refine ⟨h.caps, h.inWf, h.inRange, ?_, ?_⟩
  · simp only [State.put_outBuf, State.put_outLen, hw, hn, List.map_append, h.outRange, List.range_succ]
    rfl
  · simp only [State.put_outLen, State.put_caps, hn]
    exact k

/-- An emitted byte had room. -/
theorem emit_buffersOk {s t : State} {v : Byte} (h : s.BuffersOk) (he : s.emit v = .ok t) : t.BuffersOk := by
  obtain ⟨hne, rfl⟩ := (emit_ok s t v).mp he
  exact put_buffersOk h (Nat.lt_of_le_of_ne h.outFits hne) v

/-- What `OUT` holds after a byte is put: what it held, then that byte. -/
theorem put_outputBytes {s : State} (h : s.BuffersOk) (k : s.outLen.toNat < s.caps.outCap) (v : Byte) :
    (s.put v).outputBytes = s.outputBytes ++ [v] := by
  have hc := h.caps
  obtain ⟨-, -, -, hc⟩ := hc
  have hn : (s.outLen + 1).toNat = s.outLen.toNat + 1 := by
    rw [BitVec.toNat_add]
    simp
    omega
  have hb (i : Nat) (hi : i < s.outLen.toNat) : (s.put v).outByte i = s.outByte i := by
    unfold State.outByte
    rw [State.put_outLen, hn, if_pos (Nat.lt_succ_of_lt hi), if_pos hi, State.put_outBuf,
      Memory.read_write_ne _ _ (Nat.ne_of_gt hi), State.put_draws]
  have hl : (s.put v).outByte s.outLen.toNat = v := by
    unfold State.outByte
    rw [State.put_outLen, hn, if_pos (Nat.lt_succ_self _), State.put_outBuf, Memory.read_write_self, Option.getD_some]
  simp only [State.outputBytes, State.put_outLen, hn, List.range_succ, List.map_append, List.map_singleton, hl]
  congr 1
  exact List.map_congr_left fun i hi => hb i (List.mem_range.mp hi)

/-- With `OUT_LEN` at 0 nothing is held. -/
theorem outRestart_buffersOk {s : State} (h : s.BuffersOk) : s.outRestart.BuffersOk :=
  ⟨h.caps, h.inWf, h.inRange, rfl, Nat.zero_le _⟩

/-- The buffers of two states that differ in neither buffer, its length, nor the capacities. -/
theorem State.BuffersOk.congr {s t : State} (h : s.BuffersOk) (hc : t.caps = s.caps) (hi : t.inBuf = s.inBuf)
    (hl : t.outLen = s.outLen) (ho : t.outBuf = s.outBuf) : t.BuffersOk :=
  ⟨hc ▸ h.caps, hi ▸ h.inWf, by rw [hi, hc]; exact h.inRange, by rw [ho, hl]; exact h.outRange,
    by rw [hl, hc]; exact h.outFits⟩

/-! ## The code table -/

theorem setCode_codesFit {s : State} (h : s.CodesFit) (id : NodeId) {p : BitString} (hp : p.length < 256) :
    (s.setCode id p).CodesFit := by
  intro x
  have hx := h x
  by_cases hid : id.toNat < 256
  · rw [codeString_setCode _ _ _ _ hid, codeLenAt_setCode _ _ _ _ hid]
    split
    · simp
      omega
    · exact hx
  · simpa [State.setCode, State.codeLenAt, tset, hid] using hx

/-- The strings a traversal stores have the lengths it stores beside them (10_state.md R20). -/
theorem visit_codesFit {n : Nat} {s t : State} {id : NodeId} {p : BitString} (h : s.CodesFit) (hp : p.length + n < 256)
    (hv : State.visit n s id p = .ok t) : t.CodesFit := by
  induction n generalizing s t id p with
  | zero =>
    unfold State.visit at hv
    split at hv
    · cases hv
      exact setCode_codesFit h _ (by omega)
    · cases hv
  | succ n ih =>
    unfold State.visit at hv
    split at hv
    · cases hv
      exact setCode_codesFit h _ (by omega)
    · obtain ⟨_, -, hv⟩ := (run_bind_ok _ _ _).mp hv
      obtain ⟨_, -, hv⟩ := (run_bind_ok _ _ _).mp hv
      obtain ⟨u, hu, hv⟩ := (run_bind_ok _ _ _).mp hv
      exact ih (ih h (by simp; omega) hu) (by simp; omega) hv

theorem noCodes_codesFit (s : State) : s.noCodes.CodesFit := by
  intro x
  rw [codeString_noCodes, codeLenAt_noCodes]
  rfl

theorem genBody_codesFit {s t : State} (h : genBody s = .ok t) : t.CodesFit := by
  obtain ⟨_, -, h⟩ := (run_bind_ok _ _ _).mp h
  obtain ⟨u, hu, h⟩ := (run_bind_ok _ _ _).mp h
  obtain rfl := Except.ok.inj h
  have hf : u.CodesFit := by
    unfold State.assignCodes at hu
    split at hu
    · obtain rfl := Except.ok.inj hu
      exact setCode_codesFit (noCodes_codesFit s) _ (by simp)
    · exact visit_codesFit (noCodes_codesFit s) (by simp) hu
  exact hf

/-! ## The tables -/

/-- A completed command's `STATUS` has no error. -/
theorem complete_statusOk (s : State) : s.complete.StatusOk :=
  ⟨fun _ => ⟨rfl, rfl⟩, fun h => (by cases h), fun h => absurd rfl h⟩

/-- After `FREQ` the frequency table is valid and nothing else is (R25, R26). -/
theorem freqBody_inv {s t : State} (hi : s.Inv) (h : freqBody s = .ok t) : t.complete.Inv := by
  obtain ⟨-, rfl⟩ := (freqBody_ok s t).mp h
  exact ⟨hi.buffers.congr rfl rfl rfl rfl, ⟨fun h => (by cases h), fun h => (by cases h), fun h => (by cases h)⟩,
    complete_statusOk _, fun _ => rfl, hi.codesFit, fun h => (by cases h), fun h => (by cases h)⟩

/-- After `BUILD` the arena is its result on the present frequency table (R26). -/
theorem buildBody_inv {s t : State} (hi : s.Inv) (h : buildBody s = .ok t) : t.complete.Inv := by
  obtain ⟨hf, hn, w, l, r, q, k, m, rfl⟩ := buildBody_writes h
  refine ⟨hi.buffers.congr rfl rfl rfl rfl, ⟨fun h => (by cases h), fun _ => ⟨hf, ?_⟩, hi.flags.hdrFreq⟩,
    complete_statusOk _, hi.nsymOk, hi.codesFit, fun _ => ⟨s, _, rfl, h, rfl, rfl, rfl, rfl, rfl⟩, fun h => (by cases h)⟩
  have : s.nsym.toNat ≠ 0 := fun e => hn (BitVec.eq_of_toNat_eq e)
  show 1 ≤ s.nsym.toNat
  omega

/-- After `GEN` the code table is its result on the present arena (R26). -/
theorem genBody_inv {s t : State} (hi : s.Inv) (h : genBody s = .ok t) : t.complete.Inv := by
  have hf := genBody_codesFit h
  obtain ⟨hv, a, c, n, rfl⟩ := genBody_writes h
  exact ⟨hi.buffers.congr rfl rfl rfl rfl, ⟨fun _ => hv, hi.flags.treeFreq, hi.flags.hdrFreq⟩,
    complete_statusOk _, hi.nsymOk, hf, hi.treeBuilt, fun _ => ⟨s, _, rfl, rfl, rfl, rfl, h, rfl, rfl, rfl⟩⟩

end Sys2Proof.Machine
end

