-- ==== Sys2Proof/Laws/PerInstr.lean ====
section
/-!
SUPPORT. The statement made per command: its word decodes to it (30_encoding.md R46, R47). The host's case split names one
lemma per constructor.
-/
namespace Sys2Proof.Laws.Encoding

/-- A well-formed command's word decodes to it, and has its opcode in the field `OP` and zeros in `ZERO`. -/
def Statement (i : Instr) : Prop :=
  i.wellFormed = true →
    decode (encode i) = .ok i ∧ opField (encode i) = opcodeOf i ∧ zeroField (encode i) = 0#24

theorem nop : Statement .nop := fun _ => ⟨rfl, rfl, rfl⟩

theorem clear : Statement .clear := fun _ => ⟨rfl, rfl, rfl⟩

theorem freq : Statement .freq := fun _ => ⟨rfl, rfl, rfl⟩

theorem build : Statement .build := fun _ => ⟨rfl, rfl, rfl⟩

theorem gen : Statement .gen := fun _ => ⟨rfl, rfl, rfl⟩

theorem hdrw : Statement .hdrw := fun _ => ⟨rfl, rfl, rfl⟩

theorem pack : Statement .pack := fun _ => ⟨rfl, rfl, rfl⟩

theorem hdrp : Statement .hdrp := fun _ => ⟨rfl, rfl, rfl⟩

theorem unpack : Statement .unpack := fun _ => ⟨rfl, rfl, rfl⟩

theorem compress : Statement .compress := fun _ => ⟨rfl, rfl, rfl⟩

theorem decompress : Statement .decompress := fun _ => ⟨rfl, rfl, rfl⟩

end Sys2Proof.Laws.Encoding
end

