-- ==== Sys2Proof/Laws/TreeBuilder.lean ====
section
/-!
SUPPORT. What the priority queue does (41_tree_builder.md R62, R63), and what one pass of the merge loop does (R66).
-/
namespace Sys2Proof.Machine

/-! ## The comparator -/

theorem ltNode_iff (w : Vector Weight 511) (a b : NodeId) :
    ltNode w a b = true ↔ (weightAt w a).toNat < (weightAt w b).toNat ∨
      ((weightAt w a).toNat = (weightAt w b).toNat ∧ a.toNat < b.toNat) := by
  simp [ltNode, BitVec.toNat_inj]

/-- The comparator is a strict total order on ids (R62, R63). -/
theorem ltNode_irrefl (w : Vector Weight 511) (a : NodeId) : ¬ ltNode w a a = true := by
  rw [ltNode_iff]
  omega

theorem ltNode_trans {w : Vector Weight 511} {a b c : NodeId} (h : ltNode w a b = true) (k : ltNode w b c = true) :
    ltNode w a c = true := by
  rw [ltNode_iff] at *
  omega

theorem ltNode_total (w : Vector Weight 511) {a b : NodeId} (h : a ≠ b) : ltNode w a b = true ∨ ltNode w b a = true := by
  have h : a.toNat ≠ b.toNat := fun e => h (BitVec.eq_of_toNat_eq e)
  rw [ltNode_iff, ltNode_iff]
  omega

/-! ## The queue -/

theorem mem_queue (s : State) (id : NodeId) : id ∈ s.queue ↔ tget s.inq id.toNat false = true := by
  have hm (i : Nat) : i ∈ indicesOf (fun b => b) s.inq ↔ i < 511 ∧ tget s.inq i false = true :=
    mem_indicesOf (fun b => b) s.inq false i
  rw [State.queue, List.mem_map]
  constructor
  · rintro ⟨i, hi, rfl⟩
    obtain ⟨hi, h⟩ := (hm i).mp hi
    simpa [Nat.mod_eq_of_lt (show i < 512 by omega)] using h
  · intro h
    refine ⟨id.toNat, (hm _).mpr ⟨?_, h⟩, by simp⟩
    by_contra hn
    rw [tget_of_ge _ _ (by omega)] at h
    cases h

theorem queue_nodup (s : State) : s.queue.Nodup := by
  unfold State.queue List.Nodup
  rw [List.pairwise_map]
  refine (indicesOf_sorted (fun b => b) s.inq).imp_of_mem ?_
  intro a b ha hb h e
  have ha := ((mem_indicesOf _ _ false _).mp ha).1
  have hb := ((mem_indicesOf _ _ false _).mp hb).1
  have := congrArg BitVec.toNat e
  simp only [BitVec.toNat_ofNat] at this
  omega

theorem leastNode_none (w : Vector Weight 511) (l : List NodeId) : leastNode w l = none ↔ l = [] := by
  cases l with
  | nil => simp [leastNode]
  | cons x xs =>
    simp only [leastNode, reduceCtorEq, iff_false]
    split
    · simp
    · split <;> simp

/-- `leastNode` gives the member that is before every other member (R62). -/
theorem leastNode_spec {w : Vector Weight 511} {l : List NodeId} {m : NodeId} (h : leastNode w l = some m) :
    m ∈ l ∧ ∀ x ∈ l, x ≠ m → ltNode w m x = true := by
  induction l generalizing m with
  | nil => cases h
  | cons x xs ih =>
    unfold leastNode at h
    split at h
    · obtain rfl := Option.some.inj h
      have hx := (leastNode_none w xs).mp ‹_›
      simp [hx]
    · rename_i k hk
      obtain ⟨hk1, hk2⟩ := ih hk
      split at h
      · obtain rfl := Option.some.inj h
        refine ⟨List.mem_cons_self, fun y hy hne => ?_⟩
        rcases List.mem_cons.mp hy with rfl | hy
        · exact absurd rfl hne
        · by_cases e : y = k
          · subst e
            assumption
          · exact ltNode_trans ‹_› (hk2 y hy e)
      · obtain rfl := Option.some.inj h
        refine ⟨List.mem_cons_of_mem _ hk1, fun y hy hne => ?_⟩
        rcases List.mem_cons.mp hy with rfl | hy
        · rcases ltNode_total w hne with h1 | h1
          · contradiction
          · exact h1
        · exact hk2 y hy hne

/-- `extract_min` takes the least member out of the queue (R62). -/
theorem extractMin_some {s t : State} {m : NodeId} (h : s.extractMin = some (m, t)) :
    m ∈ s.queue ∧ (∀ x ∈ s.queue, x ≠ m → ltNode s.weight m x = true) ∧ t = { s with inq := tset s.inq m.toNat false } := by
  unfold State.extractMin at h
  split at h
  · cases h
  · rename_i k hk
    obtain ⟨h1, h2⟩ := leastNode_spec hk
    cases h
    exact ⟨h1, h2, rfl⟩

theorem extractMin_none (s : State) : s.extractMin = none ↔ s.queue = [] := by
  unfold State.extractMin
  rw [← leastNode_none s.weight]
  split <;> simp_all

/-- What is left in the queue after a member is taken out. -/
theorem mem_queue_removed (s : State) (m id : NodeId) :
    id ∈ State.queue { s with inq := tset s.inq m.toNat false } ↔ id ∈ s.queue ∧ id ≠ m := by
  simp only [mem_queue, tget_tset]
  have e : m.toNat = id.toNat ↔ m = id := BitVec.toNat_inj
  by_cases h : m = id
  · subst h
    by_cases h5 : m.toNat < 511
    · simp [h5]
    · simp [h5, tget_of_ge _ _ (Nat.not_lt.mp h5)]
  · have h' : id ≠ m := fun k => h k.symm
    simp [e, h, h']

theorem nextNode_toNat (s : State) : s.nextNode.toNat = 256 + s.nint.toNat := by
  have := s.nint.isLt
  simp [State.nextNode, BitVec.toNat_add, BitVec.toNat_setWidth]
  omega

/-- What is in the queue after a node is made of two taken out (R66). -/
theorem mem_queue_join (s : State) (a b id : NodeId) (h : s.nint.toNat < 255) :
    id ∈ (s.join a b).queue ↔ id = s.nextNode ∨ id ∈ s.queue := by
  simp only [mem_queue, State.join_inq, tget_tset, nextNode_toNat]
  have e : 256 + s.nint.toNat = id.toNat ↔ id = s.nextNode := by
    rw [← nextNode_toNat, BitVec.toNat_inj, eq_comm]
  have h' : 256 + s.nint.toNat < 511 := by omega
  by_cases k : id = s.nextNode
  · simp [k, h', nextNode_toNat]
  · simp [e, k]

/-! ## The merge loop -/

/-- With fewer than two members the loop ends (R67). -/
theorem mergeLoop_stop {s : State} (h : s.queue.length ≤ 1) (n : Nat) : State.mergeLoop n s = s := by
  cases n with
  | zero => rfl
  | succ n =>
    unfold State.mergeLoop
    split
    · rfl
    · rename_i m t hm
      split
      · rfl
      · rename_i m2 t2 hm2
        obtain ⟨h1, -, rfl⟩ := extractMin_some hm
        obtain ⟨h2, -, -⟩ := extractMin_some hm2
        obtain ⟨h2, hne⟩ := (mem_queue_removed s m m2).mp h2
        match hq : s.queue, h with
        | [], _ => simp [hq] at h1
        | [x], _ => simp [hq] at h1 h2; exact absurd (h2.trans h1.symm) hne

/-- With two members or more the two least become the children of a new node (R66). -/
theorem mergeLoop_step {s : State} (h : 2 ≤ s.queue.length) (n : Nat) :
    ∃ a b s2, State.mergeLoop (n + 1) s = State.mergeLoop n (s2.join a b) ∧
      s2 = { s with inq := tset (tset s.inq a.toNat false) b.toNat false } ∧
      a ∈ s.queue ∧ (∀ x ∈ s.queue, x ≠ a → ltNode s.weight a x = true) ∧
      b ∈ s.queue ∧ b ≠ a ∧ ∀ x ∈ s.queue, x ≠ a → x ≠ b → ltNode s.weight b x = true := by
  cases h1 : s.extractMin with
  | none => simp [(extractMin_none s).mp h1] at h
  | some p =>
    obtain ⟨a, s1⟩ := p
    obtain ⟨ha, ha', e1⟩ := extractMin_some h1
    cases h2 : s1.extractMin with
    | none =>
      have hq := (extractMin_none s1).mp h2
      have hn := queue_nodup s
      match hs : s.queue, h with
      | x :: y :: l, _ =>
        rw [hs] at hn
        have hxy : x ≠ y := by simp at hn; tauto
        have key (z : NodeId) (hz : z ∈ s.queue) : z = a := by
          by_contra hza
          have := (mem_queue_removed s a z).mpr ⟨hz, hza⟩
          rw [← e1, hq] at this
          cases this
        exact absurd ((key x (by simp [hs])).trans (key y (by simp [hs])).symm) hxy
    | some q =>
      obtain ⟨b, s2⟩ := q
      obtain ⟨hb, hb', e2⟩ := extractMin_some h2
      subst e1
      obtain ⟨hb1, hb2⟩ := (mem_queue_removed s a b).mp hb
      refine ⟨a, b, s2, ?_, e2, ha, ha', hb1, hb2, fun x hx hxa hxb => ?_⟩
      · rw [State.mergeLoop, h1]
        simp only
        rw [h2]
      · exact hb' x ((mem_queue_removed s a x).mpr ⟨hx, hxa⟩) hxb

/-! ## Initialisation -/

theorem mem_queue_init (s : State) (id : NodeId) :
    id ∈ s.initQueue.queue ↔ id.toNat < 256 ∧ tget s.freq id.toNat 0 ≠ 0 := by
  rw [mem_queue]
  by_cases h : id.toNat < 511
  · simp [State.initQueue, h]
  · rw [tget_of_ge _ _ (by omega)]
    simp
    omega

/-- Every present leaf has its frequency as its weight (R65). -/
theorem weightAt_init (s : State) (id : NodeId) (h : id ∈ s.initQueue.queue) :
    (weightAt s.initQueue.weight id).toNat = (tget s.freq id.toNat 0).toNat := by
  obtain ⟨h1, h2⟩ := (mem_queue_init s id).mp h
  have hf := (tget s.freq id.toNat 0).isLt
  have hw : weightAt s.initQueue.weight id = (tget s.freq id.toNat 0).setWidth 40 := by
    rw [weightAt, State.initQueue, tget_tabulate _ _ (by omega), if_pos ⟨h1, h2⟩]
  rw [hw, BitVec.toNat_setWidth]
  omega

end Sys2Proof.Machine
end

