-- ==== Sys2Proof/Tests/Slice0.lean ====
section
/-!
SUPPORT. Tests of the model: the command words, well-formedness, one step of each command on a vector of
95_test_vectors.md, and, for each statement with hypotheses, a state that meets them.
-/
namespace Sys2Proof.Tests
open Sys2Proof Sys2Proof.Machine Sys2Proof.Claims

/-! ## Helpers -/

/-- Does an outcome go on to a state with `p`? -/
def goesOn (o : Host.Outcome State Fault Refusal) (p : State → Bool) : Bool :=
  match o with
  | .next t => p t
  | _ => false

/-- Does an outcome go on to a completed command's state with `p`? -/
def finishes (o : Host.Outcome State Fault Refusal) (p : State → Bool) : Bool := goesOn o fun t => t.phase == .done && p t

/-- Does a piece of pseudocode end in a state with `p`? -/
def answers (r : Run State) (p : State → Bool) : Bool :=
  match r with
  | .ok t => p t
  | .error _ => false

theorem goesOn_next {o : Host.Outcome State Fault Refusal} {p : State → Bool} (h : goesOn o p = true) :
    ∃ t, o = .next t ∧ p t = true := by
  cases o with
  | next t => exact ⟨t, rfl, h⟩
  | fault _ => cases h
  | refused _ => cases h

theorem finishes_next {o : Host.Outcome State Fault Refusal} {p : State → Bool} (h : finishes o p = true) :
    ∃ t, o = .next t ∧ t.phase = .done ∧ p t = true := by
  obtain ⟨t, ht, hp⟩ := goesOn_next h
  simp only [Bool.and_eq_true, beq_iff_eq] at hp
  exact ⟨t, ht, hp⟩

theorem answers_ok {r : Run State} {p : State → Bool} (h : answers r p = true) : ∃ t, r = .ok t ∧ p t = true := by
  cases r with
  | ok t => exact ⟨t, rfl, h⟩
  | error _ => cases h

/-- The cells of a buffer that holds the bytes of `l` from index 0. -/
def cells (l : List Byte) : Memory := (List.range l.length).zip l

/-- `s` with `l` in `IN` and its length in `IN_LEN`. -/
def State.holding (s : State) (l : List Byte) : State := { s with inBuf := cells l, inLen := BitVec.ofNat 32 l.length }

/-- After reset, with small buffers. -/
def small : State := State.powerOn ⟨64, 1400⟩ 0 0

/-- A frequency table from its entries above 0. -/
def table (es : List (Byte × Word)) : Vector (BitVec 32) 256 :=
  es.foldl (fun f e => tset f e.1.toNat e.2) (Vector.replicate 256 0)

/-- A completed `FREQ` that counted `es`. -/
def counted (es : List (Byte × Word)) : State :=
  { State.powerOn ⟨256, 1400⟩ 0 0 with
    phase := .done, freqV := true, nsym := BitVec.ofNat 9 es.length, freq := table es }

/-- The alphabet of "abcc". -/
def abcc : List (Byte × Word) := [(0x61, 1), (0x62, 1), (0x63, 2)]

/-- The tables of "abcc" as V23 and V35 give them. -/
def abccCoded : State :=
  { counted abcc with
    treeV := true, codeV := true, nint := 2, root := 257, lbits := 6
    left := tset (tset (Vector.replicate 255 0) 0 0x61) 1 0x63
    right := tset (tset (Vector.replicate 255 0) 0 0x62) 1 256
    codeLen := tset (tset (tset (Vector.replicate 256 0) 0x61 2) 0x62 2) 0x63 1
    code := tset (tset (tset (Vector.replicate 256 []) 0x61 [true, false]) 0x62 [true, true]) 0x63 [false] }

/-! ## Command words, bit by bit (30_encoding.md R46, R47) -/

theorem test_decode_nop : decode 0b00000000000000000000000000000000#32 = .ok .nop := by decide
theorem test_decode_clear : decode 0b00000000000000000000000000000001#32 = .ok .clear := by decide
theorem test_decode_freq : decode 0b00000000000000000000000000000010#32 = .ok .freq := by decide
theorem test_decode_build : decode 0b00000000000000000000000000000011#32 = .ok .build := by decide
theorem test_decode_gen : decode 0b00000000000000000000000000000100#32 = .ok .gen := by decide
theorem test_decode_hdrw : decode 0b00000000000000000000000000000101#32 = .ok .hdrw := by decide
theorem test_decode_pack : decode 0b00000000000000000000000000000110#32 = .ok .pack := by decide
theorem test_decode_hdrp : decode 0b00000000000000000000000000000111#32 = .ok .hdrp := by decide
theorem test_decode_unpack : decode 0b00000000000000000000000000001000#32 = .ok .unpack := by decide
theorem test_decode_compress : decode 0b00000000000000000000000000001001#32 = .ok .compress := by decide
theorem test_decode_decompress : decode 0b00000000000000000000000000001010#32 = .ok .decompress := by decide

/-- V7: `OP` 0x0B is reserved. -/
theorem test_decode_reserved : decode 0b00000000000000000000000000001011#32 = .error .reservedOpcode := by decide

/-- V8: `OP` is that of `COMPRESS`, but `ZERO` is not 0. -/
theorem test_decode_zero_field : decode 0x00000109#32 = .error .zeroField := by decide

/-- V9. -/
theorem test_decode_all_ones : decode 0xFFFFFFFF#32 = .error .zeroField := by decide

/-- A table row's word is the command word, and bits above the row's are 0. -/
theorem test_table_word : decodeTableWord 32 0x05 = some .hdrw ∧ decodeTableWord 32 0x0B = none ∧
    decodeTableWord 8 0x107 = some .hdrp := by decide

/-! ## Well-formedness: an ill-formed term for each check -/

theorem test_wf_instr (i : Instr) : i.wellFormed = true := by cases i <;> rfl

theorem test_wf_register_offset : HostAccess.wellFormed ⟨64, 1400⟩ (.writeReg 0x3C 0) = true ∧
    HostAccess.wellFormed ⟨64, 1400⟩ (.writeReg 0x02 0) = false ∧
    HostAccess.wellFormed ⟨64, 1400⟩ (.readReg 0x40) = false := by decide

theorem test_wf_in_index : HostAccess.wellFormed ⟨64, 1400⟩ (.writeIn 63 0) = true ∧
    HostAccess.wellFormed ⟨64, 1400⟩ (.writeIn 64 0) = false ∧
    HostAccess.wellFormed ⟨64, 1400⟩ (.readIn 64) = false := by decide

theorem test_wf_out_index : HostAccess.wellFormed ⟨64, 1400⟩ (.readOut 1399) = true ∧
    HostAccess.wellFormed ⟨64, 1400⟩ (.readOut 1400) = false := by decide

theorem test_wf_outside : HostAccess.wellFormed ⟨64, 1400⟩ (.writeOut 0 0) = false ∧
    HostAccess.wellFormed ⟨64, 1400⟩ (.otherWidth .reg 0 1) = false ∧
    HostAccess.wellFormed ⟨64, 1400⟩ .duringCommand = false ∧ HostAccess.wellFormed ⟨64, 1400⟩ .reset = true := by decide

/-! ## The host's port -/

/-- V1: every register reads 0 after reset. -/
theorem test_reset_registers :
    [0x00, 0x04, 0x08, 0x0C, 0x10, 0x14, 0x18, 0x1C, 0x20, 0x24].map State.reset.readReg = List.replicate 10 0 := by
  decide

/-- V3: a write of `OUT_LEN` is ignored. -/
theorem test_read_only : small.writeReg 0x0C 7 = .next small := rfl

/-- V12: `IN_LEN` stores. -/
theorem test_in_len : goesOn (small.writeReg 0x08 5) (fun t => t.readReg 0x08 == 5) = true := rfl

/-- V7: an illegal word. -/
theorem test_illegal : goesOn (small.writeCmd 0x0B) (fun t => t.readReg 0 == 0x0B && t.statusWord == 0x00000302) = true := by
  decide

/-- The host program of 30_encoding.md R58 for loading two bytes. -/
theorem test_host_load : hostLoad [0x61, 0x62] = [.writeIn 0 0x61, .writeIn 1 0x62, .writeReg 0x08 2] := by decide

/-- A command by its mnemonic, and reading out two bytes (R58). -/
theorem test_host_command : hostCommand .compress = .writeReg 0x00 0x00000009 ∧
    hostReadOut 2 = [.readReg 0x0C, .readOut 0, .readOut 1] := by decide

/-- The word placed for the next step is the host's next access. -/
theorem test_fetch_word : (State.reset.withFetchWord 32 0x02).hostProgram = [.writeReg 0 0x02] := by decide

/-! ## One step of each command -/

/-- V5: `NOP` keeps `STATUS`. -/
theorem test_nop : goesOn (exec .nop { small with phase := .done, cmd := 9, outLen := 33 })
    (fun t => t.cmd == 0 && t.statusWord == 1 && t.outLen == 33) = true := by decide

/-- V10: `NOP` is ignored in `ERROR`. -/
theorem test_nop_in_error : goesOn (exec .nop { small with phase := .error, cmd := 0x0B, err := 3 })
    (fun t => t.cmd == 0x0B && t.statusWord == 0x00000302) = true := by decide

/-- V11: `CLEAR` leaves `ERROR`. -/
theorem test_clear : goesOn (exec .clear { small with phase := .error, cmd := 0x0B, err := 3, inLen := 5, pad := 2 })
    (fun t => t.cmd == 1 && t.statusWord == 0 && t.inLen == 5 && t.pad == 0) = true := by decide

/-- V14, cut to "abra". -/
theorem test_freq : finishes (exec .freq (State.holding small [0x61, 0x62, 0x72, 0x61])) (fun t =>
    ([0x61, 0x62, 0x63, 0x72].map (freqAt t.freq) == [2, 1, 0, 1]) && t.nsym == 3 && t.statusWord == 0x00000005) = true := by
  decide +kernel

/-- V17. -/
theorem test_freq_in_len : goesOn (exec .freq { small with inLen := 65 }) (fun t =>
    t.statusWord == 0x00020502 && t.inLen == 65) = true := by decide +kernel

/-- V23: the leaf is taken before the internal node of equal weight. -/
theorem test_build : finishes (exec .build (counted abcc)) (fun t =>
    t.treeWord == 0x00020101 && ([0, 1].map (leftOf t) == [97, 99]) && ([0, 1].map (rightOf t) == [98, 256])
      && ([256, 257].map (weightOf t.weight) == [2, 4])) = true := by decide +kernel

/-- V30: the empty alphabet. -/
theorem test_build_empty : goesOn (exec .build (counted [])) (fun t => t.statusWord == 0x00020402) = true := by
  decide +kernel

/-- V35. -/
theorem test_gen : finishes (exec .gen { abccCoded with codeV := false, lbits := 0, code := Vector.replicate 256 [true] })
    (fun t => ([0x61, 0x62, 0x63, 0x64].map (codeString t) == [[true, false], [true, true], [false], []]) &&
      ([0x61, 0x62, 0x63, 0x64].map t.codeLenAt == [2, 2, 1, 0]) && t.lbits == 6) = true := by decide +kernel

/-- V31: one symbol. -/
theorem test_gen_one : goesOn (exec .gen { counted [(0x61, 4)] with treeV := true, root := 0x61 })
    (fun t => codeString t 0x61 == [false] && t.lbits == 4) = true := by decide +kernel

/-- V48: the header of "abcc". -/
theorem test_hdrw : finishes (exec .hdrw abccCoded) (fun t => t.outLen == 20 && t.pad == 2 &&
    t.outputBytes == [0, 0, 0, 3, 0x61, 0, 0, 0, 1, 0x62, 0, 0, 0, 1, 0x63, 0, 0, 0, 2, 2]) = true := by decide +kernel

/-- V53. -/
theorem test_hdrw_precond : goesOn (exec .hdrw small) (fun t => t.statusWord == 0x00040402) = true := by decide

/-- V48: the payload of "abcc", appended. -/
theorem test_pack : finishes (exec .pack (State.holding { abccCoded with outLen := 1, outBuf := [(0, 7)] }
    [0x61, 0x62, 0x63, 0x63])) (fun t => t.outputBytes == [7, 0xB0] && t.pad == 2) = true := by
  decide +kernel

/-- V58: a byte without a code. -/
theorem test_pack_no_code : goesOn (exec .pack (State.holding abccCoded [0x61, 0x64]))
    (fun t => t.statusWord == 0x00010202 && t.outLen == 0) = true := by decide +kernel

/-- V69. -/
theorem test_hdrp : finishes (exec .hdrp (State.holding small [0, 0, 0, 1, 0x61, 0, 0, 0, 4, 4, 0])) (fun t =>
    t.nsym == 1 && freqAt t.freq 0x61 == 4 && freqAt t.freq 0x62 == 0 && t.pad == 4 && t.inPos == 10 &&
      t.statusWord == 0x00000025) = true := by decide +kernel

/-- V69b: a zero frequency. -/
theorem test_hdrp_zero : goesOn (exec .hdrp (State.holding small [0, 0, 0, 1, 0x61, 0, 0, 0, 0, 4, 0]))
    (fun t => t.statusWord == 0x00040102) = true := by decide +kernel

/-- The payload of V48 decodes to "abcc". -/
theorem test_unpack : finishes (exec .unpack { State.holding abccCoded [0xB0] with hdrV := true, pad := 2 })
    (fun t => t.outputBytes == [0x61, 0x62, 0x63, 0x63]) = true := by decide +kernel

/-- Bits that end inside the tree: "000001" leaves the cursor at node 256. -/
theorem test_unpack_exhausted : goesOn (exec .unpack { State.holding abccCoded [0x04] with hdrV := true, pad := 2 })
    (fun t => t.statusWord == 0x00070102 && t.outLen == 0) = true := by decide +kernel

/-- V41. -/
theorem test_compress : finishes (exec .compress (State.holding small [0x61, 0x61, 0x61, 0x61])) (fun t =>
    t.outLen == 11 && t.outBuf == cells [0, 0, 0, 1, 0x61, 0, 0, 0, 4, 4, 0] && t.pad == 4 && t.lbits == 4 &&
      t.statusWord == 0x0000001D) = true := by decide +kernel

/-- V41 and FZ §8, decoded. -/
theorem test_decompress : finishes (exec .decompress (State.holding small [0, 0, 0, 1, 0x61, 0, 0, 0, 4, 4, 0])) (fun t =>
    t.outputBytes == [0x61, 0x61, 0x61, 0x61] && t.statusWord == 0x0000003D) = true := by decide +kernel

/-- FZ §8 with the last byte cut off: `FORMAT` detail 6. -/
theorem test_decompress_short : goesOn (exec .decompress (State.holding small [0, 0, 0, 1, 0x61, 0, 0, 0, 4, 4]))
    (fun t => t.statusWord == 0x00060102 && t.outLen == 0) = true := by decide +kernel

/-! ## States that meet the hypotheses of the statements -/

theorem read_cells_from (l : List Byte) : ∀ k i, Memory.read ((List.range' k l.length).zip l) (k + i) = l[i]? := by
  induction l with
  | nil => intro k i; simp
  | cons b l ih =>
    intro k i
    rw [List.length_cons, List.range'_succ, List.zip_cons_cons, Memory.read]
    cases i with
    | zero => simp
    | succ i =>
      rw [if_neg (by simp), show k + (i + 1) = k + 1 + i by omega, ih]
      simp

/-- What a buffer holds after `cells`. -/
theorem read_cells (l : List Byte) (i : Nat) : Memory.read (cells l) i = l[i]? := by
  have := read_cells_from l 0 i
  rwa [Nat.zero_add, ← List.range_eq_range'] at this

theorem map_getD_cells (l : List Byte) (f : Nat → Byte) :
    ((List.range l.length).map fun i => (Memory.read (cells l) i).getD (f i)) = l := by
  apply List.ext_getElem
  · simp
  · intro i h1 h2
    simp [read_cells, List.getElem?_eq_getElem h2]

theorem holding_inputBytes (s : State) {l : List Byte} (h : l.length < 2 ^ 32) : (State.holding s l).inputBytes = l := by
  have : (BitVec.ofNat 32 l.length).toNat = l.length := by
    rw [BitVec.toNat_ofNat, Nat.mod_eq_of_lt h]
  simp only [State.inputBytes, State.holding, this]
  exact map_getD_cells l _

theorem outputBytes_of_cells {t : State} {l : List Byte} (h : t.outLen.toNat = l.length) (hb : t.outBuf = cells l) :
    t.outputBytes = l := by
  rw [State.outputBytes, h]
  refine (List.map_congr_left fun i hi => ?_).trans (map_getD_cells l (Config.freeOut t.draws))
  rw [State.outByte, h, if_pos (List.mem_range.mp hi), hb]

theorem cells_wf (l : List Byte) : Memory.wf (cells l) := by
  have h : ((cells l).map Prod.fst).Pairwise (· < ·) := by
    rw [cells, List.map_fst_zip (by simp)]
    exact List.pairwise_lt_range
  rwa [List.pairwise_map] at h

theorem cells_lt {l : List Byte} {c : Host.Cell} (h : c ∈ cells l) : c.1 < l.length :=
  List.mem_range.mp (List.of_mem_zip h).1

/-- A completed `FREQ` of a listed alphabet meets the invariant. -/
theorem counted_inv {es : List (Byte × Word)} (h : nsymOf (table es) = BitVec.ofNat 9 es.length) : (counted es).Inv := by
  refine ⟨⟨show Caps.ok ⟨256, 1400⟩ by decide, List.Pairwise.nil, fun c hc => (by cases hc), rfl, Nat.zero_le _⟩,
    ⟨fun h => (by cases h), fun h => (by cases h), fun h => (by cases h)⟩,
    ⟨fun _ => ⟨rfl, rfl⟩, fun h => (by cases h), fun h => absurd rfl h⟩, fun _ => h.symm, fun x => ?_,
    fun h => (by cases h), fun h => (by cases h)⟩
  show (tget (freeCodeTable 0) x.toNat []).length = (tget (freeCodeLenTable 0) x.toNat 0).toNat
  rw [freeCodeTable, freeCodeLenTable, tget_tabulate _ _ x.isLt, tget_tabulate _ _ x.isLt]
  simp

/-- `BUILD` then `GEN` on a listed alphabet. -/
def coding (es : List (Byte × Word)) : Run State := do
  let t ← buildBody (counted es)
  let u ← genBody t.complete
  .ok u.complete

/-- A state in which the tables of the alphabet `es` have been made and nothing is in the buffers. -/
structure Coded (es : List (Byte × Word)) (s : State) : Prop where
  inv : s.Inv
  phase : s.phase = .done
  freqV : s.freqV = true
  treeV : s.treeV = true
  codeV : s.codeV = true
  hdrV : s.hdrV = false
  freq : s.freq = table es
  nsym : s.nsym = BitVec.ofNat 9 es.length
  caps : s.caps = ⟨256, 1400⟩
  inPos : s.inPos = 0
  outLen : s.outLen = 0

theorem coded_of {es : List (Byte × Word)} {p : State → Bool} (hn : nsymOf (table es) = BitVec.ofNat 9 es.length)
    (h : answers (coding es) p = true) : ∃ s, Coded es s ∧ p s = true := by
  obtain ⟨s, hs, hp⟩ := answers_ok h
  refine ⟨s, ?_, hp⟩
  obtain ⟨t, ht, hs⟩ := (run_bind_ok _ _ _).mp hs
  obtain ⟨u, hu, hs⟩ := (run_bind_ok _ _ _).mp hs
  have hi := genBody_inv (buildBody_inv (counted_inv hn) ht) hu
  obtain rfl := Except.ok.inj hs
  obtain ⟨-, -, _, _, _, _, _, _, rfl⟩ := buildBody_writes ht
  obtain ⟨-, _, _, _, rfl⟩ := genBody_writes hu
  exact ⟨hi, rfl, rfl, rfl, rfl, rfl, rfl, rfl, rfl, rfl, rfl⟩

/-- The tables of "abcc" (V23, V35). -/
theorem abcc_coded : ∃ s, Coded abcc s ∧ s.root = 257 ∧ s.nint = 2 ∧ s.lbits = 6 ∧ codeString s 0x61 = [true, false] ∧
    codeString s 0x62 = [true, true] ∧ codeString s 0x63 = [false] ∧ s.codeLenAt 0x61 = 2 ∧ s.codeLenAt 0x62 = 2 ∧
    s.codeLenAt 0x63 = 1 ∧ s.codeLenAt 0x64 = 0 := by
  have h : answers (coding abcc) (fun s => (s.root == 257 && s.nint == 2 && s.lbits == 6) &&
    ([0x61, 0x62, 0x63].map (codeString s) == [[true, false], [true, true], [false]]) &&
    ([0x61, 0x62, 0x63, 0x64].map s.codeLenAt == [2, 2, 1, 0])) = true := by decide +kernel
  obtain ⟨s, hs, hp⟩ := coded_of (by decide +kernel) h
  simp only [Bool.and_eq_true, beq_iff_eq, List.map_cons, List.map_nil, List.cons.injEq, and_true] at hp
  obtain ⟨⟨⟨⟨hr, hn⟩, hl⟩, ha, hb, hc⟩, la, lb, lc, ld⟩ := hp
  exact ⟨s, hs, hr, hn, hl, ha, hb, hc, la, lb, lc, ld⟩

/-- The tables of "aaaa" (V19, V31). -/
theorem one_coded : ∃ s, Coded [(0x61, 4)] s ∧ s.root = 0x61 ∧ s.lbits = 4 ∧ codeString s 0x61 = [false] := by
  have h : answers (coding [(0x61, 4)]) (fun s => s.root == 0x61 && s.lbits == 4 && codeString s 0x61 == [false]) = true := by
    decide +kernel
  obtain ⟨s, hs, hp⟩ := coded_of (by decide +kernel) h
  simp only [Bool.and_eq_true, beq_iff_eq] at hp
  exact ⟨s, hs, hp.1.1, hp.1.2, hp.2⟩

/-- One symbol, more often than `OUT` has bytes. -/
theorem many_coded : ∃ s, Coded [(0x61, 2000)] s ∧ s.root = 0x61 ∧ s.lbits = 2000 := by
  have h : answers (coding [(0x61, 2000)]) (fun s => s.root == 0x61 && s.lbits == 2000) = true := by decide +kernel
  obtain ⟨s, hs, hp⟩ := coded_of (by decide +kernel) h
  simp only [Bool.and_eq_true, beq_iff_eq] at hp
  exact ⟨s, hs, hp.1, hp.2⟩

/-- Two symbols, one of them more often than `OUT` has bytes. -/
theorem wide_coded : ∃ s, Coded [(0x61, 1599), (0x62, 1)] s ∧ s.root = 256 ∧ s.lbits = 1600 ∧ codeString s 0x61 = [true] := by
  have h : answers (coding [(0x61, 1599), (0x62, 1)])
    (fun s => s.root == 256 && s.lbits == 1600 && codeString s 0x61 == [true]) = true := by decide +kernel
  obtain ⟨s, hs, hp⟩ := coded_of (by decide +kernel) h
  simp only [Bool.and_eq_true, beq_iff_eq] at hp
  exact ⟨s, hs, hp.1.1, hp.1.2, hp.2⟩

/-- `s` after a host program and an `HDRP` that left the payload `l` at index 0. -/
def State.streaming (s : State) (l : List Byte) (pad : BitVec 3) : State :=
  { State.holding s l with pad := pad, hdrV := true }

theorem streaming_inv {es : List (Byte × Word)} {s : State} (h : Coded es s) (l : List Byte) (pad : BitVec 3)
    (hl : l.length ≤ 256) : (State.streaming s l pad).Inv := by
  have hi := h.inv
  have hc : s.caps.inCap = 256 := by rw [h.caps]
  refine ⟨⟨hi.buffers.caps, cells_wf l, fun c hm => ?_, hi.buffers.outRange, hi.buffers.outFits⟩,
    ⟨hi.flags.codeTree, hi.flags.treeFreq, fun _ => h.freqV⟩, ⟨hi.status.noError, hi.status.inError, ?_⟩, hi.nsymOk,
    hi.codesFit, hi.treeBuilt, hi.codesGenerated⟩
  · have := cells_lt hm
    show c.1 < s.caps.inCap
    omega
  · intro hp
    exact absurd h.phase hp

theorem holding_inv {es : List (Byte × Word)} {s : State} (h : Coded es s) (l : List Byte) (hl : l.length ≤ 256) :
    (State.holding s l).Inv := by
  have hi := h.inv
  have hc : s.caps.inCap = 256 := by rw [h.caps]
  refine ⟨⟨hi.buffers.caps, cells_wf l, fun c hm => ?_, hi.buffers.outRange, hi.buffers.outFits⟩,
    ⟨hi.flags.codeTree, hi.flags.treeFreq, hi.flags.hdrFreq⟩,
    ⟨hi.status.noError, hi.status.inError, ?_⟩, hi.nsymOk, hi.codesFit, hi.treeBuilt, hi.codesGenerated⟩
  · have := cells_lt hm
    show c.1 < s.caps.inCap
    omega
  · intro hp
    exact absurd h.phase hp

theorem small_ready (l : List Byte) : (State.holding small l).ready := show Phase.idle ≠ .error by decide

/-! ### The command word, errors, the host -/

theorem test_witness_illegal_word : ∃ (s : State) (w : Word), s.ready ∧ ∀ i, decode w ≠ .ok i :=
  ⟨small, 0x0B, by decide, by intro i; cases i <;> decide⟩

theorem test_witness_step : ∃ (s : State) (w : Word) (i : Instr) (rest : List HostAccess),
    s.hostProgram = .writeReg 0x00 w :: rest ∧ decode w = .ok i :=
  ⟨small.withFetchWord 32 2, 2, .freq, [], by decide, by decide⟩

theorem test_witness_idle : ∃ s : State, s.hostProgram = [] := ⟨small, rfl⟩

theorem test_witness_error_entry : ∃ s u : State, s.nsym ≠ u.nsym ∧ s.cmd = u.cmd ∧ s.inLen = u.inLen ∧
    s.inBuf = u.inBuf ∧ s.caps = u.caps ∧ s.draws = u.draws ∧ s.resets = u.resets ∧ s.hostProgram = u.hostProgram ∧
    s.hostReads = u.hostReads :=
  ⟨small, { small with nsym := 5 }, by decide, rfl, rfl, rfl, rfl, rfl, rfl, rfl, rfl⟩

theorem test_witness_in_error : ∃ (s t : State) (a : HostAccess) (rest : List HostAccess) (w : Word),
    s.phase = .error ∧ w ≠ 1 ∧ s.hostProgram = a :: rest ∧ a ≠ .writeReg 0x00 1 ∧ a ≠ .reset ∧ step s = .next t :=
  ⟨{ small with phase := .error, hostProgram := [.writeReg 0 0] }, { small with phase := .error }, _, [], 0,
    rfl, by decide, rfl, by decide, by decide, rfl⟩

theorem test_witness_precond : (∃ s : State, s.ready ∧ s.freqV = false ∧ s.treeV = false ∧ s.codeV = false) ∧
    (∃ s : State, s.ready ∧ s.freqV = true ∧ s.nsym = 0) ∧ ∃ s : State, s.ready ∧ s.codeV = true ∧ s.hdrV = false :=
  ⟨⟨small, by decide, rfl, rfl, rfl⟩, ⟨counted [], by decide, rfl, rfl⟩, ⟨abccCoded, by decide, rfl, rfl⟩⟩

theorem test_witness_composites : (∃ s t : State, s.ready ∧ exec .compress s = .next t) ∧
    ∃ s t : State, s.ready ∧ exec .decompress s = .next t := by
  obtain ⟨t, h, -⟩ := finishes_next test_compress
  obtain ⟨u, k, -⟩ := finishes_next test_decompress
  exact ⟨⟨_, t, by decide, h⟩, ⟨_, u, by decide, k⟩⟩

theorem test_witness_in_len_range : ∃ s : State, s.ready ∧ s.caps.inCap < s.inLen.toNat ∧ s.codeV = true ∧ s.hdrV = true :=
  ⟨{ small with inLen := 65, codeV := true, hdrV := true }, by decide, by decide, rfl, rfl⟩

theorem test_witness_nop : (∃ s : State, s.ready) ∧ ∃ s : State, s.phase = .error :=
  ⟨⟨small, by decide⟩, ⟨{ small with phase := .error }, rfl⟩⟩

theorem test_witness_reset : ∃ (u : State) (rest : List HostAccess), u.hostProgram = .reset :: rest ∧ u.pad ≠ 0 :=
  ⟨{ small with pad := 3, hostProgram := [.reset] }, [], rfl, by decide⟩

theorem test_witness_host_primitives : ∃ s1 s2 s3 s4 s5 s6 : State, ∃ rest : List HostAccess,
    (s1.hostProgram = .readReg 0x3C :: rest ∧ 0x3C % 4 = 0 ∧ 0x3C ≤ 0x3C) ∧
    (s2.hostProgram = .readIn 63 :: rest ∧ 63 < s2.caps.inCap) ∧
    (s3.hostProgram = .readOut 1399 :: rest ∧ 1399 < s3.caps.outCap) ∧ s4.hostProgram = .writeReg 0x08 7 :: rest ∧
    s5.hostProgram = .writeReg 0x04 7 :: rest ∧ (s6.hostProgram = .writeIn 63 7 :: rest ∧ 63 < s6.caps.inCap) :=
  ⟨{ small with hostProgram := [.readReg 0x3C] }, { small with hostProgram := [.readIn 63] },
    { small with hostProgram := [.readOut 1399] }, { small with hostProgram := [.writeReg 0x08 7] },
    { small with hostProgram := [.writeReg 0x04 7] }, { small with hostProgram := [.writeIn 63 7] }, [],
    by decide, by decide, by decide, by decide, by decide, by decide⟩

theorem test_witness_refused : ∀ a ∈ [HostAccess.writeReg 2 0, .readReg 0x40, .writeIn 64 0, .readIn 64, .readOut 1400,
    .writeOut 0 0, .otherWidth .input 0 4, .duringCommand], ∃ r, step { small with hostProgram := [a] } = .refused r := by
  simp [step, State.hostStep, State.access, small, State.powerOn, regOffsetOk]

theorem test_witness_other_access : ∃ (s t : State) (a : HostAccess) (rest : List HostAccess),
    s.hostProgram = a :: rest ∧ (∀ w, a ≠ .writeReg 0x00 w) ∧ a ≠ .reset ∧ step s = .next t :=
  ⟨{ small with hostProgram := [.writeReg 8 5] }, _, _, [], rfl, by intro w; simp, by decide, rfl⟩

/-! ### Every command completes somewhere -/

theorem completes_of {s : State} {i : Instr} {p : State → Bool} (h : finishes (exec i s) p = true) (hs : s.ready) :
    ∃ s t : State, s.ready ∧ exec i s = .next t ∧ t.phase = .done := by
  obtain ⟨t, ht, hd, -⟩ := finishes_next h
  exact ⟨s, t, hs, ht, hd⟩

theorem test_witness_completes (i : Instr) (hn : i ≠ .nop) (hc : i ≠ .clear) :
    ∃ s t : State, s.ready ∧ exec i s = .next t ∧ t.phase = .done := by
  cases i with
  | nop => exact absurd rfl hn
  | clear => exact absurd rfl hc
  | freq => exact completes_of test_freq (by decide)
  | build => exact completes_of test_build (by decide)
  | gen => exact completes_of test_gen (by decide)
  | hdrw => exact completes_of test_hdrw (by decide)
  | pack => exact completes_of test_pack (by decide)
  | hdrp => exact completes_of test_hdrp (by decide)
  | unpack => exact completes_of test_unpack (by decide)
  | compress => exact completes_of test_compress (by decide)
  | decompress => exact completes_of test_decompress (by decide)

theorem test_witness_system_commands : ∃ s t u : State, s.ready ∧ exec .nop s = .next t ∧ t.phase ≠ .error ∧
    exec .clear s = .next u ∧ u.phase ≠ .error :=
  ⟨small, _, _, by decide, rfl, by decide, rfl, by decide⟩

theorem test_witness_error_clears_flags : ∃ s t : State, s.ready ∧ exec .freq s = .next t ∧ t.phase = .error := by
  have h : goesOn (exec .freq { small with inLen := 65 }) (fun t => t.phase == .error) = true := by decide +kernel
  obtain ⟨t, ht, h⟩ := goesOn_next h
  exact ⟨_, t, by decide, ht, by simpa using h⟩

theorem test_witness_pack_frame : ∃ s t : State, s.ready ∧ exec .pack s = .next t ∧ t.phase ≠ .error ∧ s.BuffersOk ∧
    0 < s.outLen.toNat := by
  obtain ⟨t, ht, hd, -⟩ := finishes_next test_pack
  refine ⟨_, t, by decide, ht, by simp [hd], ⟨by decide, cells_wf _, fun c hc => ?_, by decide, by decide⟩, by decide⟩
  exact (cells_lt hc).trans (by decide)

theorem test_witness_reserved_offset : ∃ off : Nat, 0x28 ≤ off := ⟨0x28, le_refl _⟩

theorem test_witness_restart : (∃ s t : State, s.ready ∧ exec .hdrw s = .next t ∧ t.phase ≠ .error ∧ s.caps.ok) ∧
    ∃ s t : State, s.ready ∧ exec .unpack s = .next t ∧ t.phase ≠ .error ∧ s.caps.ok := by
  obtain ⟨t, ht, hd, -⟩ := finishes_next test_hdrw
  obtain ⟨u, hu, he, -⟩ := finishes_next test_unpack
  exact ⟨⟨_, t, by decide, ht, by simp [hd], by decide⟩, ⟨_, u, by decide, hu, by simp [he], by decide⟩⟩

/-! ### FREQ and BUILD -/

theorem test_witness_freq : ∃ s : State, s.ready ∧ s.inLen.toNat = s.caps.inCap :=
  ⟨{ small with inLen := 64 }, by decide, by decide⟩

theorem test_witness_freq_done : ∃ s t : State, s.ready ∧ exec .freq s = .next t ∧ t.phase = .done :=
  completes_of test_freq (by decide)

theorem test_witness_keeps_freq : ∃ (i : Instr) (s t : State), i ≠ .freq ∧ i ≠ .hdrp ∧ i ≠ .compress ∧ i ≠ .decompress ∧
    exec i s = .next t ∧ t.phase ≠ .error := by
  obtain ⟨t, ht, hd, -⟩ := finishes_next test_build
  exact ⟨.build, _, t, by decide, by decide, by decide, by decide, ht, by simp [hd]⟩

theorem abcc_nsym : nsymOf (table abcc) = BitVec.ofNat 9 abcc.length := by decide +kernel

theorem one_nsym : nsymOf (table [(0x61, 4)]) = 1 := by decide +kernel

theorem test_witness_build : (∃ s : State, s.ready ∧ s.freqV = true ∧ s.nsym = nsymOf s.freq ∧ s.nsym.toNat = 3) ∧
    ∃ s : State, s.ready ∧ s.freqV = true ∧ s.nsym = nsymOf s.freq ∧ s.nsym.toNat = 1 :=
  ⟨⟨counted abcc, by decide, rfl, abcc_nsym.symm, by decide⟩,
    ⟨counted [(0x61, 4)], by decide, rfl, one_nsym.symm, by decide⟩⟩

theorem test_witness_build_twice : ∃ s u t v : State, s.ready ∧ u.ready ∧ s.freq = u.freq ∧ s.pad ≠ u.pad ∧
    exec .build s = .next t ∧ exec .build u = .next v ∧ t.phase = .done ∧ v.phase = .done := by
  obtain ⟨t, ht, hd, -⟩ := finishes_next test_build
  have h : finishes (exec .build { counted abcc with pad := 3 }) (fun _ => true) = true := by decide +kernel
  obtain ⟨v, hv, hw, -⟩ := finishes_next h
  exact ⟨counted abcc, { counted abcc with pad := 3 }, t, v, by decide, by decide, rfl, by decide, ht, hv, hd, hw⟩

/-! ### Trees and codes -/

theorem Coded.ready {es : List (Byte × Word)} {s : State} (h : Coded es s) : s.ready := by
  rw [State.ready, h.phase]
  decide

theorem test_witness_tree : ∃ s : State, s.Inv ∧ s.ready ∧ s.treeV = true ∧ s.codeV = true ∧ 256 ≤ s.root.toNat ∧
    2 ≤ s.nsym.toNat ∧ (∃ k, k + 1 < s.nint.toNat) ∧ s.nodeExists 0x61 ∧ 0x61 ≠ s.root := by
  obtain ⟨s, h, hr, hn, -⟩ := abcc_coded
  refine ⟨s, h.inv, h.ready, h.treeV, h.codeV, by rw [hr]; decide, by rw [h.nsym]; decide, ⟨0, by rw [hn]; decide⟩,
    .inl ⟨by decide, ?_⟩, by rw [hr]; decide⟩
  rw [h.freq]
  decide +kernel

theorem test_witness_symbols : ∃ s : State, s.Inv ∧ s.codeV = true ∧ freqAt s.freq 0x64 = 0 ∧ freqAt s.freq 0x61 ≠ 0 ∧
    freqAt s.freq 0x62 ≠ 0 ∧ (freqAt s.freq 0x61).toNat < (freqAt s.freq 0x63).toNat := by
  obtain ⟨s, h, -⟩ := abcc_coded
  refine ⟨s, h.inv, h.codeV, ?_⟩
  rw [h.freq]
  decide +kernel

theorem test_witness_one_symbol : ∃ s : State, s.Inv ∧ s.ready ∧ s.treeV = true ∧ s.codeV = true ∧ s.root.toNat < 256 := by
  obtain ⟨s, h, hr, -⟩ := one_coded
  exact ⟨s, h.inv, h.ready, h.treeV, h.codeV, by rw [hr]; decide⟩

/-! ### The header -/

theorem small_facts {l : List Byte} (h : l.length ≤ 64) : (State.holding small l).ready ∧
    (State.holding small l).inLen.toNat ≤ (State.holding small l).caps.inCap ∧ (State.holding small l).inputBytes = l := by
  refine ⟨small_ready l, ?_, holding_inputBytes small (by omega)⟩
  show (BitVec.ofNat 32 l.length).toNat ≤ 64
  rw [BitVec.toNat_ofNat]
  omega

theorem test_witness_header : ∃ (s : State) (es : List (Byte × Word)) (p : Byte) (rest : List Byte), s.ready ∧
    s.inLen.toNat ≤ s.caps.inCap ∧ s.inputBytes = header es p ++ rest ∧
    es.Pairwise (fun a b => a.1.toNat < b.1.toNat) ∧ (∀ e ∈ es, e.2 ≠ 0) ∧ p.toNat ≤ 7 := by
  obtain ⟨l, hl⟩ : ∃ l, l = header abcc 7 ++ [1, 2] := ⟨_, rfl⟩
  have hk := small_facts (l := l) (by rw [hl]; decide +kernel)
  exact ⟨_, abcc, 7, [1, 2], hk.1, hk.2.1, hk.2.2.trans hl, by simp [abcc], by simp [abcc], by decide⟩

theorem test_witness_header_empty : ∃ (s : State) (p : Byte), s.ready ∧ s.inLen.toNat ≤ s.caps.inCap ∧
    s.inputBytes = header [] p ∧ p.toNat ≤ 7 := by
  obtain ⟨l, hl⟩ : ∃ l, l = header [] 0 := ⟨_, rfl⟩
  have hk := small_facts (l := l) (by rw [hl]; decide +kernel)
  exact ⟨_, 0, hk.1, hk.2.1, hk.2.2.trans hl, by decide⟩

/-- One stream for each check of `HDRP`, in the order of 43_header_codec.md R77. -/
theorem test_witness_checks : ∃ s1 s2 s3 s4 s5 s6 s7 : State,
    (s1.ready ∧ s1.inLen ≠ 0 ∧ s1.caps.inCap < s1.inLen.toNat) ∧ (s2.ready ∧ s2.inLen.toNat = 3) ∧
    (s3.ready ∧ s3.inLen = 5 ∧ s3.inWord 0 = 257) ∧ (s4.ready ∧ s4.inLen = 9 ∧ s4.inWord 0 = 1) ∧
    (s5.ready ∧ s5.inLen = 15 ∧ s5.inWord 0 = 2 ∧ (s5.inByte 9).toNat ≤ (s5.inByte 4).toNat ∧ s5.inWord 5 ≠ 0) ∧
    (s6.ready ∧ s6.inLen = 10 ∧ s6.inWord 0 = 1 ∧ s6.inWord 5 = 0) ∧
    (s7.ready ∧ s7.inLen = 10 ∧ s7.inWord 0 = 1 ∧ s7.inWord 5 ≠ 0 ∧ 7 < (s7.inByte 9).toNat) :=
  ⟨{ small with inLen := 65 }, State.holding small [0, 0, 0], State.holding small [0, 0, 1, 1, 0],
    State.holding small [0, 0, 0, 1, 0x61, 0, 0, 0, 4],
    State.holding small [0, 0, 0, 2, 0x61, 0, 0, 0, 4, 0x61, 0, 0, 0, 1, 0],
    State.holding small [0, 0, 0, 1, 0x61, 0, 0, 0, 0, 4], State.holding small [0, 0, 0, 1, 0x61, 0, 0, 0, 4, 8],
    by decide, by decide, by decide, by decide, by decide, by decide, by decide⟩

theorem test_witness_empty_alphabet : ∃ s1 s2 s3 s4 s5 : State,
    (s1.ready ∧ s1.inLen.toNat ≤ s1.caps.inCap ∧ s1.inLen = 0) ∧ (s2.ready ∧ s2.inLen.toNat = 3) ∧
    (s3.ready ∧ s3.inLen.toNat = 4 ∧ ∀ k, k < 4 → s3.inByte k = 0) ∧
    (s4.ready ∧ s4.inLen.toNat = 5 ∧ (∀ k, k < 4 → s4.inByte k = 0) ∧ 7 < (s4.inByte 4).toNat) ∧
    (s5.ready ∧ s5.inLen.toNat = 7 ∧ (∀ k, k < 4 → s5.inByte k = 0) ∧ (s5.inByte 4).toNat ≤ 7) :=
  ⟨small, State.holding small [0, 0, 0], State.holding small [0, 0, 0, 0], State.holding small [0, 0, 0, 0, 8],
    State.holding small [0, 0, 0, 0, 3, 0xAA, 0xBB], by decide, by decide, by decide, by decide, by decide⟩

/-- The state a completed `HDRW` answers. -/
theorem hdrw_answers {s : State} (hr : s.ready) (hc : s.codeV = true) :
    ∃ t, exec .hdrw s = .next t ∧ t.phase = .done ∧
      t.outLen.toNat = (headerBytes s.freq s.nsym (padCount s.lbits.toNat)).length % 2 ^ 32 := by
  have hb := (hdrwBody_ok (s.accept (encode .hdrw)) _).mpr ⟨hc, rfl⟩
  refine ⟨_, command_ok hr hb, rfl, ?_⟩
  have key (l : List Byte) (u : State) : (u.putAll l).outLen = u.outLen + BitVec.ofNat 32 l.length := by
    induction l generalizing u with
    | nil => simp [State.putAll]
    | cons v l ih =>
      show ((u.put v).putAll l).outLen = _
      rw [ih]
      apply BitVec.eq_of_toNat_eq
      simp [BitVec.toNat_add]
      omega
  simp only [State.complete_outLen, State.flagsHdrw_outLen, key]
  simp

theorem test_witness_header_round_trip : ∃ (s t u : State) (rest : List Byte), s.Inv ∧ s.ready ∧
    exec .hdrw s = .next t ∧ t.phase = .done ∧ u.ready ∧ u.inLen.toNat ≤ u.caps.inCap ∧
    u.inputBytes = t.outputBytes ++ rest := by
  obtain ⟨s, h, -⟩ := one_coded
  obtain ⟨t, ht, hd, hl⟩ := hdrw_answers h.ready h.codeV
  have hn : (alphabetOf s.freq).length = 1 := by
    rw [← nsymOf_toNat, h.freq, one_nsym]
    rfl
  have hlen : (t.outputBytes ++ [0]).length = 11 := by
    simp [State.outputBytes, hl, headerBytes_length, hn]
  refine ⟨s, t, State.holding small (t.outputBytes ++ [0]), [0], h.inv, h.ready, ht, hd, small_ready _, ?_,
    holding_inputBytes _ (by rw [hlen]; decide)⟩
  show (BitVec.ofNat 32 (t.outputBytes ++ [0]).length).toNat ≤ 64
  rw [hlen]
  decide

/-! ### The payload -/

theorem abcc_input : ∃ s, Coded abcc s ∧ s.codeLenAt 0x61 = 2 ∧ s.codeLenAt 0x64 = 0 ∧
    (encodeAll s [0x61, 0x62, 0x63, 0x63]).length = 6 ∧ (encodeAll s [0x61]).length = 2 ∧
    (∀ x ∈ [0x61, 0x62, 0x63, 0x63], s.codeLenAt x ≠ 0) := by
  obtain ⟨s, h, -, -, -, ha, hb, hc, la, lb, lc, ld⟩ := abcc_coded
  refine ⟨s, h, la, ld, ?_, ?_, ?_⟩
  · simp only [encodeAll, List.flatMap_cons, List.flatMap_nil, ha, hb, hc]
    decide
  · simp only [encodeAll, List.flatMap_cons, List.flatMap_nil, ha]
    decide
  · simp only [List.forall_mem_cons, la, lb, lc, List.not_mem_nil, false_implies, implies_true, and_true]
    decide

theorem encodeAll_holding (s : State) (l xs : List Byte) : encodeAll (State.holding s l) xs = encodeAll s xs := rfl

theorem test_witness_pack : ∃ s : State, s.ready ∧ s.BuffersOk ∧ s.CodesFit ∧ s.codeV = true ∧
    s.inLen.toNat ≤ s.caps.inCap ∧ s.inputBytes ≠ [] ∧ (∀ x ∈ s.inputBytes, s.codeLenAt x ≠ 0) ∧
    s.outLen.toNat + ((encodeAll s s.inputBytes).length + 7) / 8 ≤ s.caps.outCap := by
  obtain ⟨s, h, -, -, h6, -, hx⟩ := abcc_input
  have hi := holding_inv h [0x61, 0x62, 0x63, 0x63] (by decide)
  have hb := holding_inputBytes s (l := [0x61, 0x62, 0x63, 0x63]) (by decide)
  refine ⟨State.holding s [0x61, 0x62, 0x63, 0x63], h.ready, hi.buffers, hi.codesFit, h.codeV, ?_, ?_, ?_, ?_⟩
  · show (BitVec.ofNat 32 4).toNat ≤ s.caps.inCap
    rw [h.caps]
    decide
  · rw [hb]
    decide
  · rw [hb]
    exact hx
  · rw [hb, encodeAll_holding, h6]
    show s.outLen.toNat + _ ≤ s.caps.outCap
    rw [h.caps, h.outLen]
    decide

theorem test_witness_pack_no_code : ∃ (s : State) (l r : List Byte) (x : Byte), s.ready ∧ s.BuffersOk ∧ s.CodesFit ∧
    s.codeV = true ∧ s.inLen.toNat ≤ s.caps.inCap ∧ s.inputBytes = l ++ x :: r ∧ (∀ y ∈ l, s.codeLenAt y ≠ 0) ∧
    s.codeLenAt x = 0 ∧ s.outLen.toNat + (encodeAll s l).length / 8 ≤ s.caps.outCap := by
  obtain ⟨s, h, ha, hd, -, h2, -⟩ := abcc_input
  have hi := holding_inv h [0x61, 0x64, 0x61] (by decide)
  refine ⟨State.holding s [0x61, 0x64, 0x61], [0x61], [0x61], 0x64, h.ready, hi.buffers, hi.codesFit, h.codeV, ?_,
    holding_inputBytes s (by decide), ?_, hd, ?_⟩
  · show (BitVec.ofNat 32 3).toNat ≤ s.caps.inCap
    rw [h.caps]
    decide
  · intro y hy
    rw [List.mem_singleton.mp hy]
    show s.codeLenAt 0x61 ≠ 0
    rw [ha]
    decide
  · rw [encodeAll_holding, h2]
    show s.outLen.toNat + _ ≤ s.caps.outCap
    rw [h.caps, h.outLen]
    decide

theorem test_witness_pack_full : ∃ s : State, s.ready ∧ s.BuffersOk ∧ s.CodesFit ∧ s.codeV = true ∧
    s.inLen.toNat ≤ s.caps.inCap ∧ (∀ x ∈ s.inputBytes, s.codeLenAt x ≠ 0) ∧
    s.caps.outCap < s.outLen.toNat + ((encodeAll s s.inputBytes).length + 7) / 8 := by
  obtain ⟨s, h, -, -, h6, -, hx⟩ := abcc_input
  have hi := holding_inv h [0x61, 0x62, 0x63, 0x63] (by decide)
  have hb := holding_inputBytes s (l := [0x61, 0x62, 0x63, 0x63]) (by decide)
  let u : State :=
    { State.holding s [0x61, 0x62, 0x63, 0x63] with outLen := 1400, outBuf := (List.range 1400).map fun i => (i, 0) }
  have hu : u.inputBytes = [0x61, 0x62, 0x63, 0x63] := hb
  refine ⟨u, h.ready, ⟨hi.buffers.caps, hi.buffers.inWf, hi.buffers.inRange, ?_, ?_⟩, hi.codesFit, h.codeV, ?_, ?_, ?_⟩
  · simp [u, Function.comp_def]
  · show 1400 ≤ s.caps.outCap
    rw [h.caps]
  · show (BitVec.ofNat 32 4).toNat ≤ s.caps.inCap
    rw [h.caps]
    decide
  · rw [hu]
    exact hx
  · rw [hu, show encodeAll u [0x61, 0x62, 0x63, 0x63] = encodeAll s [0x61, 0x62, 0x63, 0x63] from rfl, h6]
    show s.caps.outCap < _
    rw [h.caps]
    show 1400 < 1400 + 1
    decide

/-- The first four bytes fill a byte that has no room, before the byte without a code. -/
theorem test_witness_pack_full_first : ∃ (s : State) (l r : List Byte), s.ready ∧ s.BuffersOk ∧ s.CodesFit ∧
    s.codeV = true ∧ s.inLen.toNat ≤ s.caps.inCap ∧ s.inputBytes = l ++ r ∧ (∀ x ∈ l, s.codeLenAt x ≠ 0) ∧
    (∃ x ∈ r, s.codeLenAt x = 0) ∧ s.caps.outCap < s.outLen.toNat + (encodeAll s l).length / 8 := by
  obtain ⟨s, h, -, -, -, ha, hb, -, la, lb, -, ld⟩ := abcc_coded
  have hi := holding_inv h [0x61, 0x62, 0x61, 0x62, 0x64] (by decide)
  let u : State :=
    { State.holding s [0x61, 0x62, 0x61, 0x62, 0x64] with outLen := 1400, outBuf := (List.range 1400).map fun i => (i, 0) }
  have hl : (encodeAll s [0x61, 0x62, 0x61, 0x62]).length = 8 := by
    simp only [encodeAll, List.flatMap_cons, List.flatMap_nil, ha, hb]
    decide
  refine ⟨u, [0x61, 0x62, 0x61, 0x62], [0x64], h.ready, ⟨hi.buffers.caps, hi.buffers.inWf, hi.buffers.inRange, ?_, ?_⟩,
    hi.codesFit, h.codeV, ?_, holding_inputBytes s (by decide), ?_, ⟨0x64, by simp, ld⟩, ?_⟩
  · simp [u, Function.comp_def]
  · show 1400 ≤ s.caps.outCap
    rw [h.caps]
  · show (BitVec.ofNat 32 5).toNat ≤ s.caps.inCap
    rw [h.caps]
    decide
  · show ∀ x ∈ _, s.codeLenAt x ≠ 0
    simp only [List.forall_mem_cons, la, lb, List.not_mem_nil, false_implies, implies_true, and_true]
    decide
  · show s.caps.outCap < 1400 + (encodeAll s [0x61, 0x62, 0x61, 0x62]).length / 8
    rw [h.caps, hl]
    decide

/-! ### The decode loop -/

theorem streamBits_streaming (s : State) (k : Nat) (b : Byte) (pad : BitVec 3) (hp : s.inPos = 0)
    (h : s.lbits.toNat ≤ 8 * k) : streamBits (State.streaming s (List.replicate k b) pad) =
      (List.range s.lbits.toNat).map fun j => b.toNat.testBit (7 - j % 8) := by
  refine List.map_congr_left fun j hj => ?_
  have hj : j < s.lbits.toNat := List.mem_range.mp hj
  have hk : j / 8 < k := by omega
  have hz : s.inPos.toNat = 0 := by rw [hp]; rfl
  simp only [State.streaming, State.holding, State.inByte, hz, read_cells, Nat.zero_add, List.getElem?_replicate, hk,
    if_true, Option.getD_some]

theorem streaming_facts {es : List (Byte × Word)} {s : State} (h : Coded es s) (l : List Byte) (pad : BitVec 3) :
    (State.streaming s l pad).ready ∧ (State.streaming s l pad).codeV = true :=
  ⟨h.ready, h.codeV⟩

theorem test_witness_unpack : ∃ (s : State) (xs : List Byte), s.Inv ∧ s.ready ∧ s.codeV = true ∧ s.hdrV = true ∧
    s.inLen.toNat ≤ s.caps.inCap ∧ 256 ≤ s.root.toNat ∧
    8 * ((s.inLen.toNat : Int) - s.inPos.toNat) - s.pad.toNat = s.lbits.toNat ∧ (∀ x ∈ xs, freqAt s.freq x ≠ 0) ∧
    streamBits s = encodeAll s xs ∧ xs.length = 4 ∧ xs.length ≤ s.caps.outCap := by
  obtain ⟨s, h, hr, -, hl, ha, hb, hc, -⟩ := abcc_coded
  refine ⟨State.streaming s [0xB0] 2, [0x61, 0x62, 0x63, 0x63], streaming_inv h _ _ (by decide), h.ready, h.codeV, rfl,
    ?_, ?_, ?_, ?_, ?_, rfl, ?_⟩
  · show (BitVec.ofNat 32 1).toNat ≤ s.caps.inCap
    rw [h.caps]
    decide
  · show 256 ≤ s.root.toNat
    rw [hr]
    decide
  · show 8 * (((1 : Nat) : Int) - s.inPos.toNat) - (2 : Nat) = s.lbits.toNat
    rw [h.inPos, hl]
    rfl
  · show ∀ x ∈ _, freqAt s.freq x ≠ 0
    rw [h.freq]
    decide +kernel
  · show streamBits (State.streaming s (List.replicate 1 0xB0) 2) = encodeAll s _
    rw [streamBits_streaming s 1 0xB0 2 h.inPos (by rw [hl]; decide), hl]
    simp only [encodeAll, List.flatMap_cons, List.flatMap_nil, ha, hb, hc]
    decide
  · show _ ≤ s.caps.outCap
    rw [h.caps]
    decide

theorem test_witness_unpack_exhausted : ∃ (s : State) (xs : List Byte) (r : BitString) (y : Byte), s.Inv ∧ s.ready ∧
    s.codeV = true ∧ s.hdrV = true ∧ s.inLen.toNat ≤ s.caps.inCap ∧ 256 ≤ s.root.toNat ∧
    8 * ((s.inLen.toNat : Int) - s.inPos.toNat) - s.pad.toNat = s.lbits.toNat ∧ (∀ x ∈ xs, freqAt s.freq x ≠ 0) ∧
    freqAt s.freq y ≠ 0 ∧ r ≠ [] ∧ r <+: codeString s y ∧ r ≠ codeString s y ∧ streamBits s = encodeAll s xs ++ r ∧
    xs.length ≤ s.caps.outCap := by
  obtain ⟨s, h, hr, -, hl, ha, hb, hc, -⟩ := abcc_coded
  refine ⟨State.streaming s [0x04] 2, List.replicate 5 0x63, [true], 0x61, streaming_inv h _ _ (by decide), h.ready,
    h.codeV, rfl, ?_, ?_, ?_, ?_, ?_, by decide, ?_, ?_, ?_, ?_⟩
  · show (BitVec.ofNat 32 1).toNat ≤ s.caps.inCap
    rw [h.caps]
    decide
  · show 256 ≤ s.root.toNat
    rw [hr]
    decide
  · show 8 * (((1 : Nat) : Int) - s.inPos.toNat) - (2 : Nat) = s.lbits.toNat
    rw [h.inPos, hl]
    rfl
  · show ∀ x ∈ _, freqAt s.freq x ≠ 0
    rw [h.freq]
    decide +kernel
  · show freqAt s.freq _ ≠ 0
    rw [h.freq]
    decide +kernel
  · show _ <+: codeString s 0x61
    rw [ha]
    decide
  · show _ ≠ codeString s 0x61
    rw [ha]
    decide
  · show streamBits (State.streaming s (List.replicate 1 0x04) 2) = encodeAll s _ ++ _
    rw [streamBits_streaming s 1 0x04 2 h.inPos (by rw [hl]; decide), hl]
    simp only [encodeAll, List.replicate, List.flatMap_cons, List.flatMap_nil, hc]
    decide
  · show _ ≤ s.caps.outCap
    rw [h.caps]
    decide

theorem test_witness_unpack_full : ∃ (s : State) (xs : List Byte) (r : BitString), s.Inv ∧ s.ready ∧ s.codeV = true ∧
    s.hdrV = true ∧ s.inLen.toNat ≤ s.caps.inCap ∧ 256 ≤ s.root.toNat ∧
    8 * ((s.inLen.toNat : Int) - s.inPos.toNat) - s.pad.toNat = s.lbits.toNat ∧ (∀ x ∈ xs, freqAt s.freq x ≠ 0) ∧
    streamBits s = encodeAll s xs ++ r ∧ s.caps.outCap < xs.length := by
  obtain ⟨s, h, hr, hl, ha⟩ := wide_coded
  have hb := streamBits_streaming s 200 0xFF 0 h.inPos (by rw [hl]; decide)
  have hlen : (List.replicate 200 (0xFF : Byte)).length = 200 := List.length_replicate
  generalize List.replicate 200 (0xFF : Byte) = l at hb hlen
  obtain ⟨xs, hxs⟩ : ∃ xs, xs = List.replicate 1401 (0x61 : Byte) := ⟨_, rfl⟩
  obtain ⟨r, hrr⟩ : ∃ r, r = List.replicate 199 true := ⟨_, rfl⟩
  refine ⟨State.streaming s l 0, xs, r, streaming_inv h l 0 (by rw [hlen]; decide), h.ready, h.codeV, rfl, ?_, ?_, ?_, ?_,
    ?_, ?_⟩
  · show (BitVec.ofNat 32 l.length).toNat ≤ s.caps.inCap
    rw [h.caps, hlen]
    decide
  · show 256 ≤ s.root.toNat
    rw [hr]
    decide
  · show 8 * (((BitVec.ofNat 32 l.length).toNat : Int) - s.inPos.toNat) - (0 : Nat) = s.lbits.toNat
    rw [h.inPos, hl, hlen]
    rfl
  · show ∀ x ∈ xs, freqAt s.freq x ≠ 0
    intro x hx
    rw [hxs] at hx
    rw [(List.mem_replicate.mp hx).2, h.freq]
    decide +kernel
  · show _ = encodeAll s xs ++ r
    have he (n : Nat) : encodeAll s (List.replicate n 0x61) = List.replicate n true := by
      induction n with
      | zero => rfl
      | succ n ih =>
        rw [List.replicate_succ, encodeAll, List.flatMap_cons, ha]
        show true :: encodeAll s _ = _
        rw [ih, List.replicate_succ]
    have hbit (j : Nat) : (0xFF : Byte).toNat.testBit (7 - j % 8) = true := by
      have : ∀ k, k < 8 → (0xFF : Byte).toNat.testBit k = true := by decide
      exact this _ (by omega)
    rw [hb, hxs, hrr, he, List.replicate_append_replicate, funext hbit, List.map_const', List.length_range, hl]
    rfl
  · show s.caps.outCap < xs.length
    rw [h.caps, hxs, List.length_replicate]
    decide

theorem test_witness_unpack_one : (∃ s : State, s.Inv ∧ s.ready ∧ s.codeV = true ∧ s.hdrV = true ∧
    s.inLen.toNat ≤ s.caps.inCap ∧ s.root.toNat < 256 ∧
    8 * ((s.inLen.toNat : Int) - s.inPos.toNat) - s.pad.toNat = s.lbits.toNat ∧ s.lbits.toNat ≤ s.caps.outCap) ∧
    ∃ s : State, s.Inv ∧ s.ready ∧ s.codeV = true ∧ s.hdrV = true ∧ s.inLen.toNat ≤ s.caps.inCap ∧ s.root.toNat < 256 ∧
      8 * ((s.inLen.toNat : Int) - s.inPos.toNat) - s.pad.toNat = s.lbits.toNat ∧ s.caps.outCap < s.lbits.toNat := by
  obtain ⟨s, h, hr, hl, -⟩ := one_coded
  obtain ⟨u, k, kr, kl⟩ := many_coded
  obtain ⟨l, hlen⟩ : ∃ l : List Byte, l.length = 250 := ⟨List.replicate 250 0, List.length_replicate⟩
  refine ⟨⟨State.streaming s [0] 4, streaming_inv h _ _ (by decide), h.ready, h.codeV, rfl, ?_, ?_, ?_, ?_⟩,
    ⟨State.streaming u l 0, streaming_inv k l 0 (by rw [hlen]; decide), k.ready, k.codeV, rfl, ?_, ?_, ?_, ?_⟩⟩
  · show (BitVec.ofNat 32 1).toNat ≤ s.caps.inCap
    rw [h.caps]
    decide
  · show s.root.toNat < 256
    rw [hr]
    decide
  · show 8 * (((1 : Nat) : Int) - s.inPos.toNat) - (4 : Nat) = s.lbits.toNat
    rw [h.inPos, hl]
    rfl
  · show s.lbits.toNat ≤ s.caps.outCap
    rw [h.caps, hl]
    decide
  · show (BitVec.ofNat 32 l.length).toNat ≤ u.caps.inCap
    rw [k.caps, hlen]
    decide
  · show u.root.toNat < 256
    rw [kr]
    decide
  · show 8 * (((BitVec.ofNat 32 l.length).toNat : Int) - u.inPos.toNat) - (0 : Nat) = u.lbits.toNat
    rw [k.inPos, kl, hlen]
    rfl
  · show u.caps.outCap < u.lbits.toNat
    rw [k.caps, kl]
    decide

theorem test_witness_payload_length : ∃ s : State, s.ready ∧ s.codeV = true ∧ s.hdrV = true ∧
    s.inLen.toNat ≤ s.caps.inCap ∧ 8 * ((s.inLen.toNat : Int) - s.inPos.toNat) - s.pad.toNat ≠ s.lbits.toNat :=
  ⟨{ small with codeV := true, hdrV := true, inPos := 1 }, by decide, rfl, rfl, by decide, by decide⟩

theorem test_witness_pad_bits : ∃ (s t : State) (m : Memory), s.ready ∧ m ≠ s.inBuf ∧
    streamBits { s with inBuf := m } = streamBits s ∧ exec .unpack s = .next t := by
  obtain ⟨t, ht, -⟩ := finishes_next test_unpack
  exact ⟨_, t, cells [0xB3], by decide, by decide, by decide +kernel, ht⟩

/-! ### Composite commands -/

theorem test_witness_compress : ∃ s : State, s.ready ∧ s.caps.ok ∧ 0 < s.inLen.toNat ∧ s.inLen.toNat ≤ s.caps.inCap ∧
    1285 + 32 * s.inLen.toNat ≤ s.caps.outCap :=
  ⟨State.holding small [0x61, 0x62, 0x63], by decide, by decide, by decide, by decide, by decide⟩

theorem test_witness_compress_done : ∃ s t : State, s.ready ∧ s.caps.ok ∧ 0 < s.inLen.toNat ∧
    exec .compress s = .next t ∧ t.phase = .done := by
  obtain ⟨t, ht, hd, -⟩ := finishes_next test_compress
  exact ⟨_, t, by decide, by decide, by decide, ht, hd⟩

theorem test_witness_compress_room : ∃ s : State, s.ready ∧ s.caps.ok ∧ s.inLen.toNat = s.caps.inCap ∧
    s.inLen.toNat + 1285 ≤ s.caps.outCap :=
  ⟨{ small with inLen := 64 }, by decide, by decide, by decide, by decide⟩

theorem test_witness_compress_empty : ∃ s : State, s.ready ∧ s.inLen = 0 := ⟨small, by decide, rfl⟩

theorem test_witness_decompress_empty : (∃ s : State, s.ready ∧ s.inLen.toNat ≤ s.caps.inCap ∧ s.inLen = 0) ∧
    ∃ s : State, s.ready ∧ s.inLen.toNat ≤ s.caps.inCap ∧ 5 ≤ s.inLen.toNat ∧ (∀ k, k < 4 → s.inByte k = 0) ∧
      (s.inByte 4).toNat ≤ 7 :=
  ⟨⟨small, by decide, by decide, rfl⟩,
    ⟨State.holding small [0, 0, 0, 0, 7], by decide, by decide, by decide, by decide, by decide⟩⟩

theorem test_witness_decompress : ∃ (s g : State) (xs : List Byte), s.ready ∧ s.inLen.toNat ≤ s.caps.inCap ∧ s.caps.ok ∧
    g.Inv ∧ g.codeV = true ∧ (∀ x ∈ xs, freqAt g.freq x ≠ 0) ∧ (encodeAll g xs).length = g.lbits.toNat ∧
    xs.length ≤ s.caps.outCap ∧
    s.inputBytes = header (entries g.freq) (BitVec.ofNat 8 (padOf g.lbits.toNat)) ++ payload (encodeAll g xs) := by
  obtain ⟨g, h, -, hl, hc⟩ := one_coded
  have he : encodeAll g (List.replicate 4 0x61) = [false, false, false, false] := by
    simp only [encodeAll, List.replicate, List.flatMap_cons, List.flatMap_nil, hc]
    rfl
  have hlen : (header (entries (table [(0x61, 4)])) (BitVec.ofNat 8 (padOf 4)) ++
      payload [false, false, false, false]).length = 11 := by decide +kernel
  obtain ⟨l, hl'⟩ : ∃ l, l = header (entries (table [(0x61, 4)])) (BitVec.ofNat 8 (padOf 4)) ++
      payload [false, false, false, false] := ⟨_, rfl⟩
  rw [← hl'] at hlen
  refine ⟨State.holding small l, g, List.replicate 4 0x61, small_ready l, ?_, show Caps.ok ⟨64, 1400⟩ by decide,
    h.inv, h.codeV, ?_, ?_, show 4 ≤ 1400 by decide, ?_⟩
  · show (BitVec.ofNat 32 l.length).toNat ≤ 64
    rw [hlen]
    decide
  · rw [h.freq]
    decide +kernel
  · rw [he, hl]
    rfl
  · rw [he, hl, h.freq]
    exact (holding_inputBytes small (by rw [hlen]; decide)).trans hl'

theorem test_witness_compress_parts : ∃ s : State, s.ready ∧ 0 < s.inLen.toNat ∧ s.inLen.toNat ≤ s.caps.inCap :=
  ⟨State.holding small [0x61], by decide, by decide, by decide⟩

theorem test_witness_decompress_parts : ∃ s : State, s.ready ∧
    (∃ u, exec .hdrp s = .next u ∧ u.phase = .done) ∧ ∀ u, exec .hdrp s = .next u → u.phase = .done → u.nsym ≠ 0 := by
  obtain ⟨t, ht, hd, hp⟩ := finishes_next test_hdrp
  refine ⟨_, by decide, ⟨t, ht, hd⟩, fun u hu _ => ?_⟩
  obtain rfl := Host.Outcome.next.inj (ht.symm.trans hu)
  simp only [Bool.and_eq_true, beq_iff_eq] at hp
  rw [hp.1.1.1.1.1]
  decide

theorem test_witness_round_trip : ∃ s t u : State, s.ready ∧ s.caps.ok ∧ s.inLen.toNat ≤ s.caps.inCap ∧
    0 < s.inLen.toNat ∧ exec .compress s = .next t ∧ t.phase = .done ∧ u.ready ∧ u.caps = s.caps ∧
    s.inLen.toNat ≤ u.caps.outCap ∧ u.inLen = t.outLen ∧ u.inLen.toNat ≤ u.caps.inCap ∧ u.inputBytes = t.outputBytes := by
  obtain ⟨t, ht, hd, hp⟩ := finishes_next test_compress
  simp only [Bool.and_eq_true, beq_iff_eq] at hp
  have hl : t.outLen = 11 := hp.1.1.1.1
  have hb : t.outBuf = cells [0, 0, 0, 1, 0x61, 0, 0, 0, 4, 4, 0] := hp.1.1.1.2
  refine ⟨_, t, State.holding small [0, 0, 0, 1, 0x61, 0, 0, 0, 4, 4, 0], by decide, by decide, by decide, by decide, ht,
    hd, by decide, rfl, by decide, by rw [hl]; rfl, by decide, ?_⟩
  rw [outputBytes_of_cells (by rw [hl]; rfl) hb]
  exact holding_inputBytes _ (by decide)

/-! ### The whole machine -/

theorem test_witness_invariant : ∃ s t : State, s.Inv ∧ s.phase = .done ∧ step s = .next t :=
  ⟨counted abcc, _, counted_inv abcc_nsym, rfl, rfl⟩

theorem inv_weight {s : State} (hi : s.Inv) (ht : s.treeV = false) (w : Vector Weight 511) :
    State.Inv { s with weight := w } :=
  ⟨hi.buffers.congr rfl rfl rfl rfl, ⟨hi.flags.codeTree, hi.flags.treeFreq, hi.flags.hdrFreq⟩,
    ⟨hi.status.noError, hi.status.inError, hi.status.quiet⟩, hi.nsymOk, hi.codesFit,
    fun h => absurd (ht.symm.trans h) (by decide), hi.codesGenerated⟩

theorem settled_weight {s : State} (ht : s.treeV = false) (w : Vector Weight 511) :
    State.settled { s with weight := w } = s.settled := by
  simp [State.settled, ht]

theorem test_witness_unspecified : ∃ s u t : State, s.Inv ∧ u.Inv ∧ s.settled = u.settled ∧ s.weight ≠ u.weight ∧
    step s = .next t := by
  have hi := counted_inv abcc_nsym
  refine ⟨{ counted abcc with weight := Vector.replicate 511 0 }, { counted abcc with weight := Vector.replicate 511 1 },
    _, inv_weight hi rfl _, inv_weight hi rfl _, (settled_weight rfl _).trans (settled_weight rfl _).symm, ?_, step_nil rfl⟩
  intro h
  have := congrArg (fun v => tget v 0 0) h
  simp at this

end Sys2Proof.Tests
end

section
/-!
PROOF. The command word (30_encoding.md R46 to R48): the opcode map read from both sides, the decoder as the inverse of
the encoder, and what a write of an illegal word to `CMD` does.
-/
namespace Sys2Proof

/-! ## The opcode map -/

/-- The map of R47 sends an opcode to a command exactly when the opcode is that command's own. -/
theorem opcodeInstr_eq_some_iff (op : Nat) (i : Instr) : opcodeInstr op = some i ↔ op = (opcodeOf i).toNat := by
  constructor
  · intro h
    unfold opcodeInstr at h
    split at h <;> cases h <;> rfl
  · rintro rfl
    cases i <;> rfl

theorem opcodeOf_le (i : Instr) : (opcodeOf i).toNat ≤ 0x0A := by
  cases i <;> decide

/-- The map of R47 has a row for every opcode up to 0x0A and for no other. -/
theorem opcodeInstr_eq_none_iff (op : Nat) : opcodeInstr op = none ↔ 0x0A < op := by
  constructor
  · intro h
    by_contra hle
    have hop : op ≤ 0x0A := Nat.not_lt.mp hle
    interval_cases op <;> cases h
  · intro h
    rw [Option.eq_none_iff_forall_ne_some]
    intro i hi
    have hop := (opcodeInstr_eq_some_iff op i).mp hi
    have hle := opcodeOf_le i
    omega

/-! ## The decoder -/

/-- A word is its two fields, `ZERO` then `OP` (R46). -/
theorem zeroField_append_opField (w : Word) : zeroField w ++ opField w = w :=
  BitVec.extractLsb'_append_extractLsb' (w := 24) (len := 8)

theorem decode_eq_ok_iff (w : Word) (i : Instr) :
    decode w = .ok i ↔ zeroField w = 0#24 ∧ opcodeInstr (opField w).toNat = some i := by
  unfold decode
  split
  · split <;> simp_all
  · simp_all

/-- The lemmas made per command, for every command. -/
theorem encoding_statement (i : Instr) : Laws.Encoding.Statement i := by
  cases i with
  | nop => exact Laws.Encoding.nop
  | clear => exact Laws.Encoding.clear
  | freq => exact Laws.Encoding.freq
  | build => exact Laws.Encoding.build
  | gen => exact Laws.Encoding.gen
  | hdrw => exact Laws.Encoding.hdrw
  | pack => exact Laws.Encoding.pack
  | hdrp => exact Laws.Encoding.hdrp
  | unpack => exact Laws.Encoding.unpack
  | compress => exact Laws.Encoding.compress
  | decompress => exact Laws.Encoding.decompress

@[simp] theorem decode_encode (i : Instr) : decode (encode i) = .ok i := by
  obtain ⟨hdecode, -, -⟩ := encoding_statement i (by cases i <;> rfl)
  exact hdecode

/-- No word but a command's own decodes to it: the two fields of such a word are those of `encode`. -/
theorem decode_eq_ok_iff_eq_encode (w : Word) (i : Instr) : decode w = .ok i ↔ w = encode i := by
  constructor
  · intro h
    obtain ⟨hzero, hop⟩ := (decode_eq_ok_iff w i).mp h
    have hopcode : opField w = opcodeOf i := BitVec.eq_of_toNat_eq ((opcodeInstr_eq_some_iff _ i).mp hop)
    calc w = zeroField w ++ opField w := (zeroField_append_opField w).symm
      _ = encode i := by rw [hzero, hopcode, encode]
  · rintro rfl
    exact decode_encode i

/-- The illegal words of R48: a bit of `ZERO` is set, or `OP` is above 0x0A. -/
theorem decode_ne_ok_iff (w : Word) :
    (∀ i, decode w ≠ .ok i) ↔ zeroField w ≠ 0 ∨ 0x0A < (opField w).toNat := by
  rw [← opcodeInstr_eq_none_iff, Option.eq_none_iff_forall_ne_some]
  simp only [ne_eq, decode_eq_ok_iff, not_and]
  constructor
  · intro hnone
    by_cases hzero : zeroField w = 0
    · exact .inr fun i => hnone i hzero
    · exact .inl hzero
  · rintro (hzero | hop) i hi
    · exact absurd hi hzero
    · exact hop i

end Sys2Proof

namespace Sys2Proof.Machine

/-- A write of an illegal word to `CMD` outside `ERROR` is error entry, with `CMD` holding the word (R48, R86). -/
theorem writeCmd_of_decode_ne_ok {s : State} {w : Word} (hready : s.phase ≠ .error) (hillegal : ∀ i, decode w ≠ .ok i) :
    s.writeCmd w = .next ((s.accept w).raise .illegalCmd) := by
  unfold State.writeCmd
  split
  case h_1 i hi => exact absurd hi (hillegal i)
  case h_2 => exact command_raise hready rfl

end Sys2Proof.Machine

namespace Sys2Proof

/-- Settles O2, by reading the two fields of the word: the opcode map is one-to-one onto the opcodes up to 0x0A. -/
theorem everyWordIsACommandOrIllegal : Obligations.EveryWordIsACommandOrIllegal := fun w =>
  ⟨decode_eq_ok_iff_eq_encode w, decode_ne_ok_iff w, fun _ hready hillegal =>
    Machine.writeCmd_of_decode_ne_ok hready hillegal⟩

/-- Settles O1: each of the eleven words is the encoding of its command, which decodes to that command. -/
theorem opcodeMapDecodes : Obligations.OpcodeMapDecodes :=
  ⟨decode_encode .nop, decode_encode .clear, decode_encode .freq, decode_encode .build, decode_encode .gen,
    decode_encode .hdrw, decode_encode .pack, decode_encode .hdrp, decode_encode .unpack, decode_encode .compress,
    decode_encode .decompress⟩

end Sys2Proof
end

section
/-!
PROOF. The frequency analyzer (40_frequency_analyzer.md R59, R60): the table block F1 makes of a byte sequence, how a
command can end outside `ERROR`, and the commands that leave `FREQ[]` as it was.
-/
namespace Sys2Proof.Machine

/-! ## The table of counts -/

theorem freqAt_countByte (t : Vector (BitVec 32) 256) (b x : Byte) :
    freqAt (countByte t b) x = if b = x then freqAt t x + 1 else freqAt t x := by
  rw [countByte, freqAt_tset]
  split
  · subst x; rfl
  · rfl

/-- The loop of block F1, begun with any table, adds to each entry the number of occurrences of its byte. -/
theorem freqAt_foldl_countByte (l : List Byte) (t : Vector (BitVec 32) 256) (x : Byte) :
    freqAt (l.foldl countByte t) x = freqAt t x + BitVec.ofNat 32 (l.count x) := by
  induction l generalizing t with
  | nil => simp
  | cons b l ih =>
    rw [List.foldl_cons, ih, freqAt_countByte, List.count_cons]
    by_cases h : b = x
    · simp [h, BitVec.ofNat_add, BitVec.add_assoc, BitVec.add_comm 1#32]
    · simp [h]

/-- Below `2 ^ 32` bytes no count wraps (00_scope.md R8). -/
theorem freqAt_countBytes_toNat {l : List Byte} (hl : l.length < 2 ^ 32) (x : Byte) :
    (freqAt (countBytes l) x).toNat = l.count x := by
  have hcount : l.count x < 2 ^ 32 := List.count_le_length.trans_lt hl
  rw [countBytes, freqAt_foldl_countByte, freqAt_zero, zero_add, BitVec.toNat_ofNat, Nat.mod_eq_of_lt hcount]

/-- The alphabet of the counts is the set of the bytes that occur. -/
theorem mem_alphabetOf_countBytes {l : List Byte} (hl : l.length < 2 ^ 32) (x : Byte) :
    x ∈ alphabetOf (countBytes l) ↔ x ∈ l := by
  rw [mem_alphabetOf, ← List.count_pos_iff, ← freqAt_countBytes_toNat hl, Nat.pos_iff_ne_zero, ne_eq, ne_eq,
    ← BitVec.toNat_inj]
  rfl

theorem nsymOf_countBytes_toNat {l : List Byte} (hl : l.length < 2 ^ 32) :
    (nsymOf (countBytes l)).toNat = l.toFinset.card := by
  have hset : (alphabetOf (countBytes l)).toFinset = l.toFinset := by
    ext x
    simp [mem_alphabetOf_countBytes hl]
  rw [nsymOf_toNat, ← hset, List.toFinset_card_of_nodup (alphabetOf_nodup _)]

/-- Every byte is counted once, in the entry of its value. -/
theorem sum_countBytes {l : List Byte} (hl : l.length < 2 ^ 32) :
    ((List.range 256).map fun i => (tget (countBytes l) i 0).toNat).sum = l.length := by
  have hentry (i : Nat) (hi : i < 256) : (tget (countBytes l) i 0).toNat = (l.map BitVec.toNat).count i := by
    have hbyte : (BitVec.ofNat 8 i).toNat = i := Nat.mod_eq_of_lt hi
    calc (tget (countBytes l) i 0).toNat
        = (freqAt (countBytes l) (BitVec.ofNat 8 i)).toNat := by rw [freqAt, hbyte]
      _ = l.count (BitVec.ofNat 8 i) := freqAt_countBytes_toNat hl _
      _ = (l.map BitVec.toNat).count (BitVec.ofNat 8 i).toNat :=
          (List.count_map_of_injective l _ BitVec.toNat_injective _).symm
      _ = (l.map BitVec.toNat).count i := by rw [hbyte]
  have hbytes : ∀ i ∈ (l.map BitVec.toNat : Multiset Nat), i ∈ Finset.range 256 := by
    intro i hi
    obtain ⟨x, -, rfl⟩ := List.mem_map.mp (Multiset.mem_coe.mp hi)
    exact Finset.mem_range.mpr x.isLt
  calc ((List.range 256).map fun i => (tget (countBytes l) i 0).toNat).sum
      = ∑ i ∈ Finset.range 256, (tget (countBytes l) i 0).toNat := rfl
    _ = ∑ i ∈ Finset.range 256, (l.map BitVec.toNat : Multiset Nat).count i :=
        Finset.sum_congr rfl fun i hi => by
          rw [hentry i (Finset.mem_range.mp hi), Multiset.coe_count]
    _ = l.length := by rw [Multiset.sum_count_eq_card hbytes, Multiset.coe_card, List.length_map]

/-! ## The input -/

theorem inputBytes_length (s : State) : s.inputBytes.length = s.inLen.toNat := by simp [State.inputBytes]

theorem inputBytes_length_lt (s : State) : s.inputBytes.length < 2 ^ 32 := by
  rw [inputBytes_length]
  exact s.inLen.isLt

theorem mem_inputBytes (s : State) (x : Byte) : x ∈ s.inputBytes ↔ ∃ i, i < s.inLen.toNat ∧ s.inByte i = x := by
  simp [State.inputBytes]

/-! ## Commands that end outside `ERROR` -/

/-- A command that ends outside `ERROR` was accepted, and its pseudocode came to its end (R86). -/
theorem command_next_ready {s t : State} {w : Word} {body : State → Run State} (h : s.command w body = .next t)
    (ht : t.phase ≠ .error) : ∃ u, body (s.accept w) = .ok u ∧ t = u.complete := by
  rcases command_next h with ⟨hs, rfl⟩ | ⟨-, hok⟩ | ⟨-, e, -, rfl⟩
  · exact absurd hs ht
  · exact hok
  · exact absurd (State.raise_phase _ e) ht

/-- A completed `FREQ` leaves the counts of the input in `FREQ[]` and the size of their alphabet in `NSYM` (R59). -/
theorem exec_freq_writes {s t : State} (h : exec .freq s = .next t) (ht : t.phase ≠ .error) :
    t.freq = countBytes s.inputBytes ∧ t.nsym = nsymOf (countBytes s.inputBytes) := by
  obtain ⟨u, hu, rfl⟩ := command_next_ready h ht
  obtain ⟨-, rfl⟩ := (freqBody_ok _ _).mp hu
  exact ⟨rfl, rfl⟩

/-- A command whose pseudocode leaves `FREQ[]` as it was leaves it so whenever it ends outside `ERROR`. -/
theorem command_keeps_freq {s t : State} {w : Word} {body : State → Run State}
    (hbody : ∀ u v, body u = .ok v → v.freq = u.freq) (h : s.command w body = .next t) (ht : t.phase ≠ .error) :
    t.freq = s.freq := by
  obtain ⟨u, hu, rfl⟩ := command_next_ready h ht
  exact (hbody (s.accept w) u hu).trans (State.accept_freq s w)

theorem exec_nop_keeps_freq {s t : State} (h : exec .nop s = .next t) : t.freq = s.freq := by
  change execNop s = .next t at h
  unfold execNop at h
  split at h <;> cases h <;> rfl

theorem exec_clear_keeps_freq {s t : State} (h : exec .clear s = .next t) : t.freq = s.freq := by
  cases h
  rfl

theorem buildBody_keeps_freq (s t : State) (h : buildBody s = .ok t) : t.freq = s.freq := by
  obtain ⟨-, -, _, _, _, _, _, _, rfl⟩ := buildBody_writes h
  rfl

theorem genBody_keeps_freq (s t : State) (h : genBody s = .ok t) : t.freq = s.freq := by
  obtain ⟨-, _, _, _, rfl⟩ := genBody_writes h
  rfl

theorem hdrwBody_keeps_freq (s t : State) (h : hdrwBody s = .ok t) : t.freq = s.freq := by
  obtain ⟨-, _, _, _, rfl⟩ := hdrwBody_writes h
  rfl

theorem packBody_keeps_freq (s t : State) (h : packBody s = .ok t) : t.freq = s.freq := by
  obtain ⟨-, -, _, _, _, rfl⟩ := packBody_writes h
  rfl

theorem unpackBody_keeps_freq (s t : State) (h : unpackBody s = .ok t) : t.freq = s.freq := by
  obtain ⟨-, -, -, -, _, _, rfl⟩ := unpackBody_writes h
  rfl

/-- Only `FREQ`, `HDRP` and the two composites write `FREQ[]` (R60). -/
theorem exec_keeps_freq {i : Instr} {s t : State} (hfreq : i ≠ .freq) (hhdrp : i ≠ .hdrp) (hcompress : i ≠ .compress)
    (hdecompress : i ≠ .decompress) (h : exec i s = .next t) (ht : t.phase ≠ .error) : t.freq = s.freq := by
  cases i with
  | nop => exact exec_nop_keeps_freq h
  | clear => exact exec_clear_keeps_freq h
  | build => exact command_keeps_freq buildBody_keeps_freq h ht
  | gen => exact command_keeps_freq genBody_keeps_freq h ht
  | hdrw => exact command_keeps_freq hdrwBody_keeps_freq h ht
  | pack => exact command_keeps_freq packBody_keeps_freq h ht
  | unpack => exact command_keeps_freq unpackBody_keeps_freq h ht
  | freq => exact absurd rfl hfreq
  | hdrp => exact absurd rfl hhdrp
  | compress => exact absurd rfl hcompress
  | decompress => exact absurd rfl hdecompress

end Sys2Proof.Machine

namespace Sys2Proof
open Sys2Proof.Machine

/-- Settles O22: a completed `FREQ` holds the counts of the input, and the other commands' pseudocode keeps `FREQ[]`. -/
theorem freqTableSumsToInLen : Obligations.FreqTableSumsToInLen := by
  refine ⟨?_, fun _ _ _ hfreq hhdrp hcompress hdecompress h ht =>
    exec_keeps_freq hfreq hhdrp hcompress hdecompress h ht⟩
  intro s t _ h hdone
  obtain ⟨hfreq, hnsym⟩ := exec_freq_writes h (by simp [hdone])
  have hl := inputBytes_length_lt s
  have hcard : t.nsym.toNat = s.inputBytes.toFinset.card := by rw [hnsym, nsymOf_countBytes_toNat hl]
  refine ⟨?_, fun x => ?_, hcard, ?_⟩
  · rw [hfreq, sum_countBytes hl, inputBytes_length]
  · rw [hfreq, freqAt_countBytes_toNat hl, ← mem_inputBytes]
    exact List.count_pos_iff
  · rw [hnsym, nsymOf_toNat]
    exact alphabetOf_length_le _

end Sys2Proof
end

section
/-!
PROOF. The code table of a tree that is one leaf (42_code_table_generator.md R72): the one code block G1 stores, and the
payload bit count when a single symbol has a code.
-/
namespace Sys2Proof.Machine

/-! ## One code in the table -/

theorem leafByte_toNat {id : NodeId} (h : id.toNat < 256) : (leafByte id).toNat = id.toNat := by
  simp [leafByte, Nat.mod_eq_of_lt h]

/-- A leaf's id is the number of its own byte value and of no other. -/
theorem toNat_eq_toNat_iff_eq_leafByte {id : NodeId} (h : id.toNat < 256) (x : Byte) :
    id.toNat = x.toNat ↔ x = leafByte id := by
  rw [← leafByte_toNat h, BitVec.toNat_inj, eq_comm]

/-- The strings of a table in which only the leaf `id` has been given a code. -/
theorem code_setCode_noCodes (s : State) {id : NodeId} (h : id.toNat < 256) (p : BitString) (x : Byte) :
    tget (s.noCodes.setCode id p).code x.toNat [] = if x = leafByte id then p else [] := by
  rw [codeString_setCode _ _ _ _ h, codeString_noCodes]
  simp only [toNat_eq_toNat_iff_eq_leafByte h]

/-- The lengths beside those strings. -/
theorem codeLenAt_setCode_noCodes (s : State) {id : NodeId} (h : id.toNat < 256) (p : BitString) (x : Byte) :
    (s.noCodes.setCode id p).codeLenAt x = if x = leafByte id then BitVec.ofNat 8 p.length else 0 := by
  rw [codeLenAt_setCode _ _ _ _ h, codeLenAt_noCodes]
  simp only [toNat_eq_toNat_iff_eq_leafByte h]

/-! ## The payload bit count -/

/-- Where no symbol but `x` has a code, only the term of `x` counts. It is 0 for an absent `x`, which the alphabet leaves
out of the sum. -/
theorem payloadBits_of_single_code {s : State} {x : Byte} (h : ∀ y, y ≠ x → s.codeLenAt y = 0) :
    s.payloadBits = (freqAt s.freq x).toNat * (s.codeLenAt x).toNat := by
  have hsum : s.payloadBits = (alphabetOf s.freq).count x • ((freqAt s.freq x).toNat * (s.codeLenAt x).toNat) :=
    List.sum_map_eq_nsmul_single x _ fun y hy _ => by simp [h y hy]
  rw [hsum, (alphabetOf_nodup s.freq).count]
  by_cases hx : freqAt s.freq x = 0
  · simp [hx]
  · rw [if_pos ((mem_alphabetOf _ _).mpr hx), one_smul]

/-! ## `GEN` on a leaf -/

theorem assignCodes_leaf {s : State} (h : s.root.toNat < 256) :
    s.assignCodes = .ok (s.noCodes.setCode s.root [false]) :=
  if_pos ((isLeaf_iff s.root).mpr h)

/-- The single code has one bit, so the payload has one bit per byte of the input (R72). -/
theorem payloadBits_leaf {s : State} (h : s.root.toNat < 256) :
    (s.noCodes.setCode s.root [false]).payloadBits = (freqAt s.freq (leafByte s.root)).toNat := by
  have hlen := codeLenAt_setCode_noCodes s h [false]
  rw [payloadBits_of_single_code (x := leafByte s.root) fun y hy => by rw [hlen, if_neg hy], hlen, if_pos rfl]
  exact Nat.mul_one _

/-- With a leaf as root `GEN` answers exactly this state (block G1). -/
theorem genBody_leaf {s : State} (hv : s.treeV = true) (h : s.root.toNat < 256) :
    genBody s =
      .ok ((s.noCodes.setCode s.root [false]).withLbits (freqAt s.freq (leafByte s.root)).toNat).flagsGen := by
  rw [genBody, hv, require_true, run_ok_bind, assignCodes_leaf h, run_ok_bind, payloadBits_leaf h]

end Sys2Proof.Machine

namespace Sys2Proof
open Sys2Proof.Machine

/-- Settles O29: the code table after `GEN` holds "0" for the root and nothing else, so `LBITS` is the one term of the
sum. That holds with a leaf as root in every accepting state; the invariant is not needed. -/
theorem genOfOneSymbol : Obligations.GenOfOneSymbol := by
  intro s _ hready hv hroot
  have hcode := code_setCode_noCodes (s.accept (encode .gen)) hroot [false]
  have hlen := codeLenAt_setCode_noCodes (s.accept (encode .gen)) hroot [false]
  refine ⟨_, command_ok hready (genBody_leaf hv hroot), ⟨rfl, rfl, rfl, rfl⟩, ?_, ?_, ?_, fun x hx => ⟨?_, ?_⟩⟩
  · exact (hcode _).trans (if_pos rfl)
  · exact (hlen _).trans (if_pos rfl)
  · have hfreq := (freqAt s.freq (leafByte s.root)).isLt
    exact Nat.mod_eq_of_lt (hfreq.trans (by decide))
  · exact (hcode x).trans (if_neg hx)
  · exact (hlen x).trans (if_neg hx)

end Sys2Proof
end

section
/-!
PROOF. The header codec (43_header_codec.md R75 to R79): the bytes `HDRW` leaves in `OUT`, the checks of `HDRP` in the
order R77 makes them, and the parse of a stream that begins with those bytes.
-/
namespace Sys2Proof.Machine

/-! ## The output of `HDRW` -/

theorem outputBytes_length (s : State) : s.outputBytes.length = s.outLen.toNat := by simp [State.outputBytes]

@[simp] theorem flagsHdrw_outputBytes (s : State) : s.flagsHdrw.outputBytes = s.outputBytes := rfl

@[simp] theorem outRestart_outputBytes (s : State) : s.outRestart.outputBytes = [] := rfl

/-- Bytes put where all have room stand in `OUT` after what it held. -/
theorem putAll_outputBytes {s : State} (h : s.BuffersOk) {l : List Byte}
    (hroom : s.outLen.toNat + l.length ≤ s.caps.outCap) : (s.putAll l).outputBytes = s.outputBytes ++ l := by
  induction l generalizing s with
  | nil => simp [State.putAll]
  | cons v l ih =>
    rw [List.length_cons] at hroom
    have hlt : s.outLen.toNat < s.caps.outCap := by omega
    have hput := put_outputBytes h hlt v
    have hlen : (s.put v).outLen.toNat = s.outLen.toNat + 1 := by
      rw [← outputBytes_length, hput, List.length_append, outputBytes_length, List.length_singleton]
    have hrest : (s.put v).outLen.toNat + l.length ≤ (s.put v).caps.outCap := by
      rw [hlen, State.put_caps]
      omega
    calc ((s.put v).putAll l).outputBytes
        = (s.put v).outputBytes ++ l := ih (put_buffersOk h hlt v) hrest
      _ = s.outputBytes ++ v :: l := by rw [hput, List.append_assoc, List.singleton_append]

/-- A header is at most 1285 bytes, which every `OUT` holds (00_scope.md R7), so `HDRW` leaves it whole (R75). -/
theorem hdrwBody_output {s t : State} (hb : s.BuffersOk) (h : hdrwBody s = .ok t) :
    t.pad = padCount s.lbits.toNat ∧ t.outputBytes = headerBytes s.freq s.nsym (padCount s.lbits.toNat) := by
  obtain ⟨-, rfl⟩ := (hdrwBody_ok s t).mp h
  have hstart : (s.withPad (padCount s.lbits.toNat)).outRestart.BuffersOk :=
    outRestart_buffersOk (hb.congr rfl rfl rfl rfl)
  have hroom : (headerBytes s.freq s.nsym (padCount s.lbits.toNat)).length ≤ s.caps.outCap := by
    obtain ⟨-, -, hcap, -⟩ := hb.caps
    have := alphabetOf_length_le s.freq
    rw [headerBytes_length]
    omega
  constructor
  · obtain ⟨n, b, hput⟩ := putAll_writes (headerBytes s.freq s.nsym (padCount s.lbits.toNat))
      (s.withPad (padCount s.lbits.toNat)).outRestart
    rw [hput]
    rfl
  · rw [flagsHdrw_outputBytes, putAll_outputBytes hstart ((Nat.zero_add _).trans_le hroom), outRestart_outputBytes,
      List.nil_append]

/-- Where the codes are valid, `NSYM` is the size of the alphabet (10_state.md R18, R26). -/
theorem nsym_of_codeV {s : State} (hi : s.Inv) (hcode : s.codeV = true) : s.nsym = nsymOf s.freq :=
  hi.nsymOk (hi.flags.treeFreq (hi.flags.codeTree hcode)).1

/-! ## The checks before the entries -/

theorem parseStream_empty {s : State} (h : s.inLen = 0) :
    s.parseStream = .ok (s.withHeader (Vector.replicate 256 0) 0 0 0) := if_pos h

theorem parseStream_of_pos {s : State} (h : 0 < s.inLen.toNat) : s.parseStream = s.parseHeader :=
  if_neg fun h0 => by simp [h0] at h

/-- Fewer than 4 bytes hold no count (R77). -/
theorem parseHeader_short {s : State} (h : s.inLen.toNat < 4) : s.parseHeader = .error (.raise .hdrTrunc) := if_pos h

theorem parseHeader_count {s : State} (h4 : 4 ≤ s.inLen.toNat) (hn : 256 < (s.inWord 0).toNat) :
    s.parseHeader = .error (.raise .hdrCount) :=
  (if_neg (Nat.not_lt.mpr h4)).trans (if_pos hn)

/-- Fewer bytes than the count asks for (R77). -/
theorem parseHeader_truncated {s : State} (h4 : 4 ≤ s.inLen.toNat) (hn : (s.inWord 0).toNat ≤ 256)
    (hlen : s.inLen.toNat < 5 * (s.inWord 0).toNat + 5) : s.parseHeader = .error (.raise .hdrTrunc) :=
  (if_neg (Nat.not_lt.mpr h4)).trans ((if_neg (Nat.not_lt.mpr hn)).trans (if_pos hlen))

section
variable {s : State} (hn : (s.inWord 0).toNat ≤ 256) (hlen : 5 * (s.inWord 0).toNat + 5 ≤ s.inLen.toNat)
include hn hlen

/-- With the count legal and the stream long enough for it, the entries are parsed and then the pad count (R77). -/
theorem parseHeader_long :
    s.parseHeader = (do
      let t ← s.parseEntries (s.inWord 0).toNat 0 none (Vector.replicate 256 0)
      if (s.inByte (4 + 5 * (s.inWord 0).toNat)).toNat > 7 then .error (.raise .hdrPad)
      else .ok (s.withHeader t (s.inWord 0).toNat ((s.inByte (4 + 5 * (s.inWord 0).toNat)).setWidth 3)
        (5 * (s.inWord 0).toNat + 5))) :=
  (if_neg (by omega)).trans ((if_neg (Nat.not_lt.mpr hn)).trans (if_neg (Nat.not_lt.mpr hlen)))

theorem parseHeader_entries {x : Stop}
    (h : s.parseEntries (s.inWord 0).toNat 0 none (Vector.replicate 256 0) = .error x) : s.parseHeader = .error x := by
  rw [parseHeader_long hn hlen, h, run_error_bind]

theorem parseHeader_pad {t : Vector (BitVec 32) 256}
    (h : s.parseEntries (s.inWord 0).toNat 0 none (Vector.replicate 256 0) = .ok t)
    (hpad : 7 < (s.inByte (4 + 5 * (s.inWord 0).toNat)).toNat) : s.parseHeader = .error (.raise .hdrPad) := by
  rw [parseHeader_long hn hlen, h, run_ok_bind, if_pos hpad]

end

/-! ## How `HDRP` ends -/

@[simp] theorem inByte_accept (s : State) (w : Word) (i : Nat) : (s.accept w).inByte i = s.inByte i := rfl

@[simp] theorem inWord_accept (s : State) (w : Word) (i : Nat) : (s.accept w).inWord i = s.inWord i := rfl

@[simp] theorem parseEntries_accept (s : State) (w : Word) (n i : Nat) (prev : Option Byte)
    (t : Vector (BitVec 32) 256) : (s.accept w).parseEntries n i prev t = s.parseEntries n i prev t := by
  induction n generalizing i prev t with
  | zero => rfl
  | succ n ih => rw [parseEntries_succ, parseEntries_succ, ih, inByte_accept, inWord_accept]

/-- The parse does not read `CMD`, and keeps it. -/
theorem parseStream_accept (s : State) (w : Word) :
    (s.accept w).parseStream = s.parseStream.map fun t => t.accept w := by
  unfold State.parseStream State.parseHeader
  simp only [State.accept_inLen, inByte_accept, inWord_accept, parseEntries_accept]
  split
  · rfl
  split
  · rfl
  split
  · rfl
  split
  · rfl
  cases s.parseEntries (s.inWord 0).toNat 0 none (Vector.replicate 256 0) with
  | error x => rfl
  | ok t =>
    rw [run_ok_bind, run_ok_bind, apply_ite (Except.map _)]
    rfl

section
variable {s : State} (hready : s.ready)
include hready

theorem hdrp_raises_inLenRange (h : s.caps.inCap < s.inLen.toNat) : Claims.raises .hdrp s .inLenRange := by
  refine command_raise hready ?_
  rw [hdrpBody, requireInLen_of_gt (s := s.accept (encode .hdrp)) h, run_error_bind]

variable (hcap : s.inLen.toNat ≤ s.caps.inCap)
include hcap

/-- Where the input fits `IN`, `HDRP` raises what the parse of the stream raises. -/
theorem hdrp_raises {e : CmdError} (h : s.parseStream = .error (.raise e)) : Claims.raises .hdrp s e := by
  refine command_raise hready ?_
  rw [hdrpBody, requireInLen_of_le (s := s.accept (encode .hdrp)) hcap, run_ok_bind, parseStream_accept, h]
  rfl

/-- Where the input fits `IN`, `HDRP` completes with what the parse of the stream recovers. -/
theorem exec_hdrp_of_parseStream {t : State} (h : s.parseStream = .ok t) :
    exec .hdrp s = .next (t.accept (encode .hdrp)).flagsHdrp.complete := by
  refine command_ok hready ?_
  rw [hdrpBody, requireInLen_of_le (s := s.accept (encode .hdrp)) hcap, run_ok_bind, parseStream_accept, h]
  rfl

/-- A stream that is not empty has a header, whose errors `HDRP` raises (R77). -/
theorem hdrp_raises_of_parseHeader {e : CmdError} (hpos : 0 < s.inLen.toNat)
    (h : s.parseHeader = .error (.raise e)) : Claims.raises .hdrp s e :=
  hdrp_raises hready hcap ((parseStream_of_pos hpos).trans h)

end

/-! ## The entries in stream order -/

/-- The symbol of the entry before entry `i`. -/
def State.symBefore (s : State) (i : Nat) : Option Byte :=
  match i with
  | 0 => none
  | i + 1 => some (s.inByte (4 + 5 * i))

/-- Entry `i` is out of order: its symbol is not above the symbol before (30_encoding.md R53). -/
abbrev State.disorderAt (s : State) (i : Nat) : Prop :=
  0 < i ∧ (s.inByte (4 + 5 * i)).toNat ≤ (s.inByte (4 + 5 * (i - 1))).toNat

/-- The first `m` entries pass both checks of an entry: the order, then the frequency (R77). -/
abbrev State.entriesLegal (s : State) (m : Nat) : Prop :=
  ∀ j, j < m → ¬ s.disorderAt j ∧ s.inWord (5 + 5 * j) ≠ 0

theorem symBefore_any_iff (s : State) (i : Nat) :
    (s.symBefore i).any (fun q => decide ((s.inByte (4 + 5 * i)).toNat ≤ q.toNat)) = true ↔ s.disorderAt i := by
  cases i <;> simp [State.symBefore, State.disorderAt]

section
variable {s : State} {i : Nat} (n : Nat) (t : Vector (BitVec 32) 256)

theorem parseEntries_disorder (h : s.disorderAt i) :
    s.parseEntries (n + 1) i (s.symBefore i) t = .error (.raise .hdrOrder) :=
  if_pos ((symBefore_any_iff s i).mpr h)

theorem parseEntries_zeroFreq (h : ¬ s.disorderAt i) (hzero : s.inWord (5 + 5 * i) = 0) :
    s.parseEntries (n + 1) i (s.symBefore i) t = .error (.raise .hdrZeroFreq) :=
  (if_neg ((symBefore_any_iff s i).not.mpr h)).trans (if_pos hzero)

theorem parseEntries_legal (h : ¬ s.disorderAt i) (hpos : s.inWord (5 + 5 * i) ≠ 0) :
    s.parseEntries (n + 1) i (s.symBefore i) t =
      s.parseEntries n (i + 1) (s.symBefore (i + 1)) (tset t (s.inByte (4 + 5 * i)).toNat (s.inWord (5 + 5 * i))) :=
  (if_neg ((symBefore_any_iff s i).not.mpr h)).trans (if_neg hpos)

end

/-- The entries before the first failing one only fill the table. -/
theorem parseEntries_skip {s : State} (n : Nat) {m : Nat} (h : s.entriesLegal m) (t : Vector (BitVec 32) 256) :
    ∃ u, s.parseEntries (n + m) 0 none t = s.parseEntries n m (s.symBefore m) u := by
  induction m generalizing n with
  | zero => exact ⟨t, rfl⟩
  | succ m ih =>
    obtain ⟨u, hu⟩ := ih (n + 1) fun j hj => h j (Nat.lt_succ_of_lt hj)
    obtain ⟨horder, hpos⟩ := h m (Nat.lt_succ_self m)
    exact ⟨_, by rw [← parseEntries_legal n u horder hpos, ← hu, Nat.add_assoc, Nat.add_comm 1 m]⟩

section
variable {s : State} {n i : Nat} (hi : i < n) (hbefore : s.entriesLegal i) (t : Vector (BitVec 32) 256)
include hi hbefore

/-- The parse reaches the first failing entry. -/
theorem parseEntries_reach : ∃ k u, s.parseEntries n 0 none t = s.parseEntries (k + 1) i (s.symBefore i) u := by
  obtain ⟨k, rfl⟩ : ∃ k, n = k + 1 + i := ⟨n - 1 - i, by omega⟩
  exact ⟨k, parseEntries_skip (k + 1) hbefore t⟩

theorem parseEntries_first_disorder (h : s.disorderAt i) : s.parseEntries n 0 none t = .error (.raise .hdrOrder) := by
  obtain ⟨k, u, hu⟩ := parseEntries_reach hi hbefore t
  rw [hu, parseEntries_disorder k u h]

theorem parseEntries_first_zeroFreq (h : ¬ s.disorderAt i) (hzero : s.inWord (5 + 5 * i) = 0) :
    s.parseEntries n 0 none t = .error (.raise .hdrZeroFreq) := by
  obtain ⟨k, u, hu⟩ := parseEntries_reach hi hbefore t
  rw [hu, parseEntries_zeroFreq k u h hzero]

end

theorem parseEntries_all_legal {s : State} {n : Nat} (h : s.entriesLegal n) (t : Vector (BitVec 32) 256) :
    ∃ u, s.parseEntries n 0 none t = .ok u := by
  obtain ⟨u, hu⟩ := parseEntries_skip 0 h t
  exact ⟨u, by rw [← Nat.zero_add n, hu, parseEntries_zero]⟩

/-! ## Bytes at a place of `IN` -/

/-- `IN` holds the bytes of `l` from index `i` on. -/
def State.holdsAt (s : State) (i : Nat) (l : List Byte) : Prop :=
  match l with
  | [] => True
  | b :: l => s.inByte i = b ∧ s.holdsAt (i + 1) l

theorem holdsAt_cons (s : State) (i : Nat) (b : Byte) (l : List Byte) :
    s.holdsAt i (b :: l) ↔ s.inByte i = b ∧ s.holdsAt (i + 1) l := Iff.rfl

theorem holdsAt_append (s : State) (i : Nat) (l r : List Byte) :
    s.holdsAt i (l ++ r) ↔ s.holdsAt i l ∧ s.holdsAt (i + l.length) r := by
  induction l generalizing i with
  | nil => simp [State.holdsAt]
  | cons b l ih =>
    rw [List.cons_append, holdsAt_cons, holdsAt_cons, ih, and_assoc, List.length_cons, Nat.add_right_comm, Nat.add_assoc]

theorem holdsAt_map_range' (s : State) (i n : Nat) : s.holdsAt i ((List.range' i n).map s.inByte) := by
  induction n generalizing i with
  | zero => trivial
  | succ n ih => exact ⟨rfl, ih (i + 1)⟩

theorem holdsAt_inputBytes (s : State) : s.holdsAt 0 s.inputBytes := by
  rw [State.inputBytes, List.range_eq_range']
  exact holdsAt_map_range' s 0 _

/-- A word written most significant byte first is read back (30_encoding.md R52). -/
theorem inWord_of_holdsAt {s : State} {i : Nat} {v : Word} (h : s.holdsAt i (be32 v)) : s.inWord i = v := by
  obtain ⟨h0, h1, h2, h3, -⟩ := h
  rw [State.inWord, h0, h1, h2, h3, be32Of_be32]

/-! ## The parse of what `HDRW` wrote -/

/-- The entries of the symbols `l` of the table `f`, in ascending order, are accepted, and fill in what `t` lacks of `f`. -/
theorem parseEntries_of_holdsAt {s : State} {f t : Vector (BitVec 32) 256} {l : List Byte} {i : Nat} {prev : Option Byte}
    (hstream : s.holdsAt (4 + 5 * i) (l.flatMap fun x => x :: be32 (freqAt f x)))
    (hsorted : l.Pairwise fun a b => a.toNat < b.toNat) (hprev : ∀ q ∈ prev, ∀ x ∈ l, q.toNat < x.toNat)
    (hpos : ∀ x ∈ l, freqAt f x ≠ 0) (hrest : ∀ y, y ∉ l → freqAt t y = freqAt f y) :
    s.parseEntries l.length i prev t = .ok f := by
  induction l generalizing i prev t with
  | nil => rw [List.length_nil, parseEntries_zero, freq_ext fun y => hrest y List.not_mem_nil]
  | cons x l ih =>
    obtain ⟨hx, hsorted⟩ := List.pairwise_cons.mp hsorted
    rw [List.flatMap_cons, List.cons_append, holdsAt_cons, holdsAt_append] at hstream
    obtain ⟨hsym, hword, hstream⟩ := hstream
    have hfreq : s.inWord (5 + 5 * i) = freqAt f x := inWord_of_holdsAt (by rwa [Nat.add_right_comm] at hword)
    have horder : ¬ prev.any (fun q => decide (x.toNat ≤ q.toNat)) = true := by
      cases prev with
      | none => simp
      | some q => simpa using hprev q rfl x List.mem_cons_self
    rw [List.length_cons, parseEntries_succ, hsym, hfreq, if_neg horder, if_neg (hpos x List.mem_cons_self)]
    refine ih ?_ hsorted ?_ (fun y hy => hpos y (List.mem_cons_of_mem x hy)) fun y hy => ?_
    · rw [be32_length] at hstream
      rwa [show 4 + 5 * (i + 1) = 4 + 5 * i + 1 + 4 by omega]
    · rintro q ⟨⟩
      exact hx
    · rw [freqAt_tset]
      split
      · rw [‹x = y›]
      · exact hrest y (by simp [hy, Ne.symm ‹¬x = y›])

/-- The header of a table is read back as that table (R79). -/
theorem parseStream_headerBytes {s : State} {f : Vector (BitVec 32) 256} {p : BitVec 3} {rest : List Byte}
    (h : s.inputBytes = headerBytes f (nsymOf f) p ++ rest) :
    s.parseStream = .ok (s.withHeader f (alphabetOf f).length p (5 * (alphabetOf f).length + 5)) := by
  have hlen : 5 * (alphabetOf f).length + 5 ≤ s.inLen.toNat := by
    rw [← inputBytes_length, h, List.length_append, headerBytes_length]
    omega
  have hsize := headerBytes_length f (nsymOf f) p
  have hholds := holdsAt_inputBytes s
  rw [h, holdsAt_append] at hholds
  simp only [headerBytes, List.length_append, be32_length, List.length_singleton] at hsize
  simp only [headerBytes, holdsAt_append, List.length_append, be32_length, Nat.zero_add] at hholds
  obtain ⟨⟨⟨hcount, hentries⟩, hpad, -⟩, -⟩ := hholds
  have hn : (s.inWord 0).toNat = (alphabetOf f).length := by
    rw [inWord_of_holdsAt hcount, BitVec.toNat_setWidth_of_le (by decide), nsymOf_toNat]
  have hparse : s.parseEntries (alphabetOf f).length 0 none (Vector.replicate 256 0) = .ok f := by
    refine parseEntries_of_holdsAt hentries (alphabetOf_sorted f) (by simp) (fun x => (mem_alphabetOf f x).mp) ?_
    intro y hy
    rw [freqAt_zero, eq_comm]
    exact not_not.mp (mt (mem_alphabetOf f y).mpr hy)
  have hplace : s.inByte (4 + 5 * (alphabetOf f).length) = p.setWidth 8 := by
    rw [← hpad]
    congr 1
    omega
  have hp := p.isLt
  rw [parseStream_of_pos (by omega), parseHeader_ok, hn, hplace]
  refine ⟨alphabetOf_length_le f, hlen, ?_, f, hparse, ?_⟩
  · rw [BitVec.toNat_setWidth_of_le (by decide)]
    omega
  · rw [BitVec.setWidth_setWidth_of_le _ (by decide), BitVec.setWidth_eq]

end Sys2Proof.Machine

namespace Sys2Proof
open Sys2Proof.Machine Sys2Proof.Claims

/-- Settles O39: the stream begins with the header bytes of the writer's table, in which `NSYM` is the size of the
alphabet by the invariant, and the parse of those bytes gives the table back. -/
theorem headerRoundTrip : Obligations.HeaderRoundTrip := by
  intro s t u rest hi _ hwrite hdone hready hcap hinput
  obtain ⟨w, hbody, rfl⟩ := command_next_ready hwrite (by simp [hdone])
  have hcode : s.codeV = true := ((hdrwBody_ok _ _).mp hbody).1
  have hnsym := nsym_of_codeV hi hcode
  obtain ⟨hpad, hout⟩ := hdrwBody_output (s := s.accept (encode .hdrw)) (hi.buffers.congr rfl rfl rfl rfl) hbody
  have hstream : u.inputBytes = headerBytes s.freq (nsymOf s.freq) w.pad ++ rest := by
    rw [hinput, ← hnsym, hpad]
    exact congrArg (· ++ rest) hout
  refine ⟨_, exec_hdrp_of_parseStream hready hcap (parseStream_headerBytes hstream), ⟨rfl, rfl, rfl, rfl⟩, rfl, hnsym.symm,
    rfl, ?_⟩
  have hle := alphabetOf_length_le s.freq
  rw [hnsym, nsymOf_toNat]
  exact Nat.mod_eq_of_lt (by omega)

/-- Settles O37: the checks in the order of R77. The entries before the first failing one only fill the table, so the
parse reaches that one; where none fails, it reaches the pad count. -/
theorem hdrpCheckOrder : Obligations.HdrpCheckOrder := by
  intro s hready hne n sym zero disorder
  have hn : (s.inWord 0).toNat = n := inWord_toNat s 0
  have hzero (i : Nat) : s.inWord (5 + 5 * i) = 0 ↔ zero i := inWord_eq_zero s _
  have hpos : 0 < s.inLen.toNat := Nat.pos_of_ne_zero fun h => hne (BitVec.eq_of_toNat_eq h)
  rw [← hn]
  split
  · exact hdrp_raises_inLenRange hready ‹_›
  have hcap : s.inLen.toNat ≤ s.caps.inCap := Nat.not_lt.mp ‹_›
  split
  · exact hdrp_raises_of_parseHeader hready hcap hpos (parseHeader_short ‹_›)
  have h4 : 4 ≤ s.inLen.toNat := Nat.not_lt.mp ‹_›
  split
  · exact hdrp_raises_of_parseHeader hready hcap hpos (parseHeader_count h4 ‹_›)
  have hcount : (s.inWord 0).toNat ≤ 256 := Nat.not_lt.mp ‹_›
  split
  · exact hdrp_raises_of_parseHeader hready hcap hpos (parseHeader_truncated h4 hcount ‹_›)
  have hlen : 5 * (s.inWord 0).toNat + 5 ≤ s.inLen.toNat := Nat.not_lt.mp ‹_›
  have legal {m : Nat} (h : ∀ j, j < m → ¬ disorder j ∧ ¬ zero j) : s.entriesLegal m :=
    fun j hj => (h j hj).imp_right (hzero j).not.mpr
  refine ⟨fun i hi hbefore => ⟨fun h => ?_, fun horder h => ?_⟩, fun hall hpad => ?_⟩
  · exact hdrp_raises_of_parseHeader hready hcap hpos (parseHeader_entries hcount hlen
      (parseEntries_first_disorder hi (legal hbefore) _ h))
  · exact hdrp_raises_of_parseHeader hready hcap hpos (parseHeader_entries hcount hlen
      (parseEntries_first_zeroFreq hi (legal hbefore) _ horder ((hzero i).mpr h)))
  · obtain ⟨t, ht⟩ := parseEntries_all_legal (legal hall) (Vector.replicate 256 0)
    exact hdrp_raises_of_parseHeader hready hcap hpos (parseHeader_pad hcount hlen ht hpad)

/-- Settles O38: the zero-length stream is not parsed at all, and a count of 0 leaves no entry between the count and the
pad count. -/
theorem hdrpEmptyAlphabet : Obligations.HdrpEmptyAlphabet := by
  intro s hready hcap
  refine ⟨fun hempty => ?_, fun hpos hshort => ?_, fun h4 hcount => ?_⟩
  · exact ⟨_, exec_hdrp_of_parseStream hready hcap (parseStream_empty hempty), ⟨rfl, rfl, rfl, rfl⟩, freqAt_zero, rfl, rfl,
      rfl⟩
  · exact hdrp_raises_of_parseHeader hready hcap hpos (parseHeader_short hshort)
  have hpos : 0 < s.inLen.toNat := by omega
  have hn : (s.inWord 0).toNat = 0 := by
    rw [(inWord_eq_zero s 0).mpr fun k hk => by rw [Nat.zero_add, hcount k hk]]
    rfl
  have hle : (s.inWord 0).toNat ≤ 256 := by omega
  have hparse : s.parseEntries (s.inWord 0).toNat 0 none (Vector.replicate 256 0) = .ok (Vector.replicate 256 0) := by
    rw [hn, parseEntries_zero]
  refine ⟨fun hlen => ?_, fun hlen hpad => ?_, fun hlen hpad => ?_⟩
  · exact hdrp_raises_of_parseHeader hready hcap hpos (parseHeader_truncated h4 hle (by omega))
  · exact hdrp_raises_of_parseHeader hready hcap hpos (parseHeader_pad hle (by omega) hparse (by rwa [hn]))
  · have hok := (parseHeader_ok s _).mpr ⟨hle, by omega, by rwa [hn], _, hparse, rfl⟩
    rw [hn] at hok
    refine ⟨_, exec_hdrp_of_parseStream hready hcap ((parseStream_of_pos hpos).trans hok), ⟨rfl, rfl, rfl, rfl⟩,
      freqAt_zero, rfl, ?_, rfl⟩
    exact (BitVec.toNat_setWidth 3 _).trans (Nat.mod_eq_of_lt (Nat.lt_succ_of_le hpad))

end Sys2Proof
end

section
/-!
PROOF. `UNPACK` with a leaf as root (44_bit_packer.md R84): every payload bit emits that leaf's byte, so only the room in
`OUT` decides how the command ends.
-/
namespace Sys2Proof.Machine

/-! ## One byte emitted -/

theorem emit_of_lt {s : State} (h : s.outLen.toNat < s.caps.outCap) (v : Byte) : s.emit v = .ok (s.put v) :=
  if_neg h.ne

theorem emit_of_full {s : State} (h : s.outLen.toNat = s.caps.outCap) (v : Byte) : s.emit v = .error (.raise .outFull) :=
  if_pos h

/-- `OUT_LEN` does not wrap, since `OUT_CAP` is a 32-bit number (00_scope.md R7, R8). -/
theorem put_outLen_toNat {s : State} (hb : s.BuffersOk) (h : s.outLen.toNat < s.caps.outCap) (v : Byte) :
    (s.put v).outLen.toNat = s.outLen.toNat + 1 := by
  rw [← outputBytes_length, put_outputBytes hb h, List.length_append, outputBytes_length, List.length_singleton]

/-! ## The decode loop on a leaf -/

/-- With room for one byte per bit the loop emits the root's byte once for each, and the cursor is still at the root. -/
theorem unpackLoop_leaf_of_room {s : State} (hb : s.BuffersOk) (hroot : s.root.toNat < 256) {n : Nat} (j : Nat)
    (hroom : s.outLen.toNat + n ≤ s.caps.outCap) :
    State.unpackLoop n j s.root s = .ok (s.putAll (List.replicate n (leafByte s.root))) := by
  induction n generalizing s j with
  | zero => exact if_pos rfl
  | succ n ih =>
    have hlt : s.outLen.toNat < s.caps.outCap := by omega
    have hrest : (s.put (leafByte s.root)).outLen.toNat + n ≤ s.caps.outCap := by
      rw [put_outLen_toNat hb hlt]
      omega
    rw [unpackLoop_leaf hroot, emit_of_lt hlt, run_ok_bind]
    exact ih (put_buffersOk hb hlt _) hroot (j + 1) hrest

/-- With more bits than `OUT` has room for, one of them meets a full `OUT`. -/
theorem unpackLoop_leaf_of_no_room {s : State} (hb : s.BuffersOk) (hroot : s.root.toNat < 256) {n : Nat} (j : Nat)
    (cur : NodeId) (hroom : s.caps.outCap < s.outLen.toNat + n) :
    State.unpackLoop n j cur s = .error (.raise .outFull) := by
  induction n generalizing s j with
  | zero => exact absurd hb.outFits (Nat.not_le.mpr hroom)
  | succ n ih =>
    rw [unpackLoop_leaf hroot]
    rcases hb.outFits.eq_or_lt with hfull | hlt
    · rw [emit_of_full hfull, run_error_bind]
    · have hrest : s.caps.outCap < (s.put (leafByte s.root)).outLen.toNat + n := by
        rw [put_outLen_toNat hb hlt]
        omega
      rw [emit_of_lt hlt, run_ok_bind]
      exact ih (put_buffersOk hb hlt _) hroot (j + 1) hrest

/-! ## Around the loop -/

/-- Past its checks `UNPACK` is the decode loop over `LBITS` bits, from an empty `OUT` (block U1). -/
theorem unpackBody_of_checks {s : State} (hcode : s.codeV = true) (hhdr : s.hdrV = true)
    (hcap : s.inLen.toNat ≤ s.caps.inCap) (hlen : s.payloadLength = s.lbits.toNat) :
    unpackBody s = State.unpackLoop s.lbits.toNat 0 s.root s.outRestart := by
  rw [unpackBody, hcode, hhdr, requireInLen_of_le hcap, decide_eq_true hlen]
  rfl

/-- Valid codes over a leaf are those `GEN` made of it: one bit for each byte counted (R72). -/
theorem lbits_of_leaf {s : State} (hi : s.Inv) (hcode : s.codeV = true) (hroot : s.root.toNat < 256) :
    s.lbits.toNat = (freqAt s.freq (leafByte s.root)).toNat := by
  obtain ⟨s0, t, hfreq, -, -, hroot0, hgen, -, -, hlbits⟩ := hi.codesGenerated hcode
  obtain ⟨htree, -⟩ := genBody_writes hgen
  rw [genBody_leaf htree (hroot0 ▸ hroot), hfreq, hroot0] at hgen
  cases hgen
  have hlt := (freqAt s.freq (leafByte s.root)).isLt
  rw [← hlbits]
  exact Nat.mod_eq_of_lt (hlt.trans (by decide))

end Sys2Proof.Machine

namespace Sys2Proof
open Sys2Proof.Machine Sys2Proof.Claims

/-- Settles O46: past the checks only the decode loop is left, and on a leaf it ends by the room in `OUT` alone, whatever
the bits are. -/
theorem unpackOfOneSymbol : Obligations.UnpackOfOneSymbol := by
  intro s hi hready hcode hhdr hcap hroot hlen
  have hbody := unpackBody_of_checks (s := s.accept (encode .unpack)) hcode hhdr hcap hlen
  have hb : (s.accept (encode .unpack)).outRestart.BuffersOk := outRestart_buffersOk (hi.buffers.congr rfl rfl rfl rfl)
  refine ⟨lbits_of_leaf hi hcode hroot, fun hfits => ?_, fun hfull => command_raise hready (hbody.trans ?_)⟩
  · have hroom : (s.accept (encode .unpack)).outRestart.outLen.toNat + s.lbits.toNat ≤ s.caps.outCap :=
      (Nat.zero_add _).trans_le hfits
    refine ⟨_, command_ok hready (hbody.trans (unpackLoop_leaf_of_room hb hroot 0 hroom)), ?_, ?_⟩
    · obtain ⟨n, b, hput⟩ := putAll_writes (List.replicate s.lbits.toNat (leafByte s.root))
        (s.accept (encode .unpack)).outRestart
      exact ⟨rfl, rfl, rfl, congrArg State.cmd hput⟩
    · exact putAll_outputBytes hb (by rwa [List.length_replicate])
  · exact unpackLoop_leaf_of_no_room hb hroot 0 _ (hfull.trans_eq (Nat.zero_add _).symm)

end Sys2Proof
end

section
/-!
PROOF. The system command `NOP` (45_control_and_composite.md R87): what it answers in `ERROR` and outside it.
-/
namespace Sys2Proof.Machine

/-- In `ERROR` the word is ignored, `CMD` included (R87). -/
theorem exec_nop_of_error {s : State} (h : s.phase = .error) : exec .nop s = .next s :=
  if_pos h

/-- Outside `ERROR` the word is accepted into `CMD`, and nothing else happens (R87). -/
theorem exec_nop_of_ready {s : State} (h : s.ready) : exec .nop s = .next (s.accept (encode .nop)) :=
  if_neg h

/-- `NOP` is the word of all zeros (30_encoding.md R47). -/
theorem encode_nop : encode .nop = 0 := by
  decide

end Sys2Proof.Machine

namespace Sys2Proof
open Sys2Proof.Machine

/-- Settles O10, by the two modes: outside `ERROR` the accepted word, all zeros, is what `CMD` holds; in `ERROR` no word
is accepted. -/
theorem nopChangesOnlyCmd : Obligations.NopChangesOnlyCmd := by
  intro s
  constructor
  · intro hready
    rw [exec_nop_of_ready hready, encode_nop, State.accept]
  · exact exec_nop_of_error

end Sys2Proof
end

section
/-!
PROOF. The tree builder as a sequence of queues (41_tree_builder.md R62 to R69): what one merge does to the members of
`PQ`, and what the merge loop leaves in the arena after all of them.
-/
namespace Sys2Proof.Machine
open Sys2Proof.Claims

/-! ## The queue as a set -/

/-- The members of `PQ`, as a set. -/
def State.members (s : State) : Finset NodeId := s.queue.toFinset

theorem mem_members (s : State) (id : NodeId) : id ∈ s.members ↔ id ∈ s.queue := List.mem_toFinset

theorem card_members (s : State) : s.members.card = s.queue.length := List.toFinset_card_of_nodup (queue_nodup s)

theorem ltNode_iff_before (w : Vector Weight 511) (a b : NodeId) : ltNode w a b = true ↔ before w a b := ltNode_iff w a b

/-- What is least stays so under weights that agree on the set. -/
theorem isLeast_congr {w v : Vector Weight 511} {m : NodeId} {q : Finset NodeId} (h : isLeast w m q)
    (hw : ∀ id ∈ q, weightOf v id = weightOf w id) : isLeast v m q := by
  obtain ⟨hm, hleast⟩ := h
  refine ⟨hm, fun x hx hne => ?_⟩
  rw [before, hw m hm, hw x hx]
  exact hleast x hx hne

/-- A set has at most one least member. -/
theorem isLeast_unique {w : Vector Weight 511} {m m' : NodeId} {q : Finset NodeId} (h : isLeast w m q)
    (h' : isLeast w m' q) : m = m' := by
  by_contra hne
  have h1 := h.2 m' h'.1 (Ne.symm hne)
  have h2 := h'.2 m h.1 hne
  unfold before at h1 h2
  omega

/-! ## One merge -/

/-- Merge `k` of the arena of `t`, with `q k` the members of `PQ` before it (R66). -/
def mergesAt (t : State) (q : Nat → Finset NodeId) (k : Nat) : Prop :=
  isLeast t.weight (leftOf t k) (q k) ∧
  isLeast t.weight (rightOf t k) ((q k).erase (leftOf t k)) ∧
  weightOf t.weight (BitVec.ofNat 9 (256 + k)) = weightOf t.weight (leftOf t k) + weightOf t.weight (rightOf t k) ∧
  q (k + 1) = insert (BitVec.ofNat 9 (256 + k)) (((q k).erase (leftOf t k)).erase (rightOf t k))

/-- The loop can run from `s`: every member is a node made so far, the ids suffice, and the weights add up without a
wrap (00_scope.md R8). -/
structure Mergeable (s : State) : Prop where
  made : ∀ id ∈ s.members, id.toNat < 256 + s.nint.toNat
  nonempty : 0 < s.members.card
  ids : s.nint.toNat + s.members.card ≤ 256
  weights : ∑ id ∈ s.members, weightOf s.weight id < 2 ^ 40

/-- What one pass of the loop makes of `s`, whose two least members are `a` and `b`. -/
structure Joined (s u : State) (a b : NodeId) : Prop where
  leastLeft : isLeast s.weight a s.members
  leastRight : isLeast s.weight b (s.members.erase a)
  nint : u.nint.toNat = s.nint.toNat + 1
  members : u.members = insert s.nextNode ((s.members.erase a).erase b)
  left : ∀ k, leftOf u k = if k = s.nint.toNat then a else leftOf s k
  right : ∀ k, rightOf u k = if k = s.nint.toNat then b else rightOf s k
  weight : ∀ id, weightOf u.weight id =
    if id = s.nextNode then weightOf s.weight a + weightOf s.weight b else weightOf s.weight id

theorem isLeast_members {s : State} {a : NodeId} (ha : a ∈ s.queue)
    (hleast : ∀ x ∈ s.queue, x ≠ a → ltNode s.weight a x = true) : isLeast s.weight a s.members :=
  ⟨(mem_members s a).mpr ha, fun x hx hne => (ltNode_iff_before _ _ _).mp (hleast x ((mem_members s x).mp hx) hne)⟩

theorem isLeast_members_erase {s : State} {a b : NodeId} (hb : b ∈ s.queue) (hne : b ≠ a)
    (hleast : ∀ x ∈ s.queue, x ≠ a → x ≠ b → ltNode s.weight b x = true) :
    isLeast s.weight b (s.members.erase a) := by
  refine ⟨Finset.mem_erase.mpr ⟨hne, (mem_members s b).mpr hb⟩, fun x hx hxb => ?_⟩
  obtain ⟨hxa, hx⟩ := Finset.mem_erase.mp hx
  exact (ltNode_iff_before _ _ _).mp (hleast x ((mem_members s x).mp hx) hxa hxb)

/-- The weights of two members do not wrap when added. -/
theorem weightOf_add_lt {s : State} (hs : Mergeable s) {a b : NodeId} (ha : a ∈ s.members) (hb : b ∈ s.members)
    (hne : b ≠ a) : weightOf s.weight a + weightOf s.weight b < 2 ^ 40 := by
  have hsub : {a, b} ⊆ s.members := by
    intro x hx
    rcases Finset.mem_insert.mp hx with rfl | hx
    · exact ha
    · rwa [Finset.mem_singleton.mp hx]
  have hle := Finset.sum_le_sum_of_subset (f := weightOf s.weight) hsub
  rw [Finset.sum_pair hne.symm] at hle
  exact hle.trans_lt hs.weights

/-- With two members or more, a pass of the loop joins the two least (R66). -/
theorem mergeLoop_joins {s : State} (hs : Mergeable s) (h2 : 2 ≤ s.members.card) (n : Nat) :
    ∃ a b u, State.mergeLoop (n + 1) s = State.mergeLoop n u ∧ Joined s u a b := by
  obtain ⟨a, b, s2, hloop, rfl, ha, haleast, hb, hba, hbleast⟩ := mergeLoop_step (card_members s ▸ h2) n
  have hleastA := isLeast_members ha haleast
  have hleastB := isLeast_members_erase hb hba hbleast
  have hids := hs.ids
  have hnint : s.nint.toNat < 255 := by omega
  have hsum := weightOf_add_lt hs hleastA.1 (Finset.mem_of_mem_erase hleastB.1) hba
  have hnext : s.nextNode.toNat < 511 := by
    rw [nextNode_toNat]
    omega
  refine ⟨a, b, _, hloop, hleastA, hleastB, ?_, ?_, ?_, ?_, ?_⟩
  · show (s.nint + 1).toNat = _
    rw [BitVec.toNat_add]
    exact Nat.mod_eq_of_lt (by simp; omega)
  · ext id
    have hqueue := mem_queue_removed { s with inq := tset s.inq a.toNat false } b id
    rw [mem_queue_removed s a id] at hqueue
    rw [mem_members, Finset.mem_insert, Finset.mem_erase, Finset.mem_erase, mem_members]
    refine (mem_queue_join { s with inq := tset (tset s.inq a.toNat false) b.toNat false } a b id hnint).trans
      (or_congr Iff.rfl (hqueue.trans ?_))
    tauto
  · intro k
    show tget (tset s.left s.nint.toNat a) k 0 = _
    simp [tget_tset, hnint, eq_comm, leftOf]
  · intro k
    show tget (tset s.right s.nint.toNat b) k 0 = _
    simp [tget_tset, hnint, eq_comm, rightOf]
  · intro id
    show (tget (tset s.weight s.nextNode.toNat (weightAt s.weight a + weightAt s.weight b)) id.toNat 0).toNat = _
    by_cases hid : id = s.nextNode
    · rw [hid, tget_tset_self _ _ _ hnext, if_pos rfl, BitVec.toNat_add]
      exact Nat.mod_eq_of_lt hsum
    · rw [tget_tset_ne _ _ _ fun e => hid (BitVec.eq_of_toNat_eq e.symm), if_neg hid]
      rfl

theorem nextNode_eq (s : State) : s.nextNode = BitVec.ofNat 9 (256 + s.nint.toNat) := by
  apply BitVec.eq_of_toNat_eq
  have := s.nint.isLt
  rw [nextNode_toNat, BitVec.toNat_ofNat]
  omega

theorem nextNode_notMem {s : State} (hs : Mergeable s) (a b : NodeId) :
    s.nextNode ∉ (s.members.erase a).erase b := fun hmem => by
  have := hs.made _ (Finset.mem_of_mem_erase (Finset.mem_of_mem_erase hmem))
  rw [nextNode_toNat] at this
  omega

section
variable {s u : State} {a b : NodeId} (hs : Mergeable s) (h : Joined s u a b)
include h

/-- A node made before the merge keeps its weight. -/
theorem Joined.weight_of_lt {id : NodeId} (hid : id.toNat < 256 + s.nint.toNat) :
    weightOf u.weight id = weightOf s.weight id := by
  rw [h.weight, if_neg]
  rintro rfl
  rw [nextNode_toNat] at hid
  omega

include hs

theorem Joined.card_members : u.members.card + 1 = s.members.card := by
  have h1 := Finset.card_erase_add_one h.leastLeft.1
  have h2 := Finset.card_erase_add_one h.leastRight.1
  rw [h.members, Finset.card_insert_of_notMem (nextNode_notMem hs a b)]
  omega

/-- The sum of the weights in the queue does not change. -/
theorem Joined.sum_weights :
    ∑ id ∈ u.members, weightOf u.weight id = ∑ id ∈ s.members, weightOf s.weight id := by
  have hrest : ∑ id ∈ (s.members.erase a).erase b, weightOf u.weight id =
      ∑ id ∈ (s.members.erase a).erase b, weightOf s.weight id :=
    Finset.sum_congr rfl fun id hid =>
      h.weight_of_lt (hs.made id (Finset.mem_of_mem_erase (Finset.mem_of_mem_erase hid)))
  rw [h.members, Finset.sum_insert (nextNode_notMem hs a b), hrest, h.weight, if_pos rfl,
    ← Finset.add_sum_erase _ _ h.leastLeft.1, ← Finset.add_sum_erase _ _ h.leastRight.1, Nat.add_assoc]

theorem Joined.mergeable : Mergeable u := by
  have hcard := h.card_members hs
  have hids := hs.ids
  refine ⟨fun id hid => ?_, ?_, ?_, (h.sum_weights hs).trans_lt hs.weights⟩
  · rw [h.nint]
    rw [h.members, Finset.mem_insert] at hid
    rcases hid with rfl | hid
    · rw [nextNode_toNat]
      omega
    · have := hs.made id (Finset.mem_of_mem_erase (Finset.mem_of_mem_erase hid))
      omega
  · rw [h.members, Finset.card_insert_of_notMem (nextNode_notMem hs a b)]
    exact Nat.succ_pos _
  · rw [h.nint]
    omega

end

/-! ## The whole loop -/

/-- What the loop makes of `s`: the queues `q` from index `NINT` on, and the arena of `t`. -/
structure MergedTo (s t : State) (q : Nat → Finset NodeId) : Prop where
  first : q s.nint.toNat = s.members
  merges : ∀ k, s.nint.toNat ≤ k → k + 1 < s.nint.toNat + s.members.card → mergesAt t q k
  last : q t.nint.toNat = t.members
  single : t.members.card = 1
  nint : t.nint.toNat + 1 = s.nint.toNat + s.members.card
  left : ∀ k, k < s.nint.toNat → leftOf t k = leftOf s k
  right : ∀ k, k < s.nint.toNat → rightOf t k = rightOf s k
  weight : ∀ id, id.toNat < 256 + s.nint.toNat → weightOf t.weight id = weightOf s.weight id

theorem mergedTo_self {s : State} (h : s.members.card = 1) : MergedTo s s fun _ => s.members :=
  ⟨rfl, fun k hk hlt => by omega, rfl, h, by rw [h], fun _ _ => rfl, fun _ _ => rfl, fun _ _ => rfl⟩

/-- A run of the loop from `u` becomes one from `s`, of which `u` is one merge away. -/
theorem mergedTo_of_joined {s u t : State} {a b : NodeId} {q : Nat → Finset NodeId} (hs : Mergeable s)
    (h : Joined s u a b) (hu : MergedTo u t q) : MergedTo s t (Function.update q s.nint.toNat s.members) := by
  have hcard := h.card_members hs
  have hnint := h.nint
  have hrun := hu.nint
  have hpos := (h.mergeable hs).nonempty
  have hq (j : Nat) (hj : s.nint.toNat < j) : Function.update q s.nint.toNat s.members j = q j :=
    Function.update_of_ne hj.ne' _ _
  have hw (id : NodeId) (hid : id.toNat < 256 + s.nint.toNat) : weightOf t.weight id = weightOf s.weight id := by
    rw [hu.weight id (by omega), h.weight_of_lt hid]
  have hmem (id : NodeId) (hid : id ∈ s.members) : weightOf t.weight id = weightOf s.weight id := hw id (hs.made id hid)
  have hleft : leftOf t s.nint.toNat = a := by rw [hu.left _ (by omega), h.left, if_pos rfl]
  have hright : rightOf t s.nint.toNat = b := by rw [hu.right _ (by omega), h.right, if_pos rfl]
  have hb := Finset.mem_of_mem_erase h.leastRight.1
  refine ⟨Function.update_self _ _ _, fun k hk hlt => ?_, ?_, hu.single, by omega, fun k hk => ?_, fun k hk => ?_, hw⟩
  · rcases hk.eq_or_lt with rfl | hk
    · refine ⟨?_, ?_, ?_, ?_⟩
      · rw [Function.update_self, hleft]
        exact isLeast_congr h.leastLeft hmem
      · rw [Function.update_self, hleft, hright]
        exact isLeast_congr h.leastRight fun id hid => hmem id (Finset.mem_of_mem_erase hid)
      · rw [hleft, hright, hmem a h.leastLeft.1, hmem b hb, ← nextNode_eq,
          hu.weight _ (by rw [nextNode_toNat]; omega), h.weight, if_pos rfl]
      · rw [hq _ (Nat.lt_succ_self _), Function.update_self, hleft, hright, ← nextNode_eq, ← h.members, ← hu.first, hnint]
    · have := hu.merges k (by omega) (by omega)
      unfold mergesAt at this ⊢
      rwa [hq k hk, hq (k + 1) (by omega)]
  · rw [hq _ (by omega), hu.last]
  · rw [hu.left k (by omega), h.left, if_neg hk.ne]
  · rw [hu.right k (by omega), h.right, if_neg hk.ne]

/-- The loop merges until one member is left, within the bound of R67. -/
theorem mergeLoop_mergedTo {s : State} (hs : Mergeable s) {n : Nat} (hn : s.members.card ≤ n + 1) :
    ∃ q, MergedTo s (State.mergeLoop n s) q := by
  induction n generalizing s with
  | zero =>
    have := hs.nonempty
    exact ⟨_, mergedTo_self (by omega)⟩
  | succ n ih =>
    by_cases h2 : 2 ≤ s.members.card
    · obtain ⟨a, b, u, hloop, hu⟩ := mergeLoop_joins hs h2 n
      have hcard := hu.card_members hs
      obtain ⟨q, hq⟩ := ih (hu.mergeable hs) (by omega)
      rw [hloop]
      exact ⟨_, mergedTo_of_joined hs hu hq⟩
    · have := hs.nonempty
      rw [mergeLoop_stop (by rw [← card_members]; omega)]
      exact ⟨_, mergedTo_self (by omega)⟩

/-! ## From the leaves -/

theorem members_initQueue (s : State) : s.initQueue.members = ((alphabetOf s.freq).map leafOf).toFinset := by
  ext id
  rw [mem_members, mem_queue_init, List.mem_toFinset, List.mem_map]
  constructor
  · rintro ⟨hid, hfreq⟩
    refine ⟨leafByte id, ?_, leafOf_leafByte hid⟩
    rwa [mem_alphabetOf, freqAt, leafByte_toNat hid]
  · rintro ⟨x, hx, rfl⟩
    rw [leafOf_toNat]
    exact ⟨x.isLt, (mem_alphabetOf _ _).mp hx⟩

theorem leafOf_injective : Function.Injective leafOf :=
  Function.LeftInverse.injective leafByte_leafOf

theorem card_members_initQueue (s : State) : s.initQueue.members.card = (alphabetOf s.freq).length := by
  rw [members_initQueue, List.toFinset_card_of_nodup ((alphabetOf_nodup _).map leafOf_injective), List.length_map]

/-- At most 256 frequencies of 32 bits: their sum fits in 40 bits (00_scope.md R8). -/
theorem initQueue_mergeable {s : State} (h : alphabetOf s.freq ≠ []) : Mergeable s.initQueue := by
  have hcard := card_members_initQueue s
  have hle := alphabetOf_length_le s.freq
  refine ⟨fun id hid => ?_, ?_, ?_, ?_⟩
  · have := ((mem_queue_init s id).mp ((mem_members _ _).mp hid)).1
    omega
  · rw [hcard]
    exact List.length_pos_iff.mpr h
  · show 0 + _ ≤ 256
    omega
  · have hbound : ∑ id ∈ s.initQueue.members, weightOf s.initQueue.weight id ≤ s.initQueue.members.card • (2 ^ 32 - 1) := by
      refine Finset.sum_le_card_nsmul _ _ _ fun id hid => ?_
      have := weightAt_init s id ((mem_members _ _).mp hid)
      have hlt := (tget s.freq id.toNat 0).isLt
      show (weightAt s.initQueue.weight id).toNat ≤ _
      omega
    rw [smul_eq_mul] at hbound
    omega

/-- The arena of `t`, `NINT` and `ROOT` are what the merges make of the leaves of `t`'s own frequency table. -/
structure State.IsBuilt (t : State) (q : Nat → Finset NodeId) : Prop where
  nint : t.nint.toNat + 1 = (alphabetOf t.freq).length
  merged : mergedFrom t.freq t (alphabetOf t.freq).length q

theorem queue_eq_singleton {s : State} (h : s.members.card = 1) : ∃ m, s.queue = [m] ∧ s.members = {m} := by
  obtain ⟨m, hm⟩ := List.length_eq_one_iff.mp ((card_members s).symm.trans h)
  exact ⟨m, hm, by rw [State.members, hm]; rfl⟩

/-- The merges of the leaves, taken to the end, are an arena that R62 to R67 describe. -/
theorem isBuilt_of_mergedTo {s t : State} {q : Nat → Finset NodeId} {m : NodeId} (h : alphabetOf s.freq ≠ [])
    (ht : MergedTo s.initQueue t q) (hfreq : t.freq = s.freq) (hroot : t.members = {m}) :
    State.IsBuilt { t with root := m } q := by
  have hcard := card_members_initQueue s
  have hnint : t.nint.toNat + 1 = (alphabetOf t.freq).length := by
    rw [ht.nint, hcard, hfreq]
    exact Nat.zero_add _
  have hfirst : q 0 = s.initQueue.members := ht.first
  refine ⟨hnint, fun id => ?_, fun id hid => ?_, fun k hk => ?_, ?_⟩
  · show _ ↔ _ ∧ tget t.freq id.toNat 0 ≠ 0
    rw [hfirst, hfreq, mem_members, mem_queue_init]
  · rw [hfirst] at hid
    show weightOf t.weight id = (tget t.freq id.toNat 0).toNat
    rw [ht.weight id ((initQueue_mergeable h).made id hid), hfreq]
    exact weightAt_init s id ((mem_members _ _).mp hid)
  · refine ht.merges k (Nat.zero_le k) ?_
    rw [hcard, ← hfreq]
    exact hk.trans_eq (Nat.zero_add _).symm
  · show q ((alphabetOf t.freq).length - 1) = {m}
    rw [← hnint, ← hroot, ← ht.last]
    rfl

/-! ## `BUILD` -/

theorem mergeLoop_freq (n : Nat) (s : State) : (State.mergeLoop n s).freq = s.freq := by
  obtain ⟨_, _, _, _, _, h⟩ := mergeLoop_writes n s
  rw [h]

/-- With an alphabet `BUILD` comes to its end, and its arena is that of the merges (block B1). -/
theorem buildBody_of_alphabet {s : State} (hf : s.freqV = true) (hn : s.nsym ≠ 0) (h : alphabetOf s.freq ≠ []) :
    ∃ t q, buildBody s = .ok t ∧ t.IsBuilt q := by
  have hle := alphabetOf_length_le s.freq
  obtain ⟨q, hq⟩ := mergeLoop_mergedTo (initQueue_mergeable h) (n := 255) (by rwa [card_members_initQueue])
  have hfreq := mergeLoop_freq 255 s.initQueue
  obtain ⟨m, hm, hroot⟩ := queue_eq_singleton hq.single
  have htake := (takeRoot_ok _ _).mpr ⟨m, hm, rfl⟩
  have hn' : (s.nsym != 0) = true := by simpa using hn
  have hbuilt := isBuilt_of_mergedTo h hq hfreq hroot
  generalize hloop : State.mergeLoop 255 s.initQueue = t at hbuilt htake
  rw [buildBody, hf, hn', require_true, run_ok_bind, require_true, run_ok_bind, hloop, htake, run_ok_bind]
  exact ⟨_, q, rfl, hbuilt.nint, hbuilt.merged⟩

/-- Without an alphabet the queue stays empty, and `BUILD` does not come to its end. -/
theorem alphabet_of_buildBody {s t : State} (h : buildBody s = .ok t) : alphabetOf s.freq ≠ [] := by
  intro hempty
  obtain ⟨_, -, h⟩ := (run_bind_ok _ _ _).mp h
  obtain ⟨_, -, h⟩ := (run_bind_ok _ _ _).mp h
  obtain ⟨u, hu, -⟩ := (run_bind_ok _ _ _).mp h
  obtain ⟨m, hm, -⟩ := (takeRoot_ok _ _).mp hu
  have hcard := card_members_initQueue s
  rw [hempty, card_members] at hcard
  rw [mergeLoop_stop (hcard.trans_le (Nat.zero_le 1))] at hm
  simp [hm] at hcard

theorem buildBody_isBuilt {s t : State} (h : buildBody s = .ok t) : ∃ q, t.IsBuilt q := by
  obtain ⟨hf, hn, -⟩ := buildBody_writes h
  obtain ⟨u, q, hu, hq⟩ := buildBody_of_alphabet hf hn (alphabet_of_buildBody h)
  obtain rfl := Except.ok.inj (h.symm.trans hu)
  exact ⟨q, hq⟩

theorem alphabet_of_nsym {s : State} (h : s.nsym = nsymOf s.freq) (hne : s.nsym ≠ 0) : alphabetOf s.freq ≠ [] := by
  rintro hempty
  apply hne
  apply BitVec.eq_of_toNat_eq
  rw [h, nsymOf_toNat, hempty]
  rfl

end Sys2Proof.Machine
end

section
/-!
PROOF. The shape of a built arena (41_tree_builder.md R67, R68): which nodes are in the queue before each merge, the parent
of every node, the weights, and that the frequency table alone decides all of it.
-/
namespace Sys2Proof.Machine
open Sys2Proof.Claims

/-! ## The merges of a built arena -/

/-- `id` is a child of internal node `256 + k`. -/
def State.childAt (s : State) (k : Nat) (id : NodeId) : Prop := id = leftOf s k ∨ id = rightOf s k

/-- The node exists before merge `k`: a present leaf, or an internal node of an earlier merge. -/
def State.madeBefore (s : State) (k : Nat) (id : NodeId) : Prop :=
  (id.toNat < 256 ∧ tget s.freq id.toNat 0 ≠ 0) ∨ (256 ≤ id.toNat ∧ id.toNat < 256 + k)

/-- The id of the node of merge `k`. -/
abbrev internal (k : Nat) : NodeId := BitVec.ofNat 9 (256 + k)

theorem internal_toNat {k : Nat} (hk : k < 256) : (internal k).toNat = 256 + k := by
  rw [BitVec.toNat_ofNat]
  omega

theorem eq_internal {id : NodeId} (h : 256 ≤ id.toNat) : id = internal (id.toNat - 256) := by
  apply BitVec.eq_of_toNat_eq
  have := id.isLt
  rw [internal_toNat (by omega)]
  omega

theorem madeBefore_nint (s : State) (id : NodeId) : s.madeBefore s.nint.toNat id ↔ s.nodeExists id := Iff.rfl

theorem madeBefore_zero (s : State) (id : NodeId) :
    s.madeBefore 0 id ↔ id.toNat < 256 ∧ tget s.freq id.toNat 0 ≠ 0 := by
  unfold State.madeBefore
  constructor
  · rintro (h | h)
    · exact h
    · omega
  · exact .inl

theorem madeBefore_succ (s : State) {k : Nat} (hk : k < 256) (id : NodeId) :
    s.madeBefore (k + 1) id ↔ id = internal k ∨ s.madeBefore k id := by
  have hid : id = internal k ↔ id.toNat = 256 + k := by
    rw [← BitVec.toNat_inj, internal_toNat hk]
  rw [hid]
  unfold State.madeBefore
  constructor
  · rintro (h | h)
    · exact .inr (.inl h)
    · by_cases e : id.toNat = 256 + k
      · exact .inl e
      · exact .inr (.inr ⟨h.1, by omega⟩)
  · rintro (h | h | h)
    · exact .inr (by omega)
    · exact .inl h
    · exact .inr (by omega)

theorem madeBefore_lt {s : State} {k : Nat} {id : NodeId} (h : s.madeBefore k id) : id.toNat < 256 + k := by
  unfold State.madeBefore at h
  omega

section
variable {s : State} {q : Nat → Finset NodeId} (h : s.IsBuilt q)
include h

theorem State.IsBuilt.nint_lt : s.nint.toNat < 256 := by
  have h1 := h.nint
  have h2 := alphabetOf_length_le s.freq
  omega

theorem State.IsBuilt.mem_first (id : NodeId) : id ∈ q 0 ↔ id.toNat < 256 ∧ tget s.freq id.toNat 0 ≠ 0 :=
  h.merged.1 id

theorem State.IsBuilt.leaf_weight {id : NodeId} (hid : id ∈ q 0) :
    weightOf s.weight id = (tget s.freq id.toNat 0).toNat :=
  h.merged.2.1 id hid

theorem State.IsBuilt.merges {k : Nat} (hk : k < s.nint.toNat) : mergesAt s q k := by
  refine h.merged.2.2.1 k ?_
  rw [← h.nint]
  omega

theorem State.IsBuilt.last : q s.nint.toNat = {s.root} := by
  have hlast := h.merged.2.2.2
  rwa [← h.nint] at hlast

theorem State.IsBuilt.child_mem {k : Nat} (hk : k < s.nint.toNat) {id : NodeId} (hid : s.childAt k id) : id ∈ q k := by
  obtain ⟨hl, hr, -, -⟩ := h.merges hk
  rcases hid with rfl | rfl
  · exact hl.1
  · exact Finset.mem_of_mem_erase hr.1

theorem State.IsBuilt.mem_next {k : Nat} (hk : k < s.nint.toNat) (id : NodeId) :
    id ∈ q (k + 1) ↔ id = internal k ∨ (id ∈ q k ∧ ¬ s.childAt k id) := by
  obtain ⟨-, -, -, hq⟩ := h.merges hk
  rw [hq, Finset.mem_insert, Finset.mem_erase, Finset.mem_erase, State.childAt]
  tauto

theorem State.IsBuilt.made_of_mem {k : Nat} (hk : k ≤ s.nint.toNat) {id : NodeId} (hid : id ∈ q k) :
    s.madeBefore k id := by
  induction k generalizing id with
  | zero => exact (madeBefore_zero s id).mpr ((h.mem_first id).mp hid)
  | succ k ih =>
    have hlt := h.nint_lt
    rw [madeBefore_succ s (by omega)]
    exact ((h.mem_next hk id).mp hid).imp_right fun hid => ih (Nat.le_of_succ_le hk) hid.1

/-- A child is older than its parent (R68 (c)). -/
theorem State.IsBuilt.child_made {k : Nat} (hk : k < s.nint.toNat) {id : NodeId} (hid : s.childAt k id) :
    s.madeBefore k id :=
  h.made_of_mem hk.le (h.child_mem hk hid)

theorem State.IsBuilt.child_lt {k : Nat} (hk : k < s.nint.toNat) {id : NodeId} (hid : s.childAt k id) :
    id.toNat < 256 + k :=
  madeBefore_lt (h.child_made hk hid)

theorem State.IsBuilt.child_exists {k : Nat} (hk : k < s.nint.toNat) {id : NodeId} (hid : s.childAt k id) :
    s.nodeExists id := by
  have hmade := h.child_made hk hid
  unfold State.madeBefore at hmade
  exact hmade.imp_right fun h => ⟨h.1, by omega⟩

theorem State.IsBuilt.left_ne_right {k : Nat} (hk : k < s.nint.toNat) : leftOf s k ≠ rightOf s k :=
  (Finset.ne_of_mem_erase (h.merges hk).2.1.1).symm

/-- The queue before merge `k` holds the nodes made so far that no merge so far has taken. -/
theorem State.IsBuilt.mem_queue_iff {k : Nat} (hk : k ≤ s.nint.toNat) (id : NodeId) :
    id ∈ q k ↔ s.madeBefore k id ∧ ∀ i, i < k → ¬ s.childAt i id := by
  induction k generalizing id with
  | zero =>
    rw [h.mem_first, madeBefore_zero]
    simp
  | succ k ih =>
    have hlt := h.nint_lt
    rw [h.mem_next hk, ih (Nat.le_of_succ_le hk), madeBefore_succ s (by omega)]
    constructor
    · rintro (rfl | ⟨⟨hmade, hno⟩, hk⟩)
      · refine ⟨.inl rfl, fun i hi hchild => ?_⟩
        have := h.child_lt (by omega) hchild
        rw [internal_toNat (by omega)] at this
        omega
      · refine ⟨.inr hmade, fun i hi => ?_⟩
        rcases Nat.lt_succ_iff_lt_or_eq.mp hi with hi | rfl
        · exact hno i hi
        · exact hk
    · rintro ⟨rfl | hmade, hno⟩
      · exact .inl rfl
      · exact .inr ⟨⟨hmade, fun i hi => hno i (Nat.lt_succ_of_lt hi)⟩, hno k (Nat.lt_succ_self k)⟩

/-! ## Parents -/

theorem State.IsBuilt.root_exists : s.nodeExists s.root :=
  h.made_of_mem le_rfl (by rw [h.last]; exact Finset.mem_singleton_self _)

theorem State.IsBuilt.root_not_child {k : Nat} (hk : k < s.nint.toNat) : ¬ s.childAt k s.root :=
  ((h.mem_queue_iff le_rfl s.root).mp (by rw [h.last]; exact Finset.mem_singleton_self _)).2 k hk

/-- A node is taken out of the queue once. -/
theorem State.IsBuilt.parent_unique {i j : Nat} (hi : i < s.nint.toNat) (hj : j < s.nint.toNat) {id : NodeId}
    (hci : s.childAt i id) (hcj : s.childAt j id) : i = j := by
  have later {i j : Nat} (hij : i < j) (hj : j < s.nint.toNat) (hci : s.childAt i id) : ¬ s.childAt j id :=
    fun hcj => ((h.mem_queue_iff hj.le id).mp (h.child_mem hj hcj)).2 i hij hci
  rcases Nat.lt_trichotomy i j with hij | hij | hij
  · exact absurd hcj (later hij hj hci)
  · exact hij
  · exact absurd hci (later hij hi hcj)

/-- A node that exists and is not the root was taken by some merge, since only the root is left. -/
theorem State.IsBuilt.exists_parent {id : NodeId} (hid : s.nodeExists id) (hne : id ≠ s.root) :
    ∃ k, k < s.nint.toNat ∧ s.childAt k id := by
  by_contra hno
  push Not at hno
  have hmem := (h.mem_queue_iff le_rfl id).mpr ⟨hid, hno⟩
  rw [h.last] at hmem
  exact hne (Finset.mem_singleton.mp hmem)

/-! ## Weights -/

theorem State.IsBuilt.internal_weight {k : Nat} (hk : k < s.nint.toNat) :
    weightOf s.weight (internal k) = weightOf s.weight (leftOf s k) + weightOf s.weight (rightOf s k) :=
  (h.merges hk).2.2.1

/-- The new node is not in the queue it is added to. -/
theorem State.IsBuilt.internal_notMem {k : Nat} (hk : k < s.nint.toNat) : internal k ∉ q k := fun hmem => by
  have hlt := h.nint_lt
  have := madeBefore_lt (h.made_of_mem hk.le hmem)
  rw [internal_toNat (by omega)] at this
  omega

/-- What a function of the nodes sums to over the queue, when every new node has the sum of its children's values and
something more. -/
theorem State.IsBuilt.sum_queue_add {M : Type} [AddCommMonoid M] (f : NodeId → M) (g : Nat → M)
    (hf : ∀ k, k < s.nint.toNat → f (internal k) = f (leftOf s k) + f (rightOf s k) + g k) {k : Nat}
    (hk : k ≤ s.nint.toNat) : ∑ id ∈ q k, f id = ∑ id ∈ q 0, f id + ∑ i ∈ Finset.range k, g i := by
  induction k with
  | zero => simp
  | succ k ih =>
    obtain ⟨hl, hr, -, hq⟩ := h.merges hk
    have hnot : internal k ∉ ((q k).erase (leftOf s k)).erase (rightOf s k) := fun hmem =>
      h.internal_notMem hk (Finset.mem_of_mem_erase (Finset.mem_of_mem_erase hmem))
    rw [Finset.sum_range_succ, ← add_assoc, ← ih (Nat.le_of_succ_le hk), hq, Finset.sum_insert hnot, hf k hk,
      ← Finset.add_sum_erase _ f hl.1, ← Finset.add_sum_erase _ f hr.1]
    abel

theorem State.IsBuilt.sum_queue {M : Type} [AddCommMonoid M] (f : NodeId → M)
    (hf : ∀ k, k < s.nint.toNat → f (internal k) = f (leftOf s k) + f (rightOf s k)) {k : Nat}
    (hk : k ≤ s.nint.toNat) : ∑ id ∈ q k, f id = ∑ id ∈ q 0, f id := by
  have hsum := h.sum_queue_add f (fun _ => 0) (fun k hk => by rw [hf k hk, add_zero]) hk
  rwa [Finset.sum_const_zero, add_zero] at hsum

/-- The leaves in the queue at the start are the alphabet. -/
theorem State.IsBuilt.first_eq : q 0 = ((alphabetOf s.freq).map leafOf).toFinset := by
  rw [← members_initQueue]
  ext id
  rw [h.mem_first, mem_members, mem_queue_init]

/-- A sum over the leaves in the queue at the start is one over the alphabet. -/
theorem State.IsBuilt.sum_first {M : Type} [AddCommMonoid M] (f : NodeId → M) :
    ∑ id ∈ q 0, f id = ((alphabetOf s.freq).map fun x => f (leafOf x)).sum := by
  rw [h.first_eq, List.sum_toFinset f ((alphabetOf_nodup _).map leafOf_injective), List.map_map]
  rfl

theorem State.IsBuilt.weight_leafOf {x : Byte} (hx : x ∈ alphabetOf s.freq) :
    weightOf s.weight (leafOf x) = (freqAt s.freq x).toNat := by
  have hmem : leafOf x ∈ q 0 := by
    rw [h.mem_first, leafOf_toNat]
    exact ⟨x.isLt, (mem_alphabetOf _ _).mp hx⟩
  rw [h.leaf_weight hmem, leafOf_toNat]
  rfl

/-- The root's weight is the sum of the frequencies (R68 (d)). -/
theorem State.IsBuilt.root_weight :
    weightOf s.weight s.root = ((alphabetOf s.freq).map fun x => (freqAt s.freq x).toNat).sum := by
  have hsum := h.sum_queue (weightOf s.weight) (fun k hk => h.internal_weight hk) le_rfl
  rw [h.last, Finset.sum_singleton, h.sum_first] at hsum
  rw [hsum]
  exact congrArg List.sum (List.map_congr_left fun x hx => h.weight_leafOf hx)

/-- What a later merge takes is not before what an earlier one took: it was in the earlier queue too, or was made
since. -/
theorem State.IsBuilt.weight_le_next {k : Nat} (hk : k + 1 < s.nint.toNat) :
    weightOf s.weight (internal k) ≤ weightOf s.weight (internal (k + 1)) := by
  have hk' : k < s.nint.toNat := Nat.lt_of_succ_lt hk
  obtain ⟨hl, hr, -, -⟩ := h.merges hk'
  have hadd := h.internal_weight hk
  have hle {a b : NodeId} {p : Finset NodeId} (ha : isLeast s.weight a p) (hb : b ∈ p) :
      weightOf s.weight a ≤ weightOf s.weight b := by
    by_cases e : b = a
    · rw [e]
    · have := ha.2 b hb e
      unfold before at this
      omega
  -- a child of the later merge that the earlier one did not make is no lighter than either child of the earlier one
  have hold {id : NodeId} (hc : s.childAt (k + 1) id) : id = internal k ∨
      (weightOf s.weight (leftOf s k) ≤ weightOf s.weight id ∧ weightOf s.weight (rightOf s k) ≤ weightOf s.weight id) := by
    rcases (h.mem_next hk' id).mp (h.child_mem hk hc) with hid | ⟨hid, hno⟩
    · exact .inl hid
    · have hne : id ≠ leftOf s k := fun e => hno (.inl e)
      exact .inr ⟨hle hl hid, hle hr (Finset.mem_erase.mpr ⟨hne, hid⟩)⟩
  rw [hadd]
  rcases hold (.inl rfl) with e | ⟨h1, -⟩
  · rw [e]
    exact Nat.le_add_right _ _
  · rcases hold (.inr rfl) with e | ⟨-, h2⟩
    · rw [e]
      exact Nat.le_add_left _ _
    · rw [h.internal_weight hk']
      exact Nat.add_le_add h1 h2

end

/-! ## The frequency table decides the arena -/

/-- Two arenas agree on the nodes made before merge `k` and on the merges before it. -/
structure SameMerges (s t : State) (q r : Nat → Finset NodeId) (k : Nat) : Prop where
  queue : q k = r k
  weight : ∀ id, s.madeBefore k id → weightOf s.weight id = weightOf t.weight id
  left : ∀ i, i < k → leftOf s i = leftOf t i
  right : ∀ i, i < k → rightOf s i = rightOf t i

/-- Merge `k` takes the same two nodes from the same queue under the same weights. -/
theorem SameMerges.next {s t : State} {q r : Nat → Finset NodeId} {k : Nat} (hs : s.IsBuilt q) (ht : t.IsBuilt r)
    (hks : k < s.nint.toNat) (hkt : k < t.nint.toNat) (h : SameMerges s t q r k) : SameMerges s t q r (k + 1) := by
  obtain ⟨hl, hr, hw, hq⟩ := hs.merges hks
  obtain ⟨kl, kr, kw, kq⟩ := ht.merges hkt
  have hmade (id : NodeId) (hid : id ∈ q k) : weightOf t.weight id = weightOf s.weight id :=
    (h.weight id (hs.made_of_mem hks.le hid)).symm
  have hleft : leftOf s k = leftOf t k := by
    refine isLeast_unique (isLeast_congr hl hmade) ?_
    rwa [h.queue]
  have hright : rightOf s k = rightOf t k := by
    refine isLeast_unique (isLeast_congr hr fun id hid => hmade id (Finset.mem_of_mem_erase hid)) ?_
    rwa [h.queue, hleft]
  have upto {f g : Nat → NodeId} (hfg : ∀ i, i < k → f i = g i) (hk : f k = g k) (i : Nat) (hi : i < k + 1) :
      f i = g i := by
    rcases Nat.lt_succ_iff_lt_or_eq.mp hi with hi | rfl
    · exact hfg i hi
    · exact hk
  refine ⟨?_, fun id hid => ?_, upto h.left hleft, upto h.right hright⟩
  · rw [hq, kq, h.queue, hleft, hright]
  · have hlt := hs.nint_lt
    rcases (madeBefore_succ s (by omega) id).mp hid with rfl | hid
    · rw [hw, kw, ← hleft, ← hright, hmade _ hl.1, hmade _ (Finset.mem_of_mem_erase hr.1)]
    · exact h.weight id hid

theorem sameMerges_of_freq {s t : State} {q r : Nat → Finset NodeId} (hs : s.IsBuilt q) (ht : t.IsBuilt r)
    (hfreq : s.freq = t.freq) : s.nint = t.nint ∧ s.root = t.root ∧ SameMerges s t q r s.nint.toNat := by
  have hnint : s.nint.toNat = t.nint.toNat := by
    have h1 := hs.nint
    have h2 := ht.nint
    rw [hfreq] at h1
    omega
  have hfirst : q 0 = r 0 := by rw [hs.first_eq, ht.first_eq, hfreq]
  have hall : ∀ k, k ≤ s.nint.toNat → SameMerges s t q r k := by
    intro k hk
    induction k with
    | zero =>
      refine ⟨hfirst, fun id hid => ?_, fun i hi => by omega, fun i hi => by omega⟩
      have hid := (hs.mem_first id).mpr ((madeBefore_zero s id).mp hid)
      rw [hs.leaf_weight hid, ht.leaf_weight (hfirst ▸ hid), hfreq]
    | succ k ih => exact (ih (Nat.le_of_succ_le hk)).next hs ht hk (hnint ▸ hk)
  refine ⟨BitVec.eq_of_toNat_eq hnint, ?_, hall _ le_rfl⟩
  have hlast := (hall _ le_rfl).queue
  rw [hs.last, hnint, ht.last] at hlast
  exact Finset.singleton_injective hlast

/-- A single present leaf is the root, and no node is created (R67). -/
theorem buildBody_single {s t : State} (h : buildBody s = .ok t) (h1 : (alphabetOf s.freq).length = 1) :
    t.left = s.left ∧ t.right = s.right := by
  obtain ⟨_, -, h⟩ := (run_bind_ok _ _ _).mp h
  obtain ⟨_, -, h⟩ := (run_bind_ok _ _ _).mp h
  obtain ⟨u, hu, h⟩ := (run_bind_ok _ _ _).mp h
  have hstop : State.mergeLoop 255 s.initQueue = s.initQueue :=
    mergeLoop_stop (by rw [← card_members, card_members_initQueue, h1]) 255
  obtain ⟨m, -, rfl⟩ := (takeRoot_ok _ _).mp hu
  obtain rfl := Except.ok.inj h
  rw [hstop]
  exact ⟨rfl, rfl⟩

/-! ## Where the invariant holds -/

theorem State.IsBuilt.congr {s t : State} {q : Nat → Finset NodeId} (h : s.IsBuilt q) (hf : t.freq = s.freq)
    (hw : t.weight = s.weight) (hl : t.left = s.left) (hr : t.right = s.right) (hn : t.nint = s.nint)
    (hroot : t.root = s.root) : t.IsBuilt q := by
  refine ⟨by rw [hn, hf]; exact h.nint, ?_⟩
  have hm := h.merged
  unfold mergedFrom leftOf rightOf at hm ⊢
  rwa [hf, hw, hl, hr, hroot]

/-- A valid tree is one that the merges of the present frequency table make (10_state.md R26). -/
theorem State.TreeBuilt.isBuilt {s : State} (h : s.TreeBuilt) (ht : s.treeV = true) : ∃ q, s.IsBuilt q := by
  obtain ⟨s0, t, hfreq, hbuild, hw, hl, hr, hn, hroot⟩ := h ht
  obtain ⟨q, hq⟩ := buildBody_isBuilt hbuild
  have htf := buildBody_keeps_freq _ _ hbuild
  exact ⟨q, hq.congr (by rw [htf, hfreq]) hw.symm hl.symm hr.symm hn.symm hroot.symm⟩

theorem nsym_of_treeV {s : State} (hi : s.Inv) (ht : s.treeV = true) : s.nsym = nsymOf s.freq :=
  hi.nsymOk (hi.flags.treeFreq ht).1

/-- The sum over all table entries is the sum over the alphabet. -/
theorem sum_table (freq : Vector (BitVec 32) 256) :
    ((List.range 256).map fun i => (tget freq i 0).toNat).sum =
      ((alphabetOf freq).map fun x => (freqAt freq x).toNat).sum := by
  have hsupport : ∀ i ∈ Finset.range 256, i ∉ ((alphabetOf freq).map BitVec.toNat).toFinset → (tget freq i 0).toNat = 0 := by
    intro i hi hnot
    have hi := Finset.mem_range.mp hi
    by_contra hne
    apply hnot
    rw [List.mem_toFinset, List.mem_map]
    refine ⟨BitVec.ofNat 8 i, (mem_alphabetOf _ _).mpr ?_, Nat.mod_eq_of_lt hi⟩
    rw [freqAt, BitVec.toNat_ofNat, Nat.mod_eq_of_lt hi]
    intro h0
    rw [h0] at hne
    exact hne rfl
  have hsub : ((alphabetOf freq).map BitVec.toNat).toFinset ⊆ Finset.range 256 := by
    intro i hi
    obtain ⟨x, -, rfl⟩ := List.mem_map.mp (List.mem_toFinset.mp hi)
    exact Finset.mem_range.mpr x.isLt
  calc ((List.range 256).map fun i => (tget freq i 0).toNat).sum
      = ∑ i ∈ Finset.range 256, (tget freq i 0).toNat := rfl
    _ = ∑ i ∈ ((alphabetOf freq).map BitVec.toNat).toFinset, (tget freq i 0).toNat :=
        (Finset.sum_subset hsub hsupport).symm
    _ = ((alphabetOf freq).map fun x => (freqAt freq x).toNat).sum := by
        rw [List.sum_toFinset _ ((alphabetOf_nodup _).map BitVec.toNat_injective), List.map_map]
        rfl

end Sys2Proof.Machine

namespace Sys2Proof
open Sys2Proof.Machine Sys2Proof.Claims

/-- Settles O26: the queue before each merge holds exactly the nodes made and not yet taken, so every node but the one left
at the end has one parent. -/
theorem treeIsFull : Obligations.TreeIsFull := by
  intro s hi ht
  obtain ⟨q, h⟩ := hi.treeBuilt.isBuilt ht
  refine ⟨h.root_exists, ?_, fun k hk => ?_, fun id hid hne => ?_⟩
  · rw [nsym_of_treeV hi ht, nsymOf_toNat]
    exact h.nint
  · have hl : s.childAt k (leftOf s k) := .inl rfl
    have hr : s.childAt k (rightOf s k) := .inr rfl
    exact ⟨h.child_exists hk hl, h.child_exists hk hr, h.left_ne_right hk, h.child_lt hk hl, h.child_lt hk hr,
      fun e => h.root_not_child hk (e ▸ hl), fun e => h.root_not_child hk (e ▸ hr)⟩
  · have side {k : Nat} : s.childAt k id ↔ ∃ b : Bool, (if b then rightOf s k else leftOf s k) = id := by
      simp only [Bool.exists_bool, State.childAt, eq_comm (a := id), Bool.false_eq_true, if_false, if_true]
    obtain ⟨k, hk, hc⟩ := h.exists_parent hid hne
    obtain ⟨b, hb⟩ := side.mp hc
    refine ⟨(k, b), ⟨hk, hb⟩, ?_⟩
    rintro ⟨j, c⟩ ⟨hj, hcb⟩
    obtain rfl : j = k := h.parent_unique hj hk (side.mpr ⟨c, hcb⟩) hc
    have hlr := h.left_ne_right hj
    cases b with
    | false =>
      cases c with
      | false => rfl
      | true => exact absurd (hb.trans hcb.symm) hlr
    | true =>
      cases c with
      | false => exact absurd (hcb.trans hb.symm) hlr
      | true => rfl

/-- Settles O27: the sum over the queue is the same before every merge, and a merge takes nodes no lighter than those the
merge before took. -/
theorem treeWeights : Obligations.TreeWeights := by
  intro s hi ht
  obtain ⟨q, h⟩ := hi.treeBuilt.isBuilt ht
  exact ⟨fun k hk => h.internal_weight hk, by rw [h.root_weight, sum_table], fun k hk => h.weight_le_next hk⟩

/-! ## `BUILD` -/

section
variable {s : State} (hready : s.ready) (hf : s.freqV = true) (hn : s.nsym = nsymOf s.freq) (hne : s.nsym ≠ 0)
include hready hf hn hne

/-- With an alphabet `BUILD` completes with a built arena, and with what its pseudocode leaves of the rest. -/
theorem exec_build_isBuilt : ∃ t q, buildBody (s.accept (encode .build)) = .ok t ∧ exec .build s = .next t.complete ∧
    t.IsBuilt q ∧ t.freq = s.freq := by
  obtain ⟨t, q, hbody, hq⟩ := buildBody_of_alphabet (s := s.accept (encode .build)) hf hne (alphabet_of_nsym hn hne)
  exact ⟨t, q, hbody, command_ok hready hbody, hq, buildBody_keeps_freq (s.accept (encode .build)) t hbody⟩

end

/-- Settles O23: one pass of the loop takes the two least members of the queue, and the loop runs until one is left. -/
theorem buildMergesTheTwoLeast : Obligations.BuildMergesTheTwoLeast := by
  intro s hready hf hn hne
  obtain ⟨t, q, hbody, hexec, hq, hfreq⟩ := exec_build_isBuilt hready hf hn hne
  have hnsym : s.nsym.toNat = (alphabetOf t.freq).length := by rw [hfreq, hn, nsymOf_toNat]
  have hnint := hq.nint
  have hmerged := hq.merged
  rw [← hnsym, hfreq] at hmerged
  obtain ⟨-, -, _, _, _, _, _, _, rfl⟩ := buildBody_writes hbody
  refine ⟨_, q, hexec, ⟨rfl, rfl, rfl, rfl⟩, ⟨rfl, rfl, rfl, rfl⟩, hmerged, ?_⟩
  rw [hnsym, ← hnint]
  rfl

/-- Settles O24: the last queue is the root alone; the last merge put its own node into it, and with one symbol no merge
ran. -/
theorem buildRoot : Obligations.BuildRoot := by
  intro s hready hf hn hne
  obtain ⟨t, q, hbody, hexec, hq, hfreq⟩ := exec_build_isBuilt hready hf hn hne
  have hnsym : s.nsym.toNat = (alphabetOf t.freq).length := by rw [hfreq, hn, nsymOf_toNat]
  have hnint := hq.nint
  have hlast := hq.last
  have hlt := hq.nint_lt
  refine ⟨_, hexec, show t.nint.toNat = _ by omega, fun h2 => ?_, fun h1 => ?_⟩
  · obtain ⟨k, hk⟩ : ∃ k, t.nint.toNat = k + 1 := ⟨t.nint.toNat - 1, by omega⟩
    have hmem := (hq.mem_next (k := k) (by omega) (internal k)).mpr (.inl rfl)
    rw [← hk, hlast, Finset.mem_singleton] at hmem
    show t.root.toNat = _
    rw [← hmem, internal_toNat (by omega)]
    omega
  · rw [show t.nint.toNat = 0 by omega] at hlast
    obtain ⟨hleft, hright⟩ := buildBody_single hbody (by rw [State.accept_freq, ← hfreq]; omega)
    refine ⟨hleft, hright, ((hq.mem_first t.root).mp (by rw [hlast]; exact Finset.mem_singleton_self _)).1, fun x => ?_⟩
    have hx := hq.mem_first (leafOf x)
    rw [hlast, Finset.mem_singleton, leafOf_toNat, hfreq] at hx
    show _ ↔ t.root = leafOf x
    rw [eq_comm, hx]
    exact (and_iff_right x.isLt).symm

/-- Settles O25: two built arenas of one frequency table agree merge by merge. -/
theorem buildIsAFunctionOfFreq : Obligations.BuildIsAFunctionOfFreq := by
  intro s u t v _ _ hfreq hs hu hdone hdone'
  obtain ⟨t, ht, rfl⟩ := command_next_ready hs (by simp [hdone])
  obtain ⟨v, hv, rfl⟩ := command_next_ready hu (by simp [hdone'])
  obtain ⟨q, hq⟩ := buildBody_isBuilt ht
  obtain ⟨r, hr⟩ := buildBody_isBuilt hv
  have htf := buildBody_keeps_freq _ _ ht
  have hvf := buildBody_keeps_freq _ _ hv
  obtain ⟨hnint, hroot, hsame⟩ := sameMerges_of_freq hq hr (htf.trans (hfreq.trans hvf.symm))
  exact ⟨hnint, hroot, fun k hk => ⟨hsame.left k hk, hsame.right k hk⟩, fun id hid => hsame.weight id hid⟩

end Sys2Proof
end

section
/-!
PROOF. Trees read off the arena, and the codes `GEN` makes of them (42_code_table_generator.md R70 to R74).
-/
namespace Sys2Proof.Machine
open Sys2Proof.Claims

/-! ## Trees -/

/-- A tree of the arena: leaves are byte values, an internal node is named by the number of the merge that made it. -/
inductive CodeTree
  | leaf (x : Byte)
  | node (k : Nat) (l r : CodeTree)

namespace CodeTree

def leaves (T : CodeTree) : List Byte :=
  match T with
  | leaf x => [x]
  | node _ l r => l.leaves ++ r.leaves

/-- The path from the top to the leaf of `x`. -/
def path (T : CodeTree) (x : Byte) : BitString :=
  match T with
  | leaf _ => []
  | node _ l r => if x ∈ r.leaves then true :: r.path x else false :: l.path x

/-- Every internal node was made before merge `n`, its children before it. -/
def madeIn (T : CodeTree) (n : Nat) : Prop :=
  match T with
  | leaf _ => True
  | node k l r => k < n ∧ l.madeIn k ∧ r.madeIn k

/-- The sum of the frequencies of the leaves. -/
def total (f : Byte → Nat) (T : CodeTree) : Nat := (T.leaves.map f).sum

/-- The number of branches that the leaves' paths take, each counted with its leaf's frequency. -/
def cost (f : Byte → Nat) (T : CodeTree) : Nat :=
  match T with
  | leaf _ => 0
  | node _ l r => l.cost f + r.cost f + (l.total f + r.total f)

@[simp] theorem leaves_leaf (x : Byte) : (leaf x).leaves = [x] := rfl

@[simp] theorem leaves_node (k : Nat) (l r : CodeTree) : (node k l r).leaves = l.leaves ++ r.leaves := rfl

@[simp] theorem path_leaf (x y : Byte) : (leaf x).path y = [] := rfl

theorem path_right {r : CodeTree} {x : Byte} (h : x ∈ r.leaves) (k : Nat) (l : CodeTree) :
    (node k l r).path x = true :: r.path x := if_pos h

theorem path_left {r : CodeTree} {x : Byte} (h : x ∉ r.leaves) (k : Nat) (l : CodeTree) :
    (node k l r).path x = false :: l.path x := if_neg h

theorem leaves_ne_nil (T : CodeTree) : T.leaves ≠ [] := by
  cases T with
  | leaf x => simp
  | node k l r =>
    have := leaves_ne_nil l
    simp [this]

theorem madeIn_mono {T : CodeTree} {m n : Nat} (h : T.madeIn m) (hmn : m ≤ n) : T.madeIn n := by
  cases T with
  | leaf x => trivial
  | node k l r =>
    obtain ⟨hk, hl, hr⟩ := h
    exact ⟨by omega, hl, hr⟩

/-- A path has at most as many branches as merges were made. -/
theorem path_length_le {T : CodeTree} {n : Nat} (h : T.madeIn n) (x : Byte) : (T.path x).length ≤ n := by
  induction T generalizing n with
  | leaf y => exact Nat.zero_le n
  | node k l r ihl ihr =>
    obtain ⟨hk, hl, hr⟩ := h
    by_cases hx : x ∈ r.leaves
    · rw [path_right hx, List.length_cons]
      exact (ihr hr).trans_lt hk
    · rw [path_left hx, List.length_cons]
      exact (ihl hl).trans_lt hk

section
variable {k : Nat} {l r : CodeTree} (h : (node k l r).leaves.Nodup)
include h

theorem nodup_left : l.leaves.Nodup := (List.nodup_append.mp h).1

theorem nodup_right : r.leaves.Nodup := (List.nodup_append.mp h).2.1

theorem notMem_right {x : Byte} (hx : x ∈ l.leaves) : x ∉ r.leaves := fun hr =>
  (List.nodup_append.mp h).2.2 x hx x hr rfl

/-- What sums over the leaves of a node, split at its children. -/
theorem sum_leaves_node (g : Byte → BitString → Nat) :
    ((node k l r).leaves.map fun x => g x ((node k l r).path x)).sum =
      (l.leaves.map fun x => g x (false :: l.path x)).sum + (r.leaves.map fun x => g x (true :: r.path x)).sum := by
  rw [leaves_node, List.map_append, List.sum_append]
  congr 2
  · exact List.map_congr_left fun x hx => by rw [path_left (notMem_right h hx)]
  · exact List.map_congr_left fun x hx => by rw [path_right hx]

end

/-- Every leaf under a node takes one bit for its branch there. -/
theorem sum_path_length {T : CodeTree} (h : T.leaves.Nodup) (f : Byte → Nat) :
    (T.leaves.map fun x => f x * (T.path x).length).sum = T.cost f := by
  induction T with
  | leaf x => rfl
  | node k l r ihl ihr =>
    have hside (T : CodeTree) (b : Bool) : (T.leaves.map fun x => f x * (b :: T.path x).length).sum =
        (T.leaves.map fun x => f x * (T.path x).length).sum + T.total f := by
      rw [total, ← List.sum_map_add]
      exact congrArg List.sum (List.map_congr_left fun x _ => by rw [List.length_cons, Nat.mul_succ])
    rw [sum_leaves_node h fun x p => f x * p.length, hside, hside, ihl (nodup_left h), ihr (nodup_right h), cost]
    omega

/-- No path of a tree begins another (R73 (b)). -/
theorem not_path_prefix {T : CodeTree} (h : T.leaves.Nodup) {x y : Byte} (hx : x ∈ T.leaves) (hy : y ∈ T.leaves)
    (hne : x ≠ y) : ¬ T.path x <+: T.path y := by
  induction T with
  | leaf z =>
    rw [leaves_leaf, List.mem_singleton] at hx hy
    exact absurd (hx.trans hy.symm) hne
  | node k l r ihl ihr =>
    rw [leaves_node, List.mem_append] at hx hy
    by_cases hxr : x ∈ r.leaves
    · by_cases hyr : y ∈ r.leaves
      · rw [path_right hxr, path_right hyr, List.cons_prefix_cons]
        exact fun hp => ihr (nodup_right h) hxr hyr hp.2
      · rw [path_right hxr, path_left hyr, List.cons_prefix_cons]
        exact fun hp => Bool.noConfusion hp.1
    · by_cases hyr : y ∈ r.leaves
      · rw [path_left hxr, path_right hyr, List.cons_prefix_cons]
        exact fun hp => Bool.noConfusion hp.1
      · rw [path_left hxr, path_left hyr, List.cons_prefix_cons]
        exact fun hp => ihl (nodup_left h) (hx.resolve_right hxr) (hy.resolve_right hyr) hp.2

/-- The paths of a tree are complete: `2^(-length)` sums to 1 (R73 (c)), scaled by `2^n`. -/
theorem sum_pow_path {T : CodeTree} (h : T.leaves.Nodup) {n : Nat} (hn : T.madeIn n) :
    (T.leaves.map fun x => 2 ^ (n - (T.path x).length)).sum = 2 ^ n := by
  induction T generalizing n with
  | leaf x => simp
  | node k l r ihl ihr =>
    obtain ⟨hk, hl, hr⟩ := hn
    obtain ⟨m, rfl⟩ : ∃ m, n = m + 1 := ⟨n - 1, by omega⟩
    rw [sum_leaves_node h fun _ p => 2 ^ (m + 1 - p.length)]
    simp only [List.length_cons, Nat.add_sub_add_right]
    rw [ihl (nodup_left h) (madeIn_mono hl (Nat.lt_succ_iff.mp hk)),
      ihr (nodup_right h) (madeIn_mono hr (Nat.lt_succ_iff.mp hk)), pow_succ, mul_two]

end CodeTree

/-! ## Trees of the arena -/

/-- The arena holds the tree `T` under the node `id`. -/
def State.spans (s : State) (T : CodeTree) (id : NodeId) : Prop :=
  match T with
  | .leaf x => id = leafOf x
  | .node k l r => id = internal k ∧ s.spans l (leftOf s k) ∧ s.spans r (rightOf s k)

theorem spans_congr {s t : State} (hl : t.left = s.left) (hr : t.right = s.right) {T : CodeTree} {id : NodeId}
    (h : s.spans T id) : t.spans T id := by
  induction T generalizing id with
  | leaf x => exact h
  | node k l r ihl ihr =>
    obtain ⟨hid, hsl, hsr⟩ := h
    have hkl : leftOf t k = leftOf s k := by rw [leftOf, leftOf, hl]
    have hkr : rightOf t k = rightOf s k := by rw [rightOf, rightOf, hr]
    exact ⟨hid, hkl ▸ ihl hsl, hkr ▸ ihr hsr⟩

/-- The arena of `s` holds `T` under `ROOT`, and the leaves of `T` are the alphabet. -/
structure State.HasTree (s : State) (T : CodeTree) : Prop where
  spans : s.spans T s.root
  madeIn : T.madeIn s.nint.toNat
  leaves : T.leaves.Perm (alphabetOf s.freq)

/-- `FREQ[x]`, as a number. -/
abbrev State.freqNat (s : State) (x : Byte) : Nat := (freqAt s.freq x).toNat

section
variable {s : State} {q : Nat → Finset NodeId} (h : s.IsBuilt q)
include h

/-- The trees of all nodes. -/
theorem State.IsBuilt.exists_trees : ∃ F : NodeId → CodeTree, (∀ x, F (leafOf x) = .leaf x) ∧
    ∀ k, k < s.nint.toNat → F (internal k) = .node k (F (leftOf s k)) (F (rightOf s k)) := by
  have upto : ∀ n, n ≤ s.nint.toNat → ∃ F : NodeId → CodeTree, (∀ x, F (leafOf x) = .leaf x) ∧
      ∀ k, k < n → F (internal k) = .node k (F (leftOf s k)) (F (rightOf s k)) := by
    intro n hn
    have hlt := h.nint_lt
    induction n with
    | zero => exact ⟨fun id => .leaf (leafByte id), fun x => congrArg CodeTree.leaf (leafByte_leafOf x),
        fun k hk => by omega⟩
    | succ n ih =>
      obtain ⟨F, hleaf, hnode⟩ := ih (Nat.le_of_succ_le hn)
      have hother {id : NodeId} (hid : id.toNat < 256 + n) (T : CodeTree) : Function.update F (internal n) T id = F id := by
        refine Function.update_of_ne (fun e => ?_) _ _
        rw [e, internal_toNat (by omega)] at hid
        omega
      have hchild {k : Nat} (hk : k < n + 1) {id : NodeId} (hid : s.childAt k id) (T : CodeTree) :
          Function.update F (internal n) T id = F id :=
        hother (by have := h.child_lt (by omega) hid; omega) T
      refine ⟨Function.update F (internal n) (.node n (F (leftOf s n)) (F (rightOf s n))), fun x => ?_, fun k hk => ?_⟩
      · rw [hother (by rw [leafOf_toNat]; omega), hleaf]
      · rw [hchild hk (.inl rfl), hchild hk (.inr rfl)]
        rcases Nat.lt_succ_iff_lt_or_eq.mp hk with hk | rfl
        · rw [hother (by rw [internal_toNat (by omega)]; omega), hnode k hk]
        · rw [Function.update_self]
  exact upto _ le_rfl

/-- A property of the nodes that holds of the leaves and passes from children to their parent. -/
theorem State.IsBuilt.made_induction {P : Nat → NodeId → Prop} (mono : ∀ k id, P k id → P (k + 1) id)
    (leaf : ∀ x ∈ alphabetOf s.freq, P 0 (leafOf x))
    (node : ∀ k, k < s.nint.toNat → P k (leftOf s k) → P k (rightOf s k) → P (k + 1) (internal k)) {k : Nat}
    (hk : k ≤ s.nint.toNat) {id : NodeId} (hid : s.madeBefore k id) : P k id := by
  induction k generalizing id with
  | zero =>
    obtain ⟨hid, hfreq⟩ := (madeBefore_zero s id).mp hid
    rw [← leafOf_leafByte hid]
    refine leaf _ ((mem_alphabetOf _ _).mpr ?_)
    rwa [freqAt, leafByte_toNat hid]
  | succ k ih =>
    have hlt := h.nint_lt
    have ih {id : NodeId} := ih (Nat.le_of_succ_le hk) (id := id)
    rcases (madeBefore_succ s (by omega) id).mp hid with rfl | hid
    · exact node k hk (ih (h.child_made hk (.inl rfl))) (ih (h.child_made hk (.inr rfl)))
    · exact mono k id (ih hid)

variable {F : NodeId → CodeTree} (hleaf : ∀ x, F (leafOf x) = .leaf x)
  (hnode : ∀ k, k < s.nint.toNat → F (internal k) = .node k (F (leftOf s k)) (F (rightOf s k)))
include hleaf hnode

theorem State.IsBuilt.tree_spans {k : Nat} (hk : k ≤ s.nint.toNat) {id : NodeId} (hid : s.madeBefore k id) :
    s.spans (F id) id ∧ (F id).madeIn k := by
  refine h.made_induction (P := fun k id => s.spans (F id) id ∧ (F id).madeIn k)
    (fun k id ⟨hs, hm⟩ => ⟨hs, CodeTree.madeIn_mono hm (Nat.le_succ k)⟩) (fun x _ => ?_)
    (fun k hk ⟨hsl, hml⟩ ⟨hsr, hmr⟩ => ?_) hk hid
  · rw [hleaf]
    exact ⟨rfl, trivial⟩
  · rw [hnode k hk]
    exact ⟨⟨rfl, hsl, hsr⟩, Nat.lt_succ_self k, hml, hmr⟩

theorem State.IsBuilt.tree_total {k : Nat} (hk : k ≤ s.nint.toNat) {id : NodeId} (hid : s.madeBefore k id) :
    weightOf s.weight id = (F id).total s.freqNat := by
  refine h.made_induction (P := fun _ id => weightOf s.weight id = (F id).total s.freqNat) (fun _ _ h => h)
    (fun x hx => ?_) (fun k hk hl hr => ?_) hk hid
  · rw [hleaf, h.weight_leafOf hx]
    exact (Nat.add_zero _).symm
  · rw [h.internal_weight hk, hl, hr, hnode k hk, CodeTree.total, CodeTree.total, CodeTree.total, CodeTree.leaves_node,
      List.map_append, List.sum_append]

/-- The leaves under the root are the alphabet: no merge adds or loses one. -/
theorem State.IsBuilt.tree_leaves : (F s.root).leaves.Perm (alphabetOf s.freq) := by
  have hsum := h.sum_queue (fun id => ((F id).leaves : Multiset Byte)) (fun k hk => by
    rw [hnode k hk, CodeTree.leaves_node, Multiset.coe_add]) le_rfl
  rw [h.last, Finset.sum_singleton, h.sum_first] at hsum
  simp only [hleaf, CodeTree.leaves_leaf, Multiset.coe_singleton] at hsum
  rw [← Multiset.coe_eq_coe, hsum, ← Multiset.sum_coe, ← Multiset.map_coe, Multiset.sum_map_singleton]

theorem State.IsBuilt.tree_cost :
    (F s.root).cost s.freqNat = ∑ k ∈ Finset.range s.nint.toNat, weightOf s.weight (internal k) := by
  have hsum := h.sum_queue_add (fun id => (F id).cost s.freqNat) (fun k => weightOf s.weight (internal k))
    (fun k hk => by
      rw [hnode k hk, h.internal_weight hk, h.tree_total hleaf hnode hk.le (h.child_made hk (.inl rfl)),
        h.tree_total hleaf hnode hk.le (h.child_made hk (.inr rfl)), CodeTree.cost]) le_rfl
  rw [h.last, Finset.sum_singleton, h.sum_first] at hsum
  simpa [hleaf, CodeTree.cost] using hsum

end

/-- A built arena holds a tree over the alphabet, whose cost is the sum of the internal weights. -/
theorem State.IsBuilt.hasTree {s : State} {q : Nat → Finset NodeId} (h : s.IsBuilt q) :
    ∃ T, s.HasTree T ∧ T.cost s.freqNat = ∑ k ∈ Finset.range s.nint.toNat, weightOf s.weight (internal k) := by
  obtain ⟨F, hleaf, hnode⟩ := h.exists_trees
  obtain ⟨hspans, hmade⟩ := h.tree_spans hleaf hnode le_rfl h.root_exists
  exact ⟨F s.root, ⟨hspans, hmade, h.tree_leaves hleaf hnode⟩, h.tree_cost hleaf hnode⟩

theorem State.HasTree.congr {s t : State} {T : CodeTree} (h : s.HasTree T) (hl : t.left = s.left)
    (hr : t.right = s.right) (hroot : t.root = s.root) (hn : t.nint = s.nint) (hf : t.freq = s.freq) : t.HasTree T :=
  ⟨hroot ▸ spans_congr hl hr h.spans, hn ▸ h.madeIn, hf ▸ h.leaves⟩

theorem State.HasTree.nodup {s : State} {T : CodeTree} (h : s.HasTree T) : T.leaves.Nodup :=
  h.leaves.nodup_iff.mpr (alphabetOf_nodup _)

theorem State.HasTree.mem_leaves {s : State} {T : CodeTree} (h : s.HasTree T) (x : Byte) :
    x ∈ T.leaves ↔ freqAt s.freq x ≠ 0 := by
  rw [h.leaves.mem_iff, mem_alphabetOf]

/-! ## The traversal -/

/-- What block G1's `visit` stores for the tree `T` reached by the path `p`. -/
def CodeTree.store (T : CodeTree) (s : State) (p : BitString) : State :=
  match T with
  | .leaf x => s.setCode (leafOf x) p
  | .node _ l r => r.store (l.store s (p ++ [false])) (p ++ [true])

theorem store_writes (T : CodeTree) (s : State) (p : BitString) :
    ∃ a c, T.store s p = { s with codeLen := a, code := c } := by
  induction T generalizing s p with
  | leaf x => exact ⟨_, _, rfl⟩
  | node k l r ihl ihr =>
    obtain ⟨a, c, hl⟩ := ihl s (p ++ [false])
    obtain ⟨a', c', hr⟩ := ihr (l.store s (p ++ [false])) (p ++ [true])
    exact ⟨a', c', by rw [CodeTree.store, hr, hl]⟩

theorem visit_spans {T : CodeTree} {s : State} {id : NodeId} {n : Nat} (hs : s.spans T id) (hn : T.madeIn n)
    (hn' : n ≤ 255) (p : BitString) : State.visit n s id p = .ok (T.store s p) := by
  induction T generalizing s id n p with
  | leaf x =>
    obtain rfl := hs
    exact visit_leaf (by rw [leafOf_toNat]; exact x.isLt) n s p
  | node k l r ihl ihr =>
    obtain ⟨rfl, hsl, hsr⟩ := hs
    obtain ⟨hk, hml, hmr⟩ := hn
    obtain ⟨m, rfl⟩ : ∃ m, n = m + 1 := ⟨n - 1, by omega⟩
    have hkm : k ≤ m := Nat.lt_succ_iff.mp hk
    have hid : (internal k).toNat = 256 + k := internal_toNat (by omega)
    obtain ⟨a, c, hstore⟩ := store_writes l s (p ++ [false])
    have hsr' : (l.store s (p ++ [false])).spans r (rightOf s k) :=
      spans_congr (by rw [hstore]) (by rw [hstore]) hsr
    rw [visit_node (by omega) (by omega), hid, Nat.add_sub_cancel_left,
      show tget s.left k 0 = leftOf s k from rfl, show tget s.right k 0 = rightOf s k from rfl,
      ihl hsl (CodeTree.madeIn_mono hml hkm) (by omega), run_ok_bind,
      ihr hsr' (CodeTree.madeIn_mono hmr hkm) (by omega)]
    rfl

/-- The traversal gives every leaf its path, after the path of the tree. -/
theorem store_code (T : CodeTree) (s : State) (p : BitString) (x : Byte) :
    codeString (T.store s p) x = if x ∈ T.leaves then p ++ T.path x else codeString s x := by
  induction T generalizing s p with
  | leaf y =>
    have hy : (leafOf y).toNat < 256 := by
      rw [leafOf_toNat]
      exact y.isLt
    rw [codeString, CodeTree.store, codeString_setCode _ _ _ _ hy, leafOf_toNat, CodeTree.leaves_leaf, CodeTree.path_leaf,
      List.append_nil]
    simp only [List.mem_singleton, BitVec.toNat_inj, eq_comm (a := y)]
    rfl
  | node k l r ihl ihr =>
    rw [CodeTree.store, ihr, ihl, CodeTree.leaves_node]
    by_cases hr : x ∈ r.leaves
    · rw [if_pos hr, if_pos (List.mem_append_right _ hr), CodeTree.path_right hr, List.append_assoc, List.singleton_append]
    · rw [if_neg hr, CodeTree.path_left hr, List.append_assoc, List.singleton_append]
      simp only [List.mem_append, hr, or_false]

/-- The code of a symbol under the tree `T` (R71); the tree of one leaf has the code "0" (R72). -/
def CodeTree.codeword (T : CodeTree) (x : Byte) : BitString :=
  match T with
  | .leaf y => if x = y then [false] else []
  | .node k l r => if x ∈ l.leaves ++ r.leaves then (CodeTree.node k l r).path x else []

/-- `GEN`'s table for the tree `T`, from a state that need not have a valid tree otherwise. -/
theorem assignCodes_spans {T : CodeTree} {s : State} (hs : s.spans T s.root) (hn : T.madeIn 255) :
    ∃ a c, s.assignCodes = .ok { s with codeLen := a, code := c } ∧
      ∀ x, codeString { s with codeLen := a, code := c } x = T.codeword x := by
  cases T with
  | leaf y =>
    have hy : s.root.toNat < 256 := by
      rw [show s.root = leafOf y from hs, leafOf_toNat]
      exact y.isLt
    refine ⟨_, _, assignCodes_leaf hy, fun x => ?_⟩
    refine (code_setCode_noCodes s hy [false] x).trans ?_
    rw [show s.root = leafOf y from hs, leafByte_leafOf]
    rfl
  | node k l r =>
    have hroot : s.root = internal k := hs.1
    have hk : k < 255 := hn.1
    have hleaf : isLeaf s.root = false := by
      rw [hroot, isLeaf, internal_toNat (by omega)]
      simp
    have hvisit := visit_spans (s := s.noCodes) (spans_congr (s := s) (t := s.noCodes) rfl rfl hs) hn le_rfl []
    obtain ⟨a, c, hstore⟩ := store_writes (.node k l r) s.noCodes []
    rw [hstore] at hvisit
    refine ⟨a, c, ?_, fun x => ?_⟩
    · rw [State.assignCodes, hleaf, if_neg (by simp)]
      exact hvisit
    · have hcode := store_code (.node k l r) s.noCodes [] x
      rw [hstore] at hcode
      refine hcode.trans ?_
      rw [List.nil_append, show codeString s.noCodes x = [] from codeString_noCodes s x]
      rfl

/-! ## Codewords -/

namespace CodeTree

theorem codeword_of_notMem {T : CodeTree} {x : Byte} (h : x ∉ T.leaves) : T.codeword x = [] := by
  cases T with
  | leaf y => exact if_neg (by simpa using h)
  | node k l r => exact if_neg h

theorem codeword_leaf (x : Byte) : (leaf x).codeword x = [false] := if_pos rfl

theorem codeword_node {k : Nat} {l r : CodeTree} {x : Byte} (h : x ∈ (node k l r).leaves) :
    (node k l r).codeword x = (node k l r).path x := if_pos h

theorem codeword_length_pos {T : CodeTree} {x : Byte} (h : x ∈ T.leaves) : 1 ≤ (T.codeword x).length := by
  cases T with
  | leaf y =>
    rw [List.mem_singleton.mp h, codeword_leaf]
    rfl
  | node k l r =>
    rw [codeword_node h]
    by_cases hr : x ∈ r.leaves
    · rw [path_right hr]
      exact Nat.succ_pos _
    · rw [path_left hr]
      exact Nat.succ_pos _

theorem codeword_length_le {T : CodeTree} {n : Nat} (hn : T.madeIn n) (hn1 : 1 ≤ n) (x : Byte) :
    (T.codeword x).length ≤ n := by
  by_cases h : x ∈ T.leaves
  · cases T with
    | leaf y =>
      rw [List.mem_singleton.mp h, codeword_leaf]
      exact hn1
    | node k l r =>
      rw [codeword_node h]
      exact path_length_le hn x
  · rw [codeword_of_notMem h]
    exact Nat.zero_le n

theorem not_codeword_prefix {T : CodeTree} (h : T.leaves.Nodup) {x y : Byte} (hx : x ∈ T.leaves) (hy : y ∈ T.leaves)
    (hne : x ≠ y) : ¬ T.codeword x <+: T.codeword y := by
  cases T with
  | leaf z => exact absurd ((List.mem_singleton.mp hx).trans (List.mem_singleton.mp hy).symm) hne
  | node k l r =>
    rw [codeword_node hx, codeword_node hy]
    exact not_path_prefix h hx hy hne

/-- A tree over two symbols or more is a node. -/
theorem eq_node_of_length {T : CodeTree} (h : 2 ≤ T.leaves.length) : ∃ k l r, T = node k l r := by
  cases T with
  | leaf x => exact absurd h (by simp)
  | node k l r => exact ⟨k, l, r, rfl⟩

theorem eq_leaf_of_length {T : CodeTree} (h : T.leaves.length < 2) : ∃ x, T = leaf x := by
  cases T with
  | leaf x => exact ⟨x, rfl⟩
  | node k l r =>
    have hl := List.length_pos_iff.mpr (leaves_ne_nil l)
    have hr := List.length_pos_iff.mpr (leaves_ne_nil r)
    rw [leaves_node, List.length_append] at h
    omega

theorem sum_codeword_node {k : Nat} {l r : CodeTree} (g : Byte → BitString → Nat) :
    ((node k l r).leaves.map fun x => g x ((node k l r).codeword x)).sum =
      ((node k l r).leaves.map fun x => g x ((node k l r).path x)).sum :=
  congrArg List.sum (List.map_congr_left fun x hx => by rw [codeword_node hx])

end CodeTree

/-! ## `GEN` -/

/-- The tables hold the codes of the tree `T`, and `LBITS` their length on an input of the present frequencies. -/
structure State.IsCoded (s : State) (T : CodeTree) : Prop where
  tree : s.HasTree T
  made : T.madeIn 255
  codes : ∀ x, codeString s x = T.codeword x
  fits : s.CodesFit
  lbits : s.lbits.toNat = ((alphabetOf s.freq).map fun x => s.freqNat x * (T.codeword x).length).sum

/-- `LBITS` fits in its register: 256 frequencies of 32 bits, each times a length of 8 bits (00_scope.md R8). -/
theorem payloadBits_lt (s : State) : s.payloadBits < 2 ^ 48 := by
  have hterm : ∀ n ∈ (alphabetOf s.freq).map fun x => (freqAt s.freq x).toNat * (s.codeLenAt x).toNat,
      n ≤ (2 ^ 32 - 1) * 255 := by
    intro n hn
    obtain ⟨x, -, rfl⟩ := List.mem_map.mp hn
    have h1 := (freqAt s.freq x).isLt
    have h2 := (s.codeLenAt x).isLt
    exact Nat.mul_le_mul (by omega) (by omega)
  have hsum := List.sum_le_card_nsmul _ _ hterm
  have hle := alphabetOf_length_le s.freq
  rw [List.length_map, smul_eq_mul] at hsum
  have := Nat.mul_le_mul_right ((2 ^ 32 - 1) * 255) hle
  exact (hsum.trans this).trans_lt (by norm_num)

/-- The length of the codes on the input, from the strings instead of the stored lengths. -/
theorem payloadBits_eq {s : State} (h : s.CodesFit) :
    s.payloadBits = ((alphabetOf s.freq).map fun x => s.freqNat x * (codeString s x).length).sum :=
  congrArg List.sum (List.map_congr_left fun x _ => by rw [codeString, h x])

/-- `GEN` comes to its end on the arena of a tree, and stores that tree's codes (R70 to R72). -/
theorem genBody_spans {T : CodeTree} {s : State} (hv : s.treeV = true) (hs : s.spans T s.root) (hn : T.madeIn 255) :
    ∃ t, genBody s = .ok t ∧ (∀ x, codeString t x = T.codeword x) ∧
      t.lbits.toNat = ((alphabetOf s.freq).map fun x => s.freqNat x * (T.codeword x).length).sum := by
  obtain ⟨a, c, hassign, hcode⟩ := assignCodes_spans hs hn
  have hgen : genBody s = .ok (State.withLbits { s with codeLen := a, code := c }
      (State.payloadBits { s with codeLen := a, code := c })).flagsGen := by
    rw [genBody, hv, require_true, run_ok_bind, hassign, run_ok_bind, ← hv]
  have hfit : State.CodesFit { s with codeLen := a, code := c } := fun x => genBody_codesFit hgen x
  refine ⟨_, hgen, hcode, ?_⟩
  refine (Nat.mod_eq_of_lt (payloadBits_lt _)).trans ?_
  rw [payloadBits_eq hfit]
  simp only [hcode]

theorem genBody_isCoded {T : CodeTree} {s t : State} (hs : s.HasTree T) (hn : T.madeIn 255) (h : genBody s = .ok t) :
    t.IsCoded T := by
  obtain ⟨hv, a, c, n, rfl⟩ := genBody_writes h
  obtain ⟨u, hu, hcode, hlbits⟩ := genBody_spans hv hs.spans hn
  obtain rfl := Except.ok.inj (hu.symm.trans h)
  exact ⟨hs.congr rfl rfl rfl rfl rfl, hn, hcode, genBody_codesFit h, hlbits⟩

/-- Two states with the codes of one tree have the same code table. -/
theorem State.IsCoded.tables_eq {s t : State} {T : CodeTree} (hs : s.IsCoded T) (ht : t.IsCoded T) :
    t.code = s.code ∧ t.codeLen = s.codeLen := by
  have hbyte {i : Nat} (hi : i < 256) : (BitVec.ofNat 8 i).toNat = i := Nat.mod_eq_of_lt hi
  have hcode (x : Byte) : codeString t x = codeString s x := by rw [ht.codes, hs.codes]
  constructor
  · refine table_ext [] fun i hi => ?_
    have := hcode (BitVec.ofNat 8 i)
    rwa [codeString, codeString, hbyte hi] at this
  · refine table_ext 0 fun i hi => BitVec.eq_of_toNat_eq ?_
    have h1 := ht.fits (BitVec.ofNat 8 i)
    have h2 := hs.fits (BitVec.ofNat 8 i)
    have h3 := congrArg List.length (hcode (BitVec.ofNat 8 i))
    rw [codeString, codeString, h1, h2, State.codeLenAt, State.codeLenAt, hbyte hi] at h3
    exact h3

theorem State.IsBuilt.nint_le {s : State} {q : Nat → Finset NodeId} (h : s.IsBuilt q) : s.nint.toNat ≤ 255 :=
  Nat.lt_succ_iff.mp h.nint_lt

/-- The path of a symbol, followed from the root, ends at its leaf (R71). -/
theorem follow_path {T : CodeTree} {s : State} {id : NodeId} {n : Nat} (hs : s.spans T id) (hn : T.madeIn n)
    (hle : n ≤ s.nint.toNat) {x : Byte} (hx : x ∈ T.leaves) : follow s id (T.path x) = some (leafOf x) := by
  induction T generalizing id n with
  | leaf y =>
    rw [List.mem_singleton.mp hx, show id = leafOf y from hs]
    rfl
  | node k l r ihl ihr =>
    obtain ⟨rfl, hsl, hsr⟩ := hs
    obtain ⟨hk, hml, hmr⟩ := hn
    have hlt := s.nint.isLt
    have hid : (internal k).toNat = 256 + k := internal_toNat (by omega)
    have hstep (b : Bool) (p : BitString) :
        follow s (internal k) (b :: p) = follow s (if b then rightOf s k else leftOf s k) p := by
      rw [follow, if_pos (by omega), hid, Nat.add_sub_cancel_left]
    by_cases hr : x ∈ r.leaves
    · rw [CodeTree.path_right hr, hstep]
      exact ihr hsr hmr (by omega) hr
    · rw [CodeTree.path_left hr, hstep]
      exact ihl hsl hml (by omega) ((List.mem_append.mp hx).resolve_right hr)

theorem State.HasTree.follow_codeword {s : State} {T : CodeTree} (h : s.HasTree T) (hroot : 256 ≤ s.root.toNat)
    {x : Byte} (hx : x ∈ T.leaves) : follow s s.root (T.codeword x) = some (leafOf x) := by
  cases T with
  | leaf y =>
    have hy := y.isLt
    rw [show s.root = leafOf y from h.spans, leafOf_toNat] at hroot
    omega
  | node k l r =>
    rw [CodeTree.codeword_node hx]
    exact follow_path h.spans h.madeIn le_rfl hx

/-! ## Where the invariant holds -/

/-- The valid tree of a state that meets the invariant. -/
theorem State.Inv.hasTree {s : State} (hi : s.Inv) (ht : s.treeV = true) :
    ∃ T, s.HasTree T ∧ T.madeIn 255 ∧
      T.cost s.freqNat = ∑ k ∈ Finset.range s.nint.toNat, weightOf s.weight (internal k) := by
  obtain ⟨q, h⟩ := hi.treeBuilt.isBuilt ht
  obtain ⟨T, hT, hcost⟩ := h.hasTree
  exact ⟨T, hT, CodeTree.madeIn_mono hT.madeIn h.nint_le, hcost⟩

/-- Valid codes are those of the valid tree (10_state.md R26). -/
theorem State.Inv.isCoded {s : State} (hi : s.Inv) (hc : s.codeV = true) {T : CodeTree} (hT : s.HasTree T)
    (hn : T.madeIn 255) : s.IsCoded T := by
  obtain ⟨s0, t, hfreq, hl, hr, hroot, hgen, hlen, hcode, hlbits⟩ := hi.codesGenerated hc
  obtain ⟨hv, -⟩ := genBody_writes hgen
  obtain ⟨u, hu, hcodes, hbits⟩ := genBody_spans hv (T := T) (hroot ▸ spans_congr hl hr hT.spans) hn
  obtain rfl := Except.ok.inj (hu.symm.trans hgen)
  refine ⟨hT, hn, fun x => ?_, hi.codesFit, ?_⟩
  · rw [← hcodes, codeString, codeString, hcode]
  · rw [← hlbits, hbits]
    simp only [State.freqNat, hfreq]

theorem State.Inv.exists_isCoded {s : State} (hi : s.Inv) (hc : s.codeV = true) : ∃ T, s.IsCoded T ∧
    T.cost s.freqNat = ∑ k ∈ Finset.range s.nint.toNat, weightOf s.weight (internal k) := by
  obtain ⟨T, hT, hn, hcost⟩ := hi.hasTree (hi.flags.codeTree hc)
  exact ⟨T, hi.isCoded hc hT hn, hcost⟩

section
variable {s : State} {T : CodeTree} (h : s.IsCoded T)
include h

theorem State.IsCoded.code_pos {x : Byte} (hx : freqAt s.freq x ≠ 0) : 1 ≤ (codeString s x).length := by
  rw [h.codes]
  exact CodeTree.codeword_length_pos ((h.tree.mem_leaves x).mpr hx)

theorem State.IsCoded.code_le (x : Byte) : (codeString s x).length ≤ 255 := by
  rw [h.codes]
  exact CodeTree.codeword_length_le h.made (by omega) x

theorem State.IsCoded.code_absent {x : Byte} (hx : freqAt s.freq x = 0) : codeString s x = [] := by
  rw [h.codes]
  exact CodeTree.codeword_of_notMem fun hmem => (h.tree.mem_leaves x).mp hmem hx

theorem State.IsCoded.code_not_prefix {x y : Byte} (hx : freqAt s.freq x ≠ 0) (hy : freqAt s.freq y ≠ 0) (hne : x ≠ y) :
    ¬ codeString s x <+: codeString s y := by
  rw [h.codes, h.codes]
  exact CodeTree.not_codeword_prefix h.tree.nodup ((h.tree.mem_leaves x).mpr hx) ((h.tree.mem_leaves y).mpr hy) hne

/-- With two symbols or more the tree is a node, whose paths are the codes. -/
theorem State.IsCoded.lbits_eq_cost (h2 : 2 ≤ (alphabetOf s.freq).length) : s.lbits.toNat = T.cost s.freqNat := by
  obtain ⟨k, l, r, rfl⟩ := CodeTree.eq_node_of_length (h.tree.leaves.length_eq.symm ▸ h2)
  rw [h.lbits, ← CodeTree.sum_path_length h.tree.nodup,
    ← CodeTree.sum_codeword_node fun x p => s.freqNat x * p.length]
  exact ((h.tree.leaves.map _).sum_eq).symm

end

end Sys2Proof.Machine

namespace Sys2Proof
open Sys2Proof.Machine Sys2Proof.Claims

/-- The alphabet is the one list of the present symbols in ascending order. -/
theorem eq_alphabetOf {freq : Vector (BitVec 32) 256} {l : List Byte} (hsorted : l.Pairwise fun a b => a.toNat < b.toNat)
    (hmem : ∀ x, x ∈ l ↔ freqAt freq x ≠ 0) : l = alphabetOf freq := by
  have hnodup : l.Nodup := hsorted.imp fun h e => absurd (e ▸ h) (Nat.lt_irrefl _)
  have hperm := (List.perm_ext_iff_of_nodup hnodup (alphabetOf_nodup freq)).mpr fun x => by rw [hmem, mem_alphabetOf]
  exact hperm.eq_of_pairwise (le := fun a b : Byte => a.toNat ≤ b.toNat)
    (fun _ _ _ _ hab hba => BitVec.eq_of_toNat_eq (Nat.le_antisymm hab hba)) (hsorted.imp Nat.le_of_lt)
    ((alphabetOf_sorted freq).imp Nat.le_of_lt)

/-- The notion of the alphabet in the statements is the model's. -/
theorem present_eq_alphabetOf (freq : Vector (BitVec 32) 256) : present freq = alphabetOf freq := by
  refine eq_alphabetOf (List.Pairwise.filter _ (List.pairwise_map.mpr ?_)) fun x => ?_
  · refine List.pairwise_lt_range.imp_of_mem fun ha hb hab => ?_
    have ha := List.mem_range.mp ha
    have hb := List.mem_range.mp hb
    rwa [BitVec.toNat_ofNat, BitVec.toNat_ofNat, Nat.mod_eq_of_lt ha, Nat.mod_eq_of_lt hb]
  · rw [present, List.mem_filter, decide_eq_true_eq, and_iff_right_iff_imp]
    exact fun _ => List.mem_map.mpr ⟨x.toNat, List.mem_range.mpr x.isLt, BitVec.ofNat_toNat 8 x⟩

/-- Settles O28: the valid arena holds a tree over the alphabet, and the traversal stores its paths. -/
theorem genAssignsThePaths : Obligations.GenAssignsThePaths := by
  intro s hi hready ht
  obtain ⟨T, hT, hn, -⟩ := hi.hasTree ht
  have hT' := hT.congr (t := s.accept (encode .gen)) rfl rfl rfl rfl rfl
  obtain ⟨t, hgen, -⟩ := genBody_spans (s := s.accept (encode .gen)) ht hT'.spans hn
  have hc := genBody_isCoded hT' hn hgen
  obtain ⟨-, a, c, n, rfl⟩ := genBody_writes hgen
  refine ⟨_, command_ok hready hgen, ⟨rfl, rfl, rfl, rfl⟩, ⟨rfl, rfl, rfl, rfl⟩, fun x => (hc.fits x).symm,
    fun x hx => hc.code_absent hx, fun hroot x hx => ?_, ?_⟩
  · have hmem := (hT.mem_leaves x).mpr hx
    rw [hT.follow_codeword hroot hmem |>.symm]
    exact congrArg _ (hc.codes x)
  · rw [present_eq_alphabetOf]
    refine hc.lbits.trans (congrArg List.sum (List.map_congr_left fun x _ => ?_))
    rw [← hc.codes]
    rfl

/-- Settles O30: no path of a tree begins another, and a path takes at most one branch for each merge. -/
theorem codesArePrefixFree : Obligations.CodesArePrefixFree := by
  intro s hi hc
  obtain ⟨T, h, -⟩ := hi.exists_isCoded hc
  exact ⟨fun x hx => ⟨h.code_pos hx, h.code_le x⟩, fun x y hx hy hne => h.code_not_prefix hx hy hne⟩

/-- Settles O31: at every node of the tree each side takes half of what is above it. -/
theorem codesAreComplete : Obligations.CodesAreComplete := by
  intro s hi hc h2
  obtain ⟨T, h, -⟩ := hi.exists_isCoded hc
  rw [nsym_of_codeV hi hc, nsymOf_toNat] at h2
  obtain ⟨k, l, r, rfl⟩ := CodeTree.eq_node_of_length (h.tree.leaves.length_eq.symm ▸ h2)
  simp only [present_eq_alphabetOf, h.codes]
  rw [← CodeTree.sum_pow_path h.tree.nodup h.made, ← CodeTree.sum_codeword_node fun _ p => 2 ^ (255 - p.length)]
  exact ((h.tree.leaves.map _).sum_eq).symm

/-- Settles O33: a leaf's frequency counts once in the weight of each node above it, once for each bit of its code. -/
theorem lbitsIsTheSumOfInternalWeights : Obligations.LbitsIsTheSumOfInternalWeights := by
  intro s hi hc h2
  obtain ⟨T, h, hcost⟩ := hi.exists_isCoded hc
  rw [nsym_of_codeV hi hc, nsymOf_toNat] at h2
  rw [h.lbits_eq_cost h2, hcost]
  rfl

end Sys2Proof
end

section
/-!
PROOF. How good the code is (42_code_table_generator.md R73 (d), (e)): a heavier node lies no deeper, and the merges cost no
more than a fixed code of 8 bits.
-/
namespace Sys2Proof.Machine
open Sys2Proof.Claims

section
variable {s : State} {q : Nat → Finset NodeId} (h : s.IsBuilt q)
include h

/-! ## The order in which nodes are taken -/

theorem State.IsBuilt.internal_weight_mono {i m : Nat} (him : i ≤ m) (hm : m < s.nint.toNat) :
    weightOf s.weight (internal i) ≤ weightOf s.weight (internal m) := by
  induction m, him using Nat.le_induction with
  | base => exact le_rfl
  | succ m _ ih => exact (ih (by omega)).trans (h.weight_le_next hm)

/-- A node that is still there after merge `i` is not before a node that merge `i` takes. -/
theorem State.IsBuilt.not_before_child {i : Nat} (hi : i < s.nint.toNat) {u v : NodeId} (hu : s.childAt i u)
    (hv : s.nodeExists v) (hlater : ∀ j, j ≤ i → ¬ s.childAt j v) : ¬ before s.weight v u := by
  by_cases hmade : s.madeBefore i v
  · have hmem := (h.mem_queue_iff hi.le v).mpr ⟨hmade, fun j hj => hlater j hj.le⟩
    have hnot := hlater i le_rfl
    obtain ⟨hl, hr, -, -⟩ := h.merges hi
    have hvl : v ≠ leftOf s i := fun e => hnot (.inl e)
    have hvr : v ≠ rightOf s i := fun e => hnot (.inr e)
    have hbl := hl.2 v hmem hvl
    have hbr := hr.2 v (Finset.mem_erase.mpr ⟨hvl, hmem⟩) hvr
    rcases hu with rfl | rfl
    · unfold before at hbl ⊢
      omega
    · unfold before at hbr ⊢
      omega
  · unfold State.madeBefore at hmade
    have hulow := h.child_lt hi hu
    have hv256 : 256 ≤ v.toNat := by
      rcases hv with hv | hv
      · exact absurd (.inl hv) hmade
      · exact hv.1
    have hvlow : v.toNat < 256 + s.nint.toNat := madeBefore_lt hv
    have hmono := h.internal_weight_mono (i := i) (m := v.toNat - 256) (by omega) (by omega)
    rw [← eq_internal hv256, h.internal_weight hi] at hmono
    have hle : weightOf s.weight u ≤ weightOf s.weight v := by
      rcases hu with rfl | rfl <;> omega
    unfold before
    omega

/-! ## Paths from the root -/

omit h in
theorem follow_append (id : NodeId) (p r : BitString) :
    follow s id (p ++ r) = (follow s id p).bind fun c => follow s c r := by
  induction p generalizing id with
  | nil => rfl
  | cons b p ih =>
    rw [List.cons_append, follow, follow]
    split
    · exact ih _
    · rfl

omit h in
/-- The last branch of a path: it leads to a child of the internal node reached before it. -/
theorem follow_snoc {id u : NodeId} {p : BitString} {b : Bool} (hp : follow s id (p ++ [b]) = some u) :
    ∃ k, k < s.nint.toNat ∧ follow s id p = some (internal k) ∧ s.childAt k u := by
  rw [follow_append] at hp
  obtain ⟨c, hc, hstep⟩ := Option.bind_eq_some_iff.mp hp
  unfold follow at hstep
  split at hstep
  · rename_i hin
    refine ⟨c.toNat - 256, by omega, by rw [hc, ← eq_internal hin.1], ?_⟩
    simp only [follow, Option.some.injEq] at hstep
    cases b with
    | false => exact .inl (hstep.symm.trans (if_neg Bool.false_ne_true))
    | true => exact .inr (hstep.symm.trans (if_pos rfl))
  · cases hstep

/-- A node that is not before another lies no deeper: its parent was made no earlier, so the same holds of the parents. -/
theorem State.IsBuilt.depth_le {p r : BitString} {u v : NodeId} (hp : follow s s.root p = some u)
    (hr : follow s s.root r = some v) (huv : v = u ∨ before s.weight v u) : p.length ≤ r.length := by
  induction p using List.reverseRecOn generalizing r u v with
  | nil => exact Nat.zero_le _
  | append_singleton p b ih =>
    obtain ⟨i, hi, hpi, hu⟩ := follow_snoc hp
    -- `v` was taken by merge `i` or an earlier one
    have htaken (hv : s.nodeExists v) : ∃ j, j ≤ i ∧ s.childAt j v := by
      by_contra hno
      push Not at hno
      rcases huv with rfl | hbefore
      · exact hno i le_rfl hu
      · exact h.not_before_child hi hu hv hno hbefore
    rcases List.eq_nil_or_concat r with rfl | ⟨r, c, rfl⟩
    · obtain rfl := Option.some.inj hr
      obtain ⟨j, hj, hroot⟩ := htaken h.root_exists
      exact absurd hroot (h.root_not_child (by omega))
    · rw [List.concat_eq_append] at hr ⊢
      obtain ⟨j, hj, hrj, hv⟩ := follow_snoc hr
      obtain ⟨j', hj', hv'⟩ := htaken (h.child_exists hj hv)
      obtain rfl := h.parent_unique (by omega) hj hv' hv
      have hle : p.length ≤ r.length := by
        refine ih hpi hrj ?_
        rcases hj'.eq_or_lt with rfl | hlt
        · exact .inl rfl
        · have hmono := h.internal_weight_mono hj' hi
          have hnint := h.nint_lt
          have h1 := internal_toNat (k := j') (by omega)
          have h2 := internal_toNat (k := i) (by omega)
          unfold before
          omega
      rw [List.length_append, List.length_append]
      exact Nat.add_le_add_right hle 1

/-! ## The cost of the merges -/

theorem State.IsBuilt.card_queue {k : Nat} (hk : k ≤ s.nint.toNat) : (q k).card + k = s.nint.toNat + 1 := by
  have hsum := h.sum_queue_add (fun _ => (1 : Int)) (fun _ => -1) (fun _ _ => rfl) hk
  have hlast := h.sum_queue_add (fun _ => (1 : Int)) (fun _ => -1) (fun _ _ => rfl) le_rfl
  simp only [h.last, Finset.sum_const, Finset.card_singleton, Finset.card_range] at hsum hlast
  simp only [nsmul_eq_mul, mul_one, Nat.cast_one] at hsum hlast
  omega

/-- No two members of the queue weigh less than the two that the merge takes. -/
theorem State.IsBuilt.two_least {k : Nat} (hk : k < s.nint.toNat) {x y : NodeId} (hx : x ∈ q k) (hy : y ∈ q k)
    (hne : x ≠ y) : weightOf s.weight (internal k) ≤ weightOf s.weight x + weightOf s.weight y := by
  obtain ⟨hl, hr, -, -⟩ := h.merges hk
  have hleft {z : NodeId} (hz : z ∈ q k) : weightOf s.weight (leftOf s k) ≤ weightOf s.weight z := by
    by_cases e : z = leftOf s k
    · rw [e]
    · have := hl.2 z hz e
      unfold before at this
      omega
  have hright {z : NodeId} (hz : z ∈ q k) (hzl : z ≠ leftOf s k) :
      weightOf s.weight (rightOf s k) ≤ weightOf s.weight z := by
    by_cases e : z = rightOf s k
    · rw [e]
    · have := hr.2 z (Finset.mem_erase.mpr ⟨hzl, hz⟩) e
      unfold before at this
      omega
  rw [h.internal_weight hk]
  by_cases e : x = leftOf s k
  · exact Nat.add_le_add (hleft hx) (hright hy fun e' => hne (e.trans e'.symm))
  · rw [Nat.add_comm]
    exact Nat.add_le_add (hright hx e) (hleft hy)

/-- What the merges from `k` on cost. -/
abbrev mergeCost (s : State) (k : Nat) : Nat := ∑ i ∈ Finset.Ico k s.nint.toNat, weightOf s.weight (internal i)

/-- The sum of the weights of a set of nodes. -/
abbrev weightSum (s : State) (A : Finset NodeId) : Nat := ∑ id ∈ A, weightOf s.weight id

/-- A code that gives `L + 1` bits to the members in `A` and `L` bits to the other members of the queue can be one in
which no word begins another when the members of `A` come in pairs and `2 ^ L` strings of `L` bits suffice for those pairs
and the others. The merges from `k` on cost no more than any such code. -/
def State.costsAtMost (s : State) (q : Nat → Finset NodeId) (k : Nat) : Prop :=
  ∀ (L : Nat) (A : Finset NodeId), A ⊆ q k → Even A.card → 2 * (q k).card ≤ 2 ^ (L + 1) + A.card →
    mergeCost s k ≤ L * weightSum s (q k) + weightSum s A

/-- The two nodes taken replace two members of `A`, which weigh no less; the new node gets `L` bits. -/
theorem State.IsBuilt.cost_of_pair {k : Nat} (hk : k < s.nint.toNat) (ih : s.costsAtMost q (k + 1)) {L : Nat}
    {A : Finset NodeId} (hA : A ⊆ q k) (heven : Even A.card) (h2 : 2 ≤ A.card)
    (hroom : 2 * (q k).card ≤ 2 ^ (L + 1) + A.card) :
    mergeCost s k ≤ L * weightSum s (q k) + weightSum s A := by
  have hcard : A.card - 2 ≤ (A \ {leftOf s k, rightOf s k}).card := by
    have hle := Finset.le_card_sdiff {leftOf s k, rightOf s k} A
    have hpair := Finset.card_le_two (a := leftOf s k) (b := rightOf s k)
    omega
  obtain ⟨B, hB, hBcard⟩ := Finset.exists_subset_card_eq hcard
  have hBA : B ⊆ A := hB.trans Finset.sdiff_subset
  obtain ⟨x, y, hne, hxy⟩ := Finset.card_eq_two.mp (show (A \ B).card = 2 by
    rw [Finset.card_sdiff_of_subset hBA]
    omega)
  have hmem {z : NodeId} (hz : z ∈ ({x, y} : Finset NodeId)) : z ∈ q k :=
    hA (Finset.mem_sdiff.mp (hxy ▸ hz)).1
  have hsplit : weightSum s A = weightSum s B + (weightOf s.weight x + weightOf s.weight y) := by
    rw [weightSum, ← Finset.sum_sdiff hBA, hxy, Finset.sum_pair hne, Nat.add_comm]
  have hleast := h.two_least hk (hmem (Finset.mem_insert_self _ _))
    (hmem (Finset.mem_insert_of_mem (Finset.mem_singleton_self _))) hne
  have hBq : B ⊆ q (k + 1) := fun z hz => by
    have hz' := Finset.mem_sdiff.mp (hB hz)
    refine (h.mem_next hk z).mpr (.inr ⟨hA hz'.1, fun hc => hz'.2 ?_⟩)
    rcases hc with rfl | rfl <;> simp
  have hq : weightSum s (q (k + 1)) = weightSum s (q k) :=
    (h.sum_queue _ (fun k hk => h.internal_weight hk) hk).trans
      (h.sum_queue _ (fun k hk => h.internal_weight hk) hk.le).symm
  have hk0 := h.card_queue hk.le
  have hk1 := h.card_queue (k := k + 1) hk
  have hrest := ih L B hBq (by rw [hBcard, Nat.even_sub h2]; simp [heven]) (by rw [hBcard]; omega)
  have hcost : mergeCost s k = weightOf s.weight (internal k) + mergeCost s (k + 1) :=
    Finset.sum_eq_sum_Ico_succ_bot hk _
  rw [hq] at hrest
  rw [hcost, hsplit]
  omega

theorem State.IsBuilt.costsAtMost {k : Nat} (hk : k ≤ s.nint.toNat) : s.costsAtMost q k := by
  induction hk using Nat.decreasingInduction with
  | self =>
    intro L A _ _ _
    rw [mergeCost, Finset.Ico_self, Finset.sum_empty]
    exact Nat.zero_le _
  | of_succ k hk ih =>
    intro L A hA heven hroom
    by_cases h2 : 2 ≤ A.card
    · exact h.cost_of_pair hk ih hA heven h2 hroom
    · -- every member has `L` bits: give that bit up to as many pairs as there are
      have hcard := h.card_queue (k := k) hk.le
      obtain ⟨a, ha⟩ := heven
      obtain ⟨M, rfl⟩ : ∃ M, L = M + 1 := by
        refine ⟨L - 1, ?_⟩
        by_contra hL
        rw [show L = 0 by omega] at hroom
        omega
      obtain ⟨B, hB, hBcard⟩ := Finset.exists_subset_card_eq (show 2 * ((q k).card / 2) ≤ (q k).card by omega)
      have hpow : 2 ^ (M + 1 + 1) = 2 * 2 ^ (M + 1) := by rw [pow_succ, Nat.mul_comm]
      have hpow' : 2 ^ (M + 1) = 2 * 2 ^ M := by rw [pow_succ, Nat.mul_comm]
      have hcost := h.cost_of_pair hk ih hB (by rw [hBcard]; exact even_two_mul _) (L := M) (by omega) (by omega)
      have hle : weightSum s B ≤ weightSum s (q k) := Finset.sum_le_sum_of_subset hB
      rw [Nat.add_mul, Nat.one_mul]
      omega

/-- The merges cost no more than 8 bits for every byte counted (R73 (e)). -/
theorem State.IsBuilt.cost_le : mergeCost s 0 ≤ 8 * weightOf s.weight s.root := by
  have hcard := h.card_queue (Nat.zero_le _)
  have hnint := h.nint_lt
  have hsum := h.sum_queue _ (fun k hk => h.internal_weight hk) le_rfl
  rw [h.last, Finset.sum_singleton] at hsum
  rw [hsum]
  exact h.costsAtMost (Nat.zero_le _) 8 ∅ (Finset.empty_subset _) (by simp) (by simp; omega)

/-- `LBITS` of the codes of the tree, against the sum of the frequencies. -/
theorem State.IsBuilt.lbits_le {T : CodeTree}
    (hcost : T.cost s.freqNat = ∑ k ∈ Finset.range s.nint.toNat, weightOf s.weight (internal k)) (hcode : s.IsCoded T) :
    s.lbits.toNat ≤ 8 * ((alphabetOf s.freq).map s.freqNat).sum := by
  by_cases h2 : 2 ≤ (alphabetOf s.freq).length
  · have hle := h.cost_le
    rw [mergeCost, ← Finset.range_eq_Ico, ← hcost, ← hcode.lbits_eq_cost h2, h.root_weight] at hle
    exact hle
  · have hleaves := hcode.tree.leaves
    obtain ⟨x, rfl⟩ := CodeTree.eq_leaf_of_length (hleaves.length_eq.trans_lt (Nat.lt_of_not_le h2))
    rw [hcode.lbits, ← List.sum_map_mul_left]
    refine List.sum_le_sum fun y hy => ?_
    rw [← List.mem_singleton.mp (hleaves.mem_iff.mpr hy), CodeTree.codeword_leaf, Nat.mul_comm]
    exact Nat.mul_le_mul_right _ (by decide)

end

end Sys2Proof.Machine

namespace Sys2Proof
open Sys2Proof.Machine Sys2Proof.Claims

/-- Settles O32: of two leaves the lighter is before the heavier, so the heavier lies no deeper. -/
theorem codeLengthsAreMonotone : Obligations.CodeLengthsAreMonotone := by
  intro s hi hc x y hy hlt
  obtain ⟨q, h⟩ := hi.treeBuilt.isBuilt (hi.flags.codeTree hc)
  obtain ⟨T, hT, -⟩ := h.hasTree
  have hcode := hi.isCoded hc hT (CodeTree.madeIn_mono hT.madeIn h.nint_le)
  have hx : freqAt s.freq x ≠ 0 := fun h0 => by
    rw [h0] at hlt
    exact absurd hlt (Nat.not_lt_zero _)
  have hmx := (hT.mem_leaves x).mpr hx
  have hmy := (hT.mem_leaves y).mpr hy
  have hroot : 256 ≤ s.root.toNat := by
    obtain ⟨k, l, r, rfl⟩ := CodeTree.eq_node_of_length (T := T) (by
      by_contra hlen
      obtain ⟨z, rfl⟩ := CodeTree.eq_leaf_of_length (T := T) (by omega)
      rw [List.mem_singleton.mp hmx, List.mem_singleton.mp hmy] at hlt
      exact Nat.lt_irrefl _ hlt)
    have hk : k < 255 := hcode.made.1
    rw [show s.root = internal k from hT.spans.1, internal_toNat (by omega)]
    omega
  rw [hcode.codes, hcode.codes]
  refine h.depth_le (hT.follow_codeword hroot hmx) (hT.follow_codeword hroot hmy) (.inr (.inl ?_))
  rwa [h.weight_leafOf ((mem_alphabetOf _ _).mpr hx), h.weight_leafOf ((mem_alphabetOf _ _).mpr hy)]

/-- Settles O34: with two symbols or more `LBITS` is the cost of the merges, which a fixed code of 8 bits bounds. -/
theorem lbitsIsAtMostEightPerByte : Obligations.LbitsIsAtMostEightPerByte := by
  intro s hi hc
  obtain ⟨q, h⟩ := hi.treeBuilt.isBuilt (hi.flags.codeTree hc)
  obtain ⟨T, hT, hcost⟩ := h.hasTree
  rw [sum_table]
  exact h.lbits_le hcost (hi.isCoded hc hT (CodeTree.madeIn_mono hT.madeIn h.nint_le))

end Sys2Proof
end

section
/-!
PROOF. The block's outer interface: what the host's accesses do (20_memory.md R33, R37), the registers as the host reads them
(10_state.md R15, R24), and the way into `ERROR` and out of it (60_exceptions.md R95 to R100).
-/
namespace Sys2Proof.Machine
open Sys2Proof.Claims

/-! ## Registers as numbers -/

/-- Fields put side by side, as a number. -/
theorem toNat_append_eq {n m : Nat} (x : BitVec n) (y : BitVec m) : (x ++ y).toNat = x.toNat * 2 ^ m + y.toNat := by
  rw [BitVec.toNat_append, ← Nat.shiftLeft_add_eq_or_of_lt y.isLt, Nat.shiftLeft_eq]

theorem statusWord_toNat (s : State) :
    s.statusWord.toNat = s.phase.code.toNat + 4 * s.freqV.toNat + 8 * s.treeV.toNat + 16 * s.codeV.toNat
      + 32 * s.hdrV.toNat + 256 * s.err.toNat + 65536 * s.detail.toNat := by
  simp only [State.statusWord, toNat_append_eq, BitVec.toNat_ofBool, BitVec.toNat_ofNat]
  omega

theorem treeWord_toNat (s : State) : s.treeWord.toNat = s.root.toNat + 65536 * s.nint.toNat := by
  simp only [State.treeWord, toNat_append_eq, BitVec.toNat_ofNat]
  omega

/-- The reserved offsets read 0 (R15). -/
theorem readReg_reserved (s : State) {off : Nat} (h : 0x28 ≤ off) : s.readReg off = 0 := by
  unfold State.readReg
  split
  case h_11 => rfl
  all_goals exact absurd h (by decide)

/-! ## Writes to `CMD` -/

theorem writeCmd_of_decode_ok {w : Word} {i : Instr} (h : decode w = .ok i) (s : State) : s.writeCmd w = exec i s := by
  rw [State.writeCmd, h]

/-- In `ERROR` every command but `CLEAR` is ignored (R86). -/
theorem exec_in_error {s : State} (h : s.phase = .error) {i : Instr} (hi : i ≠ .clear) : exec i s = .next s := by
  cases i with
  | nop => exact exec_nop_of_error h
  | clear => exact absurd rfl hi
  | freq => exact command_in_error h _ _
  | build => exact command_in_error h _ _
  | gen => exact command_in_error h _ _
  | hdrw => exact command_in_error h _ _
  | pack => exact command_in_error h _ _
  | hdrp => exact command_in_error h _ _
  | unpack => exact command_in_error h _ _
  | compress => exact command_in_error h _ _
  | decompress => exact command_in_error h _ _

/-- In `ERROR` every word but that of `CLEAR` is ignored (R86, R100). -/
theorem writeCmd_in_error {s : State} (h : s.phase = .error) {w : Word} (hw : w ≠ 1) : s.writeCmd w = .next s := by
  unfold State.writeCmd
  split
  · rename_i i hi
    refine exec_in_error h fun hclear => hw ?_
    rw [(decode_eq_ok_iff_eq_encode w i).mp hi, hclear]
    decide
  · exact command_in_error h _ _

theorem exec_clear (s : State) : exec .clear s = .next (s.accept 1).clear := rfl

theorem writeCmd_one (s : State) : s.writeCmd 1 = .next (s.accept 1).clear :=
  writeCmd_of_decode_ok (i := .clear) (by decide) s

theorem writeCmd_not_refused (s : State) (w : Word) (r : Refusal) : s.writeCmd w ≠ .refused r := by
  unfold State.writeCmd
  split
  · exact exec_not_refused _ s r
  · exact command_not_refused s _ _ r

theorem writeReg_not_refused (s : State) (off : Nat) (v : Word) (r : Refusal) : s.writeReg off v ≠ .refused r := by
  rw [writeReg_cases]
  split
  · exact writeCmd_not_refused s v r
  · split <;> simp

/-! ## Accesses -/

/-- A guarded access whose own outcome is no refusal is refused exactly when the guard fails. -/
theorem guarded_refused_iff {c : Prop} [Decidable c] {o : Host.Outcome State Fault Refusal} (ho : ∀ r, o ≠ .refused r)
    (r0 : Refusal) : (∃ r, (if c then o else .refused r0) = .refused r) ↔ ¬ c := by
  split <;> simp_all

/-- An access is refused exactly when it is not well-formed (R33, R36, R107). -/
theorem access_refused_iff (s : State) (a : HostAccess) :
    (∃ r, s.access a = .refused r) ↔ a.wellFormed s.caps = false := by
  cases a with
  | writeReg off v =>
    exact (guarded_refused_iff (writeReg_not_refused s off v) _).trans (Bool.not_eq_true _).to_iff
  | readReg off => exact (guarded_refused_iff (by simp) _).trans (Bool.not_eq_true _).to_iff
  | writeIn i b => exact (guarded_refused_iff (by simp) _).trans decide_eq_false_iff_not.symm
  | readIn i => exact (guarded_refused_iff (by simp) _).trans decide_eq_false_iff_not.symm
  | readOut i => exact (guarded_refused_iff (by simp) _).trans decide_eq_false_iff_not.symm
  | reset => simp [State.access, HostAccess.wellFormed]
  | writeOut i b => simp [State.access, HostAccess.wellFormed]
  | otherWidth sp i n => simp [State.access, HostAccess.wellFormed]
  | duringCommand => simp [State.access, HostAccess.wellFormed]

section
variable {s : State} {rest : List HostAccess}

theorem step_writeCmd {w : Word} (h : s.hostProgram = .writeReg 0 w :: rest) :
    step s = State.writeCmd { s with hostProgram := rest } w := step_cons h

theorem step_writeReg {off : Nat} {v : Word} (h : s.hostProgram = .writeReg off v :: rest) (hoff : regOffsetOk off = true) :
    step s = State.writeReg { s with hostProgram := rest } off v := by
  rw [step_cons h, State.access, if_pos hoff]

theorem step_readReg {off : Nat} (h : s.hostProgram = .readReg off :: rest) (hoff : regOffsetOk off = true) :
    step s = .next { s with hostProgram := rest, hostReads := .word (s.readReg off) :: s.hostReads } := by
  rw [step_cons h, State.access, if_pos hoff]
  rfl

theorem step_writeIn {i : Nat} {b : Byte} (h : s.hostProgram = .writeIn i b :: rest) (hi : i < s.caps.inCap) :
    step s = .next (State.writeIn { s with hostProgram := rest } i b) :=
  (step_cons h).trans (if_pos hi)

theorem step_readIn {i : Nat} (h : s.hostProgram = .readIn i :: rest) (hi : i < s.caps.inCap) :
    step s = .next { s with hostProgram := rest, hostReads := .byte (s.inByte i) :: s.hostReads } :=
  (step_cons h).trans (if_pos hi)

theorem step_readOut {i : Nat} (h : s.hostProgram = .readOut i :: rest) (hi : i < s.caps.outCap) :
    step s = .next { s with hostProgram := rest, hostReads := .byte (s.outByte i) :: s.hostReads } :=
  (step_cons h).trans (if_pos hi)

theorem step_reset (h : s.hostProgram = .reset :: rest) :
    step s = .next (State.resetBlock { s with hostProgram := rest }) := step_cons h

end

theorem writeIn_inByte_self (s : State) (i : Nat) (b : Byte) : (s.writeIn i b).inByte i = b := by
  rw [State.inByte, State.writeIn, Memory.read_write_self, Option.getD_some]

theorem writeIn_inByte_ne (s : State) {i j : Nat} (b : Byte) (h : j ≠ i) : (s.writeIn i b).inByte j = s.inByte j := by
  rw [State.inByte, State.writeIn, Memory.read_write_ne _ _ h.symm, State.inByte]

/-! ## Error entry and reset -/

/-- Error entry is a power-on that keeps `CMD`, the input and the host's side, and records the error (R98). -/
theorem raise_eq (s : State) (e : CmdError) : s.raise e =
    { State.powerOn s.caps (s.draws + 1) s.resets with
      cmd := s.cmd, phase := .error, err := e.cls, detail := e.detail, inLen := s.inLen, inBuf := s.inBuf
      hostProgram := s.hostProgram, hostReads := s.hostReads } := rfl

theorem powerOn_statusWord (c : Caps) (d r : Nat) : (State.powerOn c d r).statusWord = 0 :=
  BitVec.eq_of_toNat_eq (statusWord_toNat _)

theorem powerOn_scalarsZero (c : Caps) (d r : Nat) : scalarsZero (State.powerOn c d r) :=
  ⟨rfl, powerOn_statusWord c d r, rfl, ⟨rfl, rfl, rfl, rfl⟩, rfl, rfl, rfl, rfl, rfl, rfl, rfl, rfl, rfl, rfl⟩

/-! ## The checks before the work -/

section
variable {s : State} (hready : s.ready)
include hready

theorem build_raises_freqNotValid (h : s.freqV = false) : raises .build s .freqNotValid :=
  command_raise hready (by rw [buildBody, State.accept_freqV, h]; rfl)

theorem build_raises_emptyAlphabet (h : s.freqV = true) (hn : s.nsym = 0) : raises .build s .emptyAlphabet :=
  command_raise hready (by rw [buildBody, State.accept_freqV, State.accept_nsym, h, hn]; rfl)

theorem gen_raises_treeNotValid (h : s.treeV = false) : raises .gen s .treeNotValid :=
  command_raise hready (by rw [genBody, State.accept_treeV, h]; rfl)

theorem hdrw_raises_codeNotValid (h : s.codeV = false) : raises .hdrw s .codeNotValid :=
  command_raise hready (by rw [hdrwBody, State.accept_codeV, h]; rfl)

theorem pack_raises_codeNotValid (h : s.codeV = false) : raises .pack s .codeNotValid :=
  command_raise hready (by rw [packBody, State.accept_codeV, h]; rfl)

theorem unpack_raises_codeNotValid (h : s.codeV = false) : raises .unpack s .codeNotValid :=
  command_raise hready (by rw [unpackBody, State.accept_codeV, h]; rfl)

theorem unpack_raises_hdrNotValid (h : s.codeV = true) (hh : s.hdrV = false) : raises .unpack s .hdrNotValid :=
  command_raise hready (by rw [unpackBody, State.accept_codeV, State.accept_hdrV, h, hh]; rfl)

section
variable (hcap : s.caps.inCap < s.inLen.toNat)
include hcap

theorem freq_raises_inLenRange : raises .freq s .inLenRange :=
  command_raise hready (by rw [freqBody, requireInLen_of_gt (s := s.accept (encode .freq)) hcap]; rfl)

theorem compress_raises_inLenRange : raises .compress s .inLenRange :=
  command_raise hready (by
    rw [compressBody, freqBody, requireInLen_of_gt (s := s.accept (encode .compress)) hcap]; rfl)

theorem decompress_raises_inLenRange : raises .decompress s .inLenRange :=
  command_raise hready (by
    rw [decompressBody, hdrpBody, requireInLen_of_gt (s := s.accept (encode .decompress)) hcap]; rfl)

theorem pack_raises_inLenRange (h : s.codeV = true) : raises .pack s .inLenRange :=
  command_raise hready (by
    rw [packBody, State.accept_codeV, h, requireInLen_of_gt (s := s.accept (encode .pack)) hcap]; rfl)

theorem unpack_raises_inLenRange (h : s.codeV = true) (hh : s.hdrV = true) : raises .unpack s .inLenRange :=
  command_raise hready (by
    rw [unpackBody, State.accept_codeV, State.accept_hdrV, h, hh,
      requireInLen_of_gt (s := s.accept (encode .unpack)) hcap]; rfl)

end

theorem unpack_raises_payloadLen (h : s.codeV = true) (hh : s.hdrV = true) (hcap : s.inLen.toNat ≤ s.caps.inCap)
    (hlen : s.payloadLength ≠ s.lbits.toNat) : raises .unpack s .payloadLen := by
  refine command_raise hready ?_
  rw [unpackBody, State.accept_codeV, State.accept_hdrV, h, hh,
    requireInLen_of_le (s := s.accept (encode .unpack)) hcap,
    decide_eq_false (p := (s.accept (encode .unpack)).payloadLength = (s.accept (encode .unpack)).lbits.toNat) hlen]
  rfl

end

end Sys2Proof.Machine

namespace Sys2Proof
open Sys2Proof.Machine Sys2Proof.Claims

/-- Settles O3: the step takes the access out of the program and hands the word to the decoder. -/
theorem stepRunsTheDecodedCommand : Obligations.StepRunsTheDecodedCommand :=
  ⟨fun _ _ _ _ hprog hdecode => (step_writeCmd hprog).trans (writeCmd_of_decode_ok hdecode _), fun _ => step_nil⟩

/-- Settles O4: the sixteen rows, computed. -/
theorem errorNumbers : Obligations.ErrorNumbers := by
  unfold Obligations.ErrorNumbers
  decide

/-- Settles O5: error entry is a power-on that keeps eight fields, and no other field of the state it starts from. -/
theorem errorEntry : Obligations.ErrorEntry := by
  refine ⟨fun s e => ?_, fun s u e hcmd hinLen hinBuf hcaps hdraws hresets hprog hreads => ?_⟩
  · exact ⟨rfl, rfl, rfl, ⟨rfl, rfl, rfl, rfl⟩, rfl, rfl, rfl, rfl, rfl, rfl, rfl, rfl,
      ⟨rfl, rfl, fun _ => rfl, rfl, rfl⟩⟩
  · rw [raise_eq, raise_eq, hcmd, hinLen, hinBuf, hcaps, hdraws, hresets, hprog, hreads]

/-- Settles O6: in `ERROR` every word but `CLEAR`'s is ignored, and no other access writes the fields named. -/
theorem errorIsLeftOnlyByClearOrReset : Obligations.ErrorIsLeftOnlyByClearOrReset := by
  refine ⟨fun s w herror hw => writeCmd_in_error herror hw, fun s t a rest herror hprog ha hreset hstep => ?_,
    fun s herror => ⟨_, writeCmd_one s, rfl, rfl, rfl⟩⟩
  rcases step_next hstep with ⟨-, rfl⟩ | ⟨b, rest', u, hprog', rfl, hcases⟩
  · exact ⟨herror, rfl, rfl, rfl⟩
  obtain ⟨rfl, rfl⟩ := List.cons.inj (hprog.symm.trans hprog')
  rcases hcases with ⟨w, rfl, hw⟩ | ⟨w, -, rfl⟩ | ⟨off, w, -, -, -, rfl⟩ | ⟨i, c, -, rfl⟩ | ⟨v, rfl⟩ | ⟨h, -⟩
  · have hne : w ≠ 1 := fun e => ha (by rw [e])
    rw [writeCmd_in_error (s := { s with hostProgram := rest }) herror hne] at hw
    cases hw
    exact ⟨herror, rfl, rfl, rfl⟩
  · exact ⟨herror, rfl, rfl, rfl⟩
  · exact ⟨herror, rfl, rfl, rfl⟩
  · exact ⟨herror, rfl, rfl, rfl⟩
  · exact ⟨herror, rfl, rfl, rfl⟩
  · exact absurd h hreset

/-- Settles O7: each check is the first of its command's pseudocode that fails. -/
theorem precondIsRaisedByFlags : Obligations.PrecondIsRaisedByFlags := fun _ hready =>
  ⟨build_raises_freqNotValid hready, build_raises_emptyAlphabet hready, gen_raises_treeNotValid hready,
    fun h => ⟨hdrw_raises_codeNotValid hready h, pack_raises_codeNotValid hready h, unpack_raises_codeNotValid hready h⟩,
    unpack_raises_hdrNotValid hready⟩

/-- Settles O9: the check of `IN_LEN` stands first, or right after the flags' checks. -/
theorem inLenAboveCapacityIsRaised : Obligations.InLenAboveCapacityIsRaised := fun _ hready hcap =>
  ⟨freq_raises_inLenRange hready hcap, hdrp_raises_inLenRange hready hcap, compress_raises_inLenRange hready hcap,
    decompress_raises_inLenRange hready hcap, pack_raises_inLenRange hready hcap, unpack_raises_inLenRange hready hcap⟩

/-- Settles O11: `CLEAR` has one outcome, written out field by field. -/
theorem clearReturnsToIdle : Obligations.ClearReturnsToIdle := fun s =>
  ⟨_, exec_clear s, rfl, rfl, rfl, rfl, ⟨rfl, rfl, rfl, rfl⟩, rfl, rfl, rfl, rfl, rfl, rfl, rfl,
    ⟨rfl, rfl, fun _ => rfl, rfl, rfl⟩, rfl, rfl, rfl, rfl, rfl, rfl, rfl⟩

/-- Settles O12: both states are a power-on of the block. -/
theorem resetZeroesTheScalars : Obligations.ResetZeroesTheScalars :=
  ⟨powerOn_scalarsZero _ _ _, fun _ => rfl, fun u _ hprog =>
    ⟨_, step_reset hprog, powerOn_scalarsZero u.caps (u.draws + 1) (u.resets + 1), fun _ => rfl, rfl, rfl, rfl⟩⟩

/-- Settles O13: each register is a field or fields put side by side, read as a number. -/
theorem registerMap : Obligations.RegisterMap := by
  intro s
  refine ⟨rfl, statusWord_toNat s, rfl, rfl, rfl, BitVec.toNat_setWidth_of_le (by decide),
    BitVec.toNat_setWidth_of_le (by decide), ?_, ?_, treeWord_toNat s, fun off h => readReg_reserved s h⟩
  · exact BitVec.extractLsb'_toNat 0 32 s.lbits
  · have hlt := s.lbits.isLt
    refine (BitVec.toNat_setWidth_of_le (by decide)).trans ((BitVec.extractLsb'_toNat 32 16 s.lbits).trans ?_)
    rw [Nat.shiftRight_eq_div_pow]
    omega

/-- Settles O14: the step of each primitive, from the access the model gives it. -/
theorem hostPrimitives : Obligations.HostPrimitives := by
  intro s rest off i v b
  have hok (h4 : off % 4 = 0) (hle : off ≤ 0x3C) : regOffsetOk off = true := (regOffsetOk_iff off).mpr ⟨h4, hle⟩
  refine ⟨fun hprog h4 hle => step_readReg hprog (hok h4 hle), step_readIn, step_readOut,
    fun hprog => step_writeReg hprog rfl, fun hprog h4 hle h0 h8 => ?_, fun hprog hi => ?_⟩
  · rw [step_writeReg hprog (hok h4 hle), writeReg_cases, if_neg h0, if_neg h8]
  · exact ⟨_, step_writeIn hprog hi, rfl, writeIn_inByte_self _ i b, fun j hj => writeIn_inByte_ne _ b hj⟩

/-- Settles O15: a step is refused where its access is, and an access is refused where it is not well-formed. -/
theorem refusedExactlyOutsideTheInterface : Obligations.RefusedExactlyOutsideTheInterface := by
  intro s
  cases hprog : s.hostProgram with
  | nil => simp [step_nil hprog]
  | cons a rest =>
    rw [step_cons hprog, access_refused_iff]
    have hbad : ∀ off, regOffsetOk off = false ↔ off % 4 ≠ 0 ∨ 0x3C < off := fun off => by
      rw [← Bool.not_eq_true, regOffsetOk_iff]
      omega
    simp only [List.cons.injEq]
    constructor
    · intro h
      refine ⟨a, rest, ⟨rfl, rfl⟩, ?_⟩
      cases a <;> simp_all [HostAccess.wellFormed]
    · rintro ⟨a', rest', ⟨rfl, rfl⟩, h⟩
      cases a <;> simp_all [HostAccess.wellFormed]

/-- Settles O16: of the ways a step can answer a next state, only the write of `CMD` and the reset change more. -/
theorem onlyCmdWritesStartCommands : Obligations.OnlyCmdWritesStartCommands := by
  intro s t a rest hprog hcmd hreset hstep
  rcases step_next hstep with ⟨hnil, -⟩ | ⟨b, rest', u, hprog', rfl, hcases⟩
  · rw [hnil] at hprog
    cases hprog
  obtain ⟨rfl, rfl⟩ := List.cons.inj (hprog.symm.trans hprog')
  rcases hcases with ⟨w, h, -⟩ | ⟨w, -, rfl⟩ | ⟨off, w, -, -, -, rfl⟩ | ⟨i, c, -, rfl⟩ | ⟨v, rfl⟩ | ⟨h, -⟩
  · exact absurd h (hcmd w)
  · rfl
  · rfl
  · rfl
  · rfl
  · exact absurd h hreset

/-- Settles O47: the integer length is checked after the flags and `IN_LEN`. -/
theorem unpackChecksTheLength : Obligations.UnpackChecksTheLength := fun _ hready hcode hhdr hcap hlen =>
  unpack_raises_payloadLen hready hcode hhdr hcap hlen

end Sys2Proof
end

section
/-!
PROOF. What every command leaves alone and which flags it writes (10_state.md R22, R25, R30; 20_memory.md R32), and the bytes of
`OUT` while a command stores.
-/
namespace Sys2Proof.Machine
open Sys2Proof.Claims

/-! ## How a command ends -/

/-- The two ways an accepted command answers a next state (R86). -/
theorem command_ready_cases {s t : State} {w : Word} {body : State → Run State} (hready : s.ready)
    (h : s.command w body = .next t) :
    (∃ u, body (s.accept w) = .ok u ∧ t = u.complete) ∨
      ∃ e, body (s.accept w) = .error (.raise e) ∧ t = (s.accept w).raise e := by
  rcases command_next h with ⟨herror, -⟩ | ⟨-, hok⟩ | ⟨-, herr⟩
  · exact absurd herror hready
  · exact .inl hok
  · exact .inr herr

theorem State.Keeps.sameInput {s t : State} (h : s.Keeps t) : sameInput s t :=
  ⟨h.caps, h.inLen, h.inByte, h.hostProgram, h.hostReads⟩

/-- Completion, error entry and the ignored word leave the input as it was when the pseudocode does. -/
theorem command_sameInput {s t : State} {w : Word} {body : State → Run State} (hbody : ∀ u v, body u = .ok v → u.Keeps v)
    (h : s.command w body = .next t) : sameInput s t := by
  rcases command_next h with ⟨-, rfl⟩ | ⟨-, u, hu, rfl⟩ | ⟨-, e, -, rfl⟩
  · exact ⟨rfl, rfl, fun _ => rfl, rfl, rfl⟩
  · obtain ⟨hcaps, hlen, hbyte, hprog, hreads⟩ := (hbody _ _ hu).sameInput
    exact ⟨hcaps, hlen, hbyte, hprog, hreads⟩
  · exact ⟨rfl, rfl, fun _ => rfl, rfl, rfl⟩

/-- A command's flags: none in `ERROR`, and what its completed pseudocode leaves otherwise. -/
theorem command_flags {s t : State} {w : Word} {body : State → Run State} {P : State → Prop} (hready : s.ready)
    (h : s.command w body = .next t) (hP : ∀ u, body (s.accept w) = .ok u → P u.complete) :
    (t.phase = .error → flagsAre t false false false false) ∧ (t.phase ≠ .error → P t) := by
  rcases command_ready_cases hready h with ⟨u, hu, rfl⟩ | ⟨e, -, rfl⟩
  · exact ⟨fun he => (by cases he), fun _ => hP u hu⟩
  · exact ⟨fun _ => ⟨rfl, rfl, rfl, rfl⟩, fun he => absurd rfl he⟩

/-- The input is empty exactly when the counts have no alphabet. -/
theorem nsymOf_countBytes_eq_zero (s : State) : nsymOf (countBytes s.inputBytes) = 0 ↔ s.inLen = 0 := by
  rw [← BitVec.toNat_inj, nsymOf_countBytes_toNat (inputBytes_length_lt s)]
  show _ = 0 ↔ _
  rw [Finset.card_eq_zero, List.toFinset_eq_empty_iff, ← List.length_eq_zero_iff, inputBytes_length, ← BitVec.toNat_inj]
  rfl

/-! ## The parts of the composites, as flags -/

theorem freqBody_nsym {s t : State} (h : freqBody s = .ok t) : t.nsym = 0 ↔ s.inLen = 0 := by
  obtain ⟨-, rfl⟩ := (freqBody_ok s t).mp h
  exact nsymOf_countBytes_eq_zero s

theorem compressBody_flags {s t : State} (h : compressBody s = .ok t) :
    if s.inLen = 0 then flagsAre t true false false false else flagsAre t true true true false := by
  obtain ⟨u, hu, ⟨hn, rfl⟩ | ⟨hn, v, hv, w, hw, x, hx, ht⟩⟩ := (compressBody_ok s t).mp h
  · rw [if_pos ((freqBody_nsym hu).mp hn)]
    obtain ⟨-, rfl⟩ := (freqBody_ok _ _).mp hu
    exact ⟨rfl, rfl, rfl, rfl⟩
  · rw [if_neg fun h0 => hn ((freqBody_nsym hu).mpr h0)]
    obtain ⟨hf, -, _, _, _, _, _, _, rfl⟩ := buildBody_writes hv
    obtain ⟨-, _, _, _, rfl⟩ := genBody_writes hw
    obtain ⟨-, _, _, _, rfl⟩ := hdrwBody_writes hx
    obtain ⟨-, -, _, _, _, rfl⟩ := packBody_writes ht
    exact ⟨hf, rfl, rfl, rfl⟩

theorem decompressBody_flags {s t : State} (h : decompressBody s = .ok t) :
    if t.nsym = 0 then flagsAre t true false false true else flagsAre t true true true true := by
  obtain ⟨u, hu, ⟨hn, rfl⟩ | ⟨hn, v, hv, w, hw, ht⟩⟩ := (decompressBody_ok s t).mp h
  · obtain ⟨-, _, _, _, _, rfl⟩ := hdrpBody_writes hu
    exact (if_pos hn).mpr ⟨rfl, rfl, rfl, rfl⟩
  · obtain ⟨-, -, _, _, _, _, _, _, rfl⟩ := buildBody_writes hv
    obtain ⟨-, _, _, _, rfl⟩ := genBody_writes hw
    obtain ⟨-, -, -, -, _, _, rfl⟩ := unpackBody_writes ht
    obtain ⟨-, _, _, _, _, rfl⟩ := hdrpBody_writes hu
    exact (if_neg hn).mpr ⟨rfl, rfl, rfl, rfl⟩

/-! ## The output alone -/

/-- The part of `BuffersOk` that is about `OUT`: it holds exactly the bytes below `OUT_LEN`, within the capacity. -/
abbrev State.OutOk (s : State) : Prop := State.BuffersOk { s with inBuf := [] }

theorem State.BuffersOk.outOk {s : State} (h : s.BuffersOk) : s.OutOk :=
  ⟨h.caps, Memory.wf_nil, fun _ hc => absurd hc List.not_mem_nil, h.outRange, h.outFits⟩

theorem State.OutOk.congr {s t : State} (h : s.OutOk) (hc : t.caps = s.caps) (hl : t.outLen = s.outLen)
    (ho : t.outBuf = s.outBuf) : t.OutOk :=
  BuffersOk.congr h hc rfl hl ho

theorem outRestart_outOk {s : State} (h : s.caps.ok) : s.outRestart.OutOk :=
  ⟨h, Memory.wf_nil, fun _ hc => absurd hc List.not_mem_nil, rfl, Nat.zero_le _⟩

/-- An emitted byte stands after what `OUT` held. -/
theorem emit_outOk {s t : State} {v : Byte} (h : s.OutOk) (he : s.emit v = .ok t) :
    t.OutOk ∧ t.outputBytes = s.outputBytes ++ [v] := by
  obtain ⟨hne, rfl⟩ := (emit_ok s t v).mp he
  have hlt : s.outLen.toNat < s.caps.outCap := Nat.lt_of_le_of_ne h.outFits hne
  exact ⟨put_buffersOk h hlt v, put_outputBytes h hlt v⟩

theorem putAll_inBuf (s : State) (m : Memory) (l : List Byte) :
    State.putAll { s with inBuf := m } l = { s.putAll l with inBuf := m } := by
  induction l generalizing s with
  | nil => rfl
  | cons v l ih => exact ih (s.put v)

/-- Bytes put where all have room keep `OUT` as it must be, and stand after what it held. -/
theorem putAll_outOk {s : State} (h : s.OutOk) {l : List Byte} (hroom : s.outLen.toNat + l.length ≤ s.caps.outCap) :
    (s.putAll l).OutOk ∧ (s.putAll l).outputBytes = s.outputBytes ++ l := by
  constructor
  · induction l generalizing s with
    | nil => exact h
    | cons v l ih =>
      rw [List.length_cons] at hroom
      have hlt : s.outLen.toNat < s.caps.outCap := by omega
      have hlen : (s.put v).outLen.toNat = s.outLen.toNat + 1 := put_outLen_toNat h hlt v
      exact ih (put_buffersOk h hlt v) (by rw [hlen, State.put_caps]; omega)
  · have hbytes := putAll_outputBytes h hroom
    rw [putAll_inBuf] at hbytes
    exact hbytes

/-- `OUT` is as it must be, and begins with what `s` held. -/
structure State.Extends (s t : State) : Prop where
  outOk : t.OutOk
  keeps : s.outputBytes <+: t.outputBytes

theorem State.Extends.refl {s : State} (h : s.OutOk) : s.Extends s := ⟨h, List.prefix_refl _⟩

theorem State.Extends.trans {s t u : State} (h : s.Extends t) (k : t.Extends u) : s.Extends u :=
  ⟨k.outOk, h.keeps.trans k.keeps⟩

theorem emit_extends {s t : State} {v : Byte} (h : s.OutOk) (he : s.emit v = .ok t) : s.Extends t := by
  obtain ⟨hok, hbytes⟩ := emit_outOk h he
  exact ⟨hok, hbytes ▸ List.prefix_append _ _⟩

theorem putBit_extends {p q : Packer} {b : Bool} (h : p.st.OutOk) (hb : p.putBit b = .ok q) : p.st.Extends q.st := by
  by_cases k : p.nbit = 7
  · rw [putBit_full k] at hb
    obtain ⟨t, ht, hb⟩ := (run_bind_ok _ _ _).mp hb
    cases hb
    exact emit_extends h ht
  · rw [putBit_held k] at hb
    cases hb
    exact State.Extends.refl h

/-- A loop whose every step extends `OUT` extends it. -/
theorem foldlM_extends {α : Type} {f : Packer → α → Run Packer}
    (hf : ∀ p a q, p.st.OutOk → f p a = .ok q → p.st.Extends q.st) {l : List α} {p q : Packer} (h : p.st.OutOk)
    (hl : l.foldlM f p = .ok q) : p.st.Extends q.st := by
  induction l generalizing p with
  | nil =>
    cases hl
    exact State.Extends.refl h
  | cons a l ih =>
    rw [List.foldlM_cons] at hl
    obtain ⟨r, hr, hl⟩ := (run_bind_ok _ _ _).mp hl
    have hstep := hf p a r h hr
    exact hstep.trans (ih hstep.outOk hl)

theorem putCodeBit_extends {p q : Packer} {b : Bool} (h : p.st.OutOk) (hb : p.putCodeBit b = .ok q) :
    p.st.Extends q.st := by
  obtain ⟨r, hr, hb⟩ := (run_bind_ok _ _ _).mp hb
  obtain rfl := Except.ok.inj hb
  exact putBit_extends (q := r) h hr

theorem putCode_extends {p q : Packer} {x : Byte} (h : p.st.OutOk) (hx : p.putCode x = .ok q) : p.st.Extends q.st := by
  rw [putCode_eq] at hx
  split at hx
  · cases hx
  · exact foldlM_extends (fun _ _ _ => putCodeBit_extends) h hx

/-- `PACK` appends (R80). -/
theorem packBody_extends {s t : State} (hs : s.OutOk) (h : packBody s = .ok t) : s.Extends t := by
  obtain ⟨_, -, h⟩ := (run_bind_ok _ _ _).mp h
  obtain ⟨_, -, h⟩ := (run_bind_ok _ _ _).mp h
  obtain ⟨p, hp, h⟩ := (run_bind_ok _ _ _).mp h
  obtain ⟨q, hq, h⟩ := (run_bind_ok _ _ _).mp h
  have h1 := foldlM_extends (fun _ _ _ => putCode_extends) hs hp
  have h2 := h1.trans (foldlM_extends (fun _ _ _ => putBit_extends) h1.outOk hq)
  cases h
  exact ⟨h2.outOk.congr rfl rfl rfl, h2.keeps⟩

theorem unpackLoop_outOk {n j : Nat} {cur : NodeId} {s t : State} (hs : s.OutOk)
    (h : State.unpackLoop n j cur s = .ok t) : t.OutOk := by
  induction n generalizing j cur s with
  | zero =>
    rw [unpackLoop_zero] at h
    split at h
    · cases h
      exact hs
    · cases h
  | succ n ih =>
    unfold State.unpackLoop at h
    split at h
    · obtain ⟨u, hu, h⟩ := (run_bind_ok _ _ _).mp h
      exact ih (emit_outOk hs hu).1 h
    · obtain ⟨c, -, h⟩ := (run_bind_ok _ _ _).mp h
      split at h
      · obtain ⟨u, hu, h⟩ := (run_bind_ok _ _ _).mp h
        exact ih (emit_outOk hs hu).1 h
      · exact ih hs h

/-- `UNPACK` stores from `OUT[0]` on (R82). -/
theorem unpackBody_outOk {s t : State} (hc : s.caps.ok) (h : unpackBody s = .ok t) : t.OutOk := by
  obtain ⟨hcode, hhdr, hcap, hlen, -⟩ := unpackBody_writes h
  rw [unpackBody_of_checks hcode hhdr hcap hlen] at h
  exact unpackLoop_outOk (outRestart_outOk hc) h

theorem headerBytes_length_le {s : State} (hc : s.caps.ok) (n : BitVec 9) (p : BitVec 3) :
    (headerBytes s.freq n p).length ≤ s.caps.outCap := by
  obtain ⟨-, -, hcap, -⟩ := hc
  have := alphabetOf_length_le s.freq
  rw [headerBytes_length]
  omega

/-- `HDRW` leaves the header in `OUT`, which always has room for it (R75, 00_scope.md R7). -/
theorem hdrwBody_outOk {s t : State} (hc : s.caps.ok) (h : hdrwBody s = .ok t) :
    t.OutOk ∧ t.outputBytes = headerBytes s.freq s.nsym (padCount s.lbits.toNat) := by
  obtain ⟨-, rfl⟩ := (hdrwBody_ok s t).mp h
  have hroom := headerBytes_length_le hc s.nsym (padCount s.lbits.toNat)
  obtain ⟨hok, hbytes⟩ := putAll_outOk (outRestart_outOk (s := s.withPad (padCount s.lbits.toNat)) hc)
    ((Nat.zero_add _).trans_le hroom)
  generalize (s.withPad (padCount s.lbits.toNat)).outRestart.putAll _ = u at hok hbytes
  exact ⟨hok.congr rfl rfl rfl, hbytes⟩

/-- What extends `OUT` keeps every byte below the old `OUT_LEN`. -/
theorem State.Extends.bytes {s t : State} (h : s.Extends t) :
    s.outLen.toNat ≤ t.outLen.toNat ∧ ∀ k, k < s.outLen.toNat → t.outByte k = s.outByte k := by
  have hle : s.outLen.toNat ≤ t.outLen.toNat := by
    rw [← outputBytes_length, ← outputBytes_length]
    exact h.keeps.length_le
  refine ⟨hle, fun k hk => ?_⟩
  have hget := h.keeps.getElem (i := k) (by rwa [outputBytes_length])
  simpa [State.outputBytes] using hget.symm

/-! ## Errors of the parts, where their flags hold -/

theorem freqBody_error {s : State} {x : Stop} (h : freqBody s = .error x) : x = .raise .inLenRange := by
  rcases (run_bind_error _ _ _).mp h with h | ⟨_, -, h⟩
  · exact ((require_error _ _ _).mp h).2
  · cases h

/-- With a table and an alphabet `BUILD` raises nothing. -/
theorem buildBody_error {s : State} {x : Stop} (hf : s.freqV = true) (hn : s.nsym ≠ 0) (h : buildBody s = .error x) :
    x = .stuck .emptyQueue := by
  have hn' : (s.nsym != 0) = true := by simpa using hn
  rw [buildBody, hf, hn', require_true, run_ok_bind, require_true, run_ok_bind] at h
  rcases (run_bind_error _ _ _).mp h with h | ⟨_, -, h⟩
  · unfold State.takeRoot at h
    split at h <;> cases h
    rfl
  · cases h

theorem hdrwBody_not_error {s : State} (hc : s.codeV = true) (x : Stop) : hdrwBody s ≠ .error x := by
  rw [(hdrwBody_ok s _).mpr ⟨hc, rfl⟩]
  exact fun h => by cases h

/-- `PACK` with valid codes. -/
theorem packBody_error_of_codeV {s : State} {x : Stop} (hc : s.codeV = true) (h : packBody s = .error x) :
    x = .raise .inLenRange ∨ x = .raise .noCode ∨ x = .raise .outFull := by
  rcases packBody_error h with rfl | h
  · rw [packBody, hc, require_true, run_ok_bind] at h
    rcases (run_bind_error _ _ _).mp h with h | ⟨_, -, h⟩
    · exact .inl ((require_error _ _ _).mp h).2
    rcases (run_bind_error _ _ _).mp h with h | ⟨p, -, h⟩
    · rcases foldlM_error (fun _ _ _ => putCode_error) _ _ _ h with h | h <;> cases h
    rcases (run_bind_error _ _ _).mp h with h | ⟨q, -, h⟩
    · cases foldlM_error (P := fun x => x = .raise .outFull) (fun _ _ _ => putBit_error) _ _ _ h
    · cases h
  · exact h

/-- The header's errors are `FORMAT` (R77). -/
theorem parseStream_error {s : State} {e : CmdError} (h : s.parseStream = .error (.raise e)) : e.cls = 1 := by
  unfold State.parseStream State.parseHeader at h
  dsimp only at h
  split at h
  · cases h
  split at h
  · cases h
    rfl
  split at h
  · cases h
    rfl
  split at h
  · cases h
    rfl
  rcases (run_bind_error _ _ _).mp h with h | ⟨t, -, h⟩
  · rcases parseEntries_error h with h | h <;> cases h <;> rfl
  · split at h <;> cases h
    rfl

theorem hdrpBody_error {s : State} {e : CmdError} (h : hdrpBody s = .error (.raise e)) : e = .inLenRange ∨ e.cls = 1 := by
  rcases (run_bind_error _ _ _).mp h with h | ⟨_, -, h⟩
  · exact .inl (Stop.raise.inj ((require_error _ _ _).mp h).2)
  rcases (run_bind_error _ _ _).mp h with h | ⟨_, -, h⟩
  · exact .inr (parseStream_error h)
  · cases h

theorem emit_error {s : State} {v : Byte} {x : Stop} (h : s.emit v = .error x) : x = .raise .outFull := by
  unfold State.emit at h
  split at h <;> cases h
  rfl

theorem unpackLoop_error {n j : Nat} {cur : NodeId} {s : State} {x : Stop} (h : State.unpackLoop n j cur s = .error x) :
    x = .raise .exhausted ∨ x = .raise .outFull ∨ x = .stuck .noSuchNode := by
  induction n generalizing j cur s with
  | zero =>
    rw [unpackLoop_zero] at h
    split at h <;> cases h
    exact .inl rfl
  | succ n ih =>
    unfold State.unpackLoop at h
    split at h
    · rcases (run_bind_error _ _ _).mp h with h | ⟨u, -, h⟩
      · exact .inr (.inl (emit_error h))
      · exact ih h
    · rcases (run_bind_error _ _ _).mp h with h | ⟨c, -, h⟩
      · exact .inr (.inr ((child_error _ _ _ _).mp h).2)
      · split at h
        · rcases (run_bind_error _ _ _).mp h with h | ⟨u, -, h⟩
          · exact .inr (.inl (emit_error h))
          · exact ih h
        · exact ih h

/-- `UNPACK` with valid codes and a parsed header. -/
theorem unpackBody_error {s : State} {x : Stop} (hc : s.codeV = true) (hh : s.hdrV = true) (h : unpackBody s = .error x) :
    x = .raise .inLenRange ∨ x = .raise .payloadLen ∨ x = .raise .exhausted ∨ x = .raise .outFull ∨
      x = .stuck .noSuchNode := by
  rw [unpackBody, hc, hh, require_true, run_ok_bind, require_true, run_ok_bind] at h
  rcases (run_bind_error _ _ _).mp h with h | ⟨_, -, h⟩
  · exact .inl ((require_error _ _ _).mp h).2
  rcases (run_bind_error _ _ _).mp h with h | ⟨_, -, h⟩
  · exact .inr (.inl ((require_error _ _ _).mp h).2)
  · exact .inr (.inr (unpackLoop_error h))

/-- A failing `COMPRESS` fails in one of its parts, whose flags the parts before it have set. -/
theorem compressBody_error {s : State} {e : CmdError} (h : compressBody s = .error (.raise e)) :
    e = .inLenRange ∨ e = .noCode ∨ e = .outFull := by
  rcases (run_bind_error _ _ _).mp h with h | ⟨t, ht, h⟩
  · exact .inl (Stop.raise.inj (freqBody_error h))
  split at h
  · cases h
  obtain ⟨-, rfl⟩ := (freqBody_ok _ _).mp ht
  rcases (run_bind_error _ _ _).mp h with h | ⟨u, hu, h⟩
  · cases buildBody_error rfl ‹_› h
  obtain ⟨-, -, _, _, _, _, _, _, rfl⟩ := buildBody_writes hu
  rcases (run_bind_error _ _ _).mp h with h | ⟨v, hv, h⟩
  · cases (genBody_raise h).1
  obtain ⟨-, _, _, _, rfl⟩ := genBody_writes hv
  rcases (run_bind_error _ _ _).mp h with h | ⟨w, hw, h⟩
  · exact absurd h (hdrwBody_not_error rfl _)
  obtain ⟨-, _, _, _, rfl⟩ := hdrwBody_writes hw
  rcases packBody_error_of_codeV rfl h with h | h | h <;> cases h <;> simp

theorem decompressBody_error {s : State} {e : CmdError} (h : decompressBody s = .error (.raise e)) :
    e = .inLenRange ∨ e.cls = 1 ∨ e = .outFull := by
  rcases (run_bind_error _ _ _).mp h with h | ⟨t, ht, h⟩
  · exact (hdrpBody_error h).imp_right .inl
  split at h
  · cases h
  obtain ⟨-, _, _, _, _, rfl⟩ := hdrpBody_writes ht
  rcases (run_bind_error _ _ _).mp h with h | ⟨u, hu, h⟩
  · cases buildBody_error rfl ‹_› h
  obtain ⟨-, -, _, _, _, _, _, _, rfl⟩ := buildBody_writes hu
  rcases (run_bind_error _ _ _).mp h with h | ⟨v, hv, h⟩
  · cases (genBody_raise h).1
  obtain ⟨-, _, _, _, rfl⟩ := genBody_writes hv
  rcases unpackBody_error rfl rfl h with h | h | h | h | h <;> cases h <;> simp [CmdError.cls]

/-- A command whose errors are not `PRECOND` does not end in one. -/
theorem command_err_ne_four {s t : State} {w : Word} {body : State → Run State} (hready : s.ready)
    (hbody : ∀ e, body (s.accept w) = .error (.raise e) → e.cls ≠ 4) (h : s.command w body = .next t) : t.err ≠ 4 := by
  rcases command_ready_cases hready h with ⟨u, -, rfl⟩ | ⟨e, he, rfl⟩
  · show (0 : BitVec 4) ≠ 4
    decide
  · exact hbody e he

end Sys2Proof.Machine

namespace Sys2Proof
open Sys2Proof.Machine Sys2Proof.Claims

/-- Settles O17: no pseudocode writes what the host alone writes, nor does error entry. -/
theorem commandsNeverChangeTheInput : Obligations.CommandsNeverChangeTheInput := by
  intro i s t h
  cases i with
  | nop =>
    change execNop s = .next t at h
    unfold execNop at h
    split at h <;> cases h <;> exact ⟨rfl, rfl, fun _ => rfl, rfl, rfl⟩
  | clear =>
    cases h
    exact ⟨rfl, rfl, fun _ => rfl, rfl, rfl⟩
  | freq => exact command_sameInput (fun _ _ => freqBody_keeps) h
  | build => exact command_sameInput (fun _ _ => buildBody_keeps) h
  | gen => exact command_sameInput (fun _ _ => genBody_keeps) h
  | hdrw => exact command_sameInput (fun _ _ => hdrwBody_keeps) h
  | pack => exact command_sameInput (fun _ _ => packBody_keeps) h
  | hdrp => exact command_sameInput (fun _ _ => hdrpBody_keeps) h
  | unpack => exact command_sameInput (fun _ _ => unpackBody_keeps) h
  | compress => exact command_sameInput (fun _ _ => compressBody_keeps) h
  | decompress => exact command_sameInput (fun _ _ => decompressBody_keeps) h

/-- Settles O18: each pseudocode's own flag writes, by its fields written. -/
theorem flagWritesOfEveryCommand : Obligations.FlagWritesOfEveryCommand := by
  intro i s t hready h
  cases i with
  | nop =>
    rw [exec_nop_of_ready hready] at h
    cases h
    exact ⟨fun he => absurd he hready, fun _ => ⟨rfl, rfl, rfl, rfl⟩⟩
  | clear =>
    cases h
    exact ⟨fun he => (by cases he), fun _ => ⟨rfl, rfl, rfl, rfl⟩⟩
  | freq =>
    refine command_flags (P := fun t => flagsAre t true false false false) hready h fun u hu => ?_
    obtain ⟨-, rfl⟩ := (freqBody_ok _ _).mp hu
    exact ⟨rfl, rfl, rfl, rfl⟩
  | build =>
    refine command_flags (P := fun t => flagsAre t s.freqV true false s.hdrV) hready h fun u hu => ?_
    obtain ⟨-, -, _, _, _, _, _, _, rfl⟩ := buildBody_writes hu
    exact ⟨rfl, rfl, rfl, rfl⟩
  | gen =>
    refine command_flags (P := fun t => flagsAre t s.freqV s.treeV true s.hdrV) hready h fun u hu => ?_
    obtain ⟨-, _, _, _, rfl⟩ := genBody_writes hu
    exact ⟨rfl, rfl, rfl, rfl⟩
  | hdrw =>
    refine command_flags (P := fun t => flagsAre t s.freqV s.treeV s.codeV false) hready h fun u hu => ?_
    obtain ⟨-, _, _, _, rfl⟩ := hdrwBody_writes hu
    exact ⟨rfl, rfl, rfl, rfl⟩
  | pack =>
    refine command_flags (P := fun t => flagsAre t s.freqV s.treeV s.codeV false) hready h fun u hu => ?_
    obtain ⟨-, -, _, _, _, rfl⟩ := packBody_writes hu
    exact ⟨rfl, rfl, rfl, rfl⟩
  | hdrp =>
    refine command_flags (P := fun t => flagsAre t true false false true) hready h fun u hu => ?_
    obtain ⟨-, _, _, _, _, rfl⟩ := hdrpBody_writes hu
    exact ⟨rfl, rfl, rfl, rfl⟩
  | unpack =>
    refine command_flags (P := fun t => flagsAre t s.freqV s.treeV s.codeV s.hdrV) hready h fun u hu => ?_
    obtain ⟨-, -, -, -, _, _, rfl⟩ := unpackBody_writes hu
    exact ⟨rfl, rfl, rfl, rfl⟩
  | compress =>
    exact command_flags (P := fun t => if s.inLen = 0 then flagsAre t true false false false
      else flagsAre t true true true false) hready h fun u hu =>
        compressBody_flags (s := s.accept (encode .compress)) (t := u) hu
  | decompress =>
    exact command_flags (P := fun t => if t.nsym = 0 then flagsAre t true false false true
      else flagsAre t true true true true) hready h fun u hu => decompressBody_flags (t := u) hu

/-- Settles O19: the fields each pseudocode writes; the host's side and the input by O17. -/
theorem frameOfTheTableCommands : Obligations.FrameOfTheTableCommands := by
  intro i s t hready h ht
  have hin := commandsNeverChangeTheInput i s t h
  refine ⟨?_, ?_, ?_, ?_⟩ <;> rintro rfl <;> obtain ⟨u, hu, rfl⟩ := command_next_ready h ht
  · obtain ⟨-, rfl⟩ := (freqBody_ok _ _).mp hu
    exact ⟨hin, ⟨rfl, fun _ => rfl⟩, ⟨rfl, rfl, rfl, rfl, rfl, rfl⟩, ⟨rfl, rfl, rfl⟩, rfl, rfl⟩
  · obtain ⟨-, -, _, _, _, _, _, _, rfl⟩ := buildBody_writes hu
    exact ⟨hin, ⟨rfl, fun _ => rfl⟩, ⟨rfl, rfl⟩, ⟨rfl, rfl, rfl⟩, rfl, rfl⟩
  · obtain ⟨-, _, _, _, rfl⟩ := genBody_writes hu
    exact ⟨hin, ⟨rfl, fun _ => rfl⟩, ⟨rfl, rfl⟩, ⟨rfl, rfl, rfl, rfl, rfl, rfl⟩, rfl, rfl⟩
  · obtain ⟨-, _, _, _, _, rfl⟩ := hdrpBody_writes hu
    exact ⟨hin, ⟨rfl, fun _ => rfl⟩, ⟨rfl, rfl, rfl, rfl, rfl, rfl⟩, ⟨rfl, rfl, rfl⟩⟩

/-- Settles O20: `HDRW` and `UNPACK` begin by emptying `OUT`, so its old contents do not reach them; `PACK` puts its bytes
after those there. -/
theorem frameOfTheStoringCommands : Obligations.FrameOfTheStoringCommands := by
  intro i s t hready h ht hi
  have hin := commandsNeverChangeTheInput i s t h
  rcases hi with rfl | rfl | rfl <;> obtain ⟨u, hu, rfl⟩ := command_next_ready h ht
  · have hout (hc : s.caps.ok) := (hdrwBody_outOk (s := s.accept (encode .hdrw)) hc hu).1.outRange
    have hsame (n : Word) (b : Memory) : exec .hdrw { s with outLen := n, outBuf := b } = .next u.complete :=
      command_ok (s := { s with outLen := n, outBuf := b }) hready hu
    obtain ⟨-, _, _, _, rfl⟩ := hdrwBody_writes hu
    exact ⟨hin, ⟨rfl, rfl⟩, ⟨rfl, rfl, rfl, rfl, rfl, rfl⟩, ⟨rfl, rfl, rfl⟩, rfl, fun h => (by cases h),
      fun h => (by cases h), fun _ => ⟨hsame, hout⟩⟩
  · have hbytes (hb : s.BuffersOk) :=
      (packBody_extends (s := s.accept (encode .pack)) (hb.outOk.congr rfl rfl rfl) hu).bytes
    obtain ⟨-, -, _, _, _, rfl⟩ := packBody_writes hu
    exact ⟨hin, ⟨rfl, rfl⟩, ⟨rfl, rfl, rfl, rfl, rfl, rfl⟩, ⟨rfl, rfl, rfl⟩, rfl, fun h => (by cases h),
      fun _ => hbytes, fun h => by rcases h with h | h <;> cases h⟩
  · have hout (hc : s.caps.ok) := (unpackBody_outOk (s := s.accept (encode .unpack)) hc hu).outRange
    have hsame (n : Word) (b : Memory) : exec .unpack { s with outLen := n, outBuf := b } = .next u.complete :=
      command_ok (s := { s with outLen := n, outBuf := b }) hready hu
    obtain ⟨-, -, -, -, _, _, rfl⟩ := unpackBody_writes hu
    exact ⟨hin, ⟨rfl, rfl⟩, ⟨rfl, rfl, rfl, rfl, rfl, rfl⟩, ⟨rfl, rfl, rfl⟩, rfl, fun _ => rfl, fun h => (by cases h),
      fun _ => ⟨hsame, hout⟩⟩

/-- Settles O21: `FREQ` has one outcome where the input fits, and its table is the counts. -/
theorem freqCountsTheInput : Obligations.FreqCountsTheInput := by
  intro s hready hcap
  have hl := inputBytes_length_lt s
  exact ⟨_, command_ok hready ((freqBody_ok (s.accept (encode .freq)) _).mpr ⟨hcap, rfl⟩), ⟨rfl, rfl, rfl, rfl⟩,
    ⟨rfl, rfl, rfl, rfl⟩, fun x => freqAt_countBytes_toNat hl x, nsymOf_countBytes_toNat hl⟩

/-- Settles O8: each part runs with the flags that the parts before it set, so no check of them fails. -/
theorem compositesNeverRaisePrecond : Obligations.CompositesNeverRaisePrecond := by
  rintro s t i hready (rfl | rfl) h
  · refine command_err_ne_four hready (fun e he => ?_) h
    rcases compressBody_error he with rfl | rfl | rfl <;> decide
  · refine command_err_ne_four hready (fun e he => ?_) h
    rcases decompressBody_error he with rfl | he | rfl
    · decide
    · rw [he]
      decide
    · decide

end Sys2Proof
end

section
/-!
PROOF. The header as the statements write it (30_encoding.md R50), written by `HDRW` and read by `HDRP`, and the commands on an
empty alphabet (30_encoding.md R56, 43_header_codec.md R78, 45_control_and_composite.md R89, R90).
-/
namespace Sys2Proof.Machine
open Sys2Proof.Claims

/-! ## The two spellings of the header -/

theorem bigEndian_eq_be32 (v : Word) : bigEndian v = be32 v := by
  have hbyte (k : Nat) : BitVec.ofNat 8 (v.toNat / 2 ^ k) = v.extractLsb' k 8 := by
    apply BitVec.eq_of_toNat_eq
    rw [BitVec.toNat_ofNat, BitVec.extractLsb'_toNat, Nat.shiftRight_eq_div_pow]
  have h0 := hbyte 0
  rw [Nat.pow_zero, Nat.div_one] at h0
  rw [bigEndian, be32, hbyte, hbyte, hbyte, h0]

theorem entries_eq (freq : Vector (BitVec 32) 256) :
    entries freq = (alphabetOf freq).map fun x => (x, freqAt freq x) := by
  rw [entries, present_eq_alphabetOf]

theorem headerBytes_eq_header (freq : Vector (BitVec 32) 256) (p : BitVec 3) :
    headerBytes freq (nsymOf freq) p = header (entries freq) (p.setWidth 8) := by
  have hcount : (nsymOf freq).setWidth 32 = BitVec.ofNat 32 (entries freq).length := by
    have hle := alphabetOf_length_le freq
    apply BitVec.eq_of_toNat_eq
    rw [BitVec.toNat_setWidth_of_le (by decide), nsymOf_toNat, BitVec.toNat_ofNat, entries_eq, List.length_map]
    omega
  simp only [headerBytes, header, hcount, bigEndian_eq_be32, entries_eq, List.flatMap_map]

theorem padCount_setWidth (n : Nat) : (padCount n).setWidth 8 = BitVec.ofNat 8 (padOf n) := by
  apply BitVec.eq_of_toNat_eq
  rw [BitVec.toNat_setWidth_of_le (by decide), padCount_toNat, BitVec.toNat_ofNat, padOf]
  omega

/-- Distinct symbols with their frequencies are the entries of some table. -/
theorem exists_table_of_nodup {es : List (Byte × Word)} (h : (es.map Prod.fst).Nodup) :
    ∃ f : Vector (BitVec 32) 256, (∀ e ∈ es, freqAt f e.1 = e.2) ∧ ∀ x, x ∉ es.map Prod.fst → freqAt f x = 0 := by
  induction es with
  | nil => exact ⟨Vector.replicate 256 0, fun e he => absurd he List.not_mem_nil, fun x _ => freqAt_zero x⟩
  | cons e es ih =>
    obtain ⟨hnot, hrest⟩ := List.nodup_cons.mp h
    obtain ⟨f, hf, h0⟩ := ih hrest
    refine ⟨tset f e.1.toNat e.2, fun d hd => ?_, fun x hx => ?_⟩
    · rw [freqAt_tset]
      rcases List.mem_cons.mp hd with rfl | hd
      · exact if_pos rfl
      · have hne : e.1 ≠ d.1 := fun he => hnot (he ▸ List.mem_map_of_mem hd)
        rw [if_neg hne, hf d hd]
    · obtain ⟨hne, hx⟩ := not_or.mp (mt List.mem_cons.mpr hx)
      rw [freqAt_tset, if_neg (Ne.symm hne), h0 x hx]

/-- A well-formed list of entries is that of a table. -/
theorem exists_table {es : List (Byte × Word)} (hsorted : es.Pairwise fun a b => a.1.toNat < b.1.toNat)
    (hpos : ∀ e ∈ es, e.2 ≠ 0) :
    ∃ f : Vector (BitVec 32) 256, entries f = es ∧ alphabetOf f = es.map Prod.fst ∧
      ∀ e ∈ es, freqAt f e.1 = e.2 := by
  have hsorted' : (es.map Prod.fst).Pairwise fun a b => a.toNat < b.toNat := List.pairwise_map.mpr hsorted
  obtain ⟨f, hf, h0⟩ := exists_table_of_nodup (hsorted'.imp fun h e => absurd (e ▸ h) (Nat.lt_irrefl _))
  have halphabet : es.map Prod.fst = alphabetOf f := by
    refine eq_alphabetOf hsorted' fun x => ⟨fun hx => ?_, fun hx => not_not.mp (mt (h0 x) hx)⟩
    obtain ⟨e, he, rfl⟩ := List.mem_map.mp hx
    rw [hf e he]
    exact hpos e he
  refine ⟨f, ?_, halphabet.symm, hf⟩
  rw [entries_eq, ← halphabet, List.map_map]
  refine (List.map_congr_left fun e he => ?_).trans (List.map_id es)
  rw [Function.comp_apply, hf e he]
  rfl

/-! ## `HDRP` -/

/-- Where the input fits `IN`, `HDRP`'s pseudocode ends with what the parse of the stream recovers. -/
theorem hdrpBody_of_parseStream {s t : State} (hcap : s.inLen.toNat ≤ s.caps.inCap) (h : s.parseStream = .ok t) :
    hdrpBody s = .ok t.flagsHdrp := by
  rw [hdrpBody, requireInLen_of_le hcap, run_ok_bind, h]
  rfl

/-- A stream that says nothing of a symbol: no byte at all, or a count of 0 and a legal pad count. -/
def State.emptyStream (s : State) : Prop :=
  s.inLen = 0 ∨ (5 ≤ s.inLen.toNat ∧ (∀ k, k < 4 → s.inByte k = 0) ∧ (s.inByte 4).toNat ≤ 7)

theorem parseStream_emptyStream {s : State} (h : s.emptyStream) :
    ∃ p i, s.parseStream = .ok (s.withHeader (Vector.replicate 256 0) 0 p i) := by
  rcases h with h | ⟨hlen, hcount, hpad⟩
  · exact ⟨_, _, parseStream_empty h⟩
  · have hn : (s.inWord 0).toNat = 0 := by
      rw [(inWord_eq_zero s 0).mpr fun k hk => by rw [Nat.zero_add, hcount k hk]]
      rfl
    have hok := (parseHeader_ok s (s.withHeader (Vector.replicate 256 0) (s.inWord 0).toNat
      ((s.inByte (4 + 5 * (s.inWord 0).toNat)).setWidth 3) (5 * (s.inWord 0).toNat + 5))).mpr
      ⟨by omega, by omega, by rwa [hn], _, by rw [hn, parseEntries_zero], rfl⟩
    rw [hn] at hok
    exact ⟨_, _, (parseStream_of_pos (by omega)).trans hok⟩

end Sys2Proof.Machine

namespace Sys2Proof
open Sys2Proof.Machine Sys2Proof.Claims

/-- Settles O35: the bytes put are the model's header, which is the statement's, of `NSYM` entries by the invariant. -/
theorem hdrwWritesTheHeader : Obligations.HdrwWritesTheHeader := by
  intro s hi hready hcode
  have hbody := (hdrwBody_ok (s.accept (encode .hdrw)) _).mpr ⟨hcode, rfl⟩
  have hnsym := nsym_of_codeV hi hcode
  obtain ⟨-, hbytes⟩ := hdrwBody_outOk (s := s.accept (encode .hdrw)) hi.buffers.caps hbody
  have hexec := command_ok hready hbody
  generalize State.flagsHdrw _ = t at hbody hbytes hexec
  have hout : t.outputBytes = header (entries s.freq) (BitVec.ofNat 8 (padOf s.lbits.toNat)) := by
    rw [hbytes, State.accept_nsym, hnsym, State.accept_freq, headerBytes_eq_header, padCount_setWidth]
    rfl
  have hlen : t.outLen.toNat = 5 * s.nsym.toNat + 5 := by
    rw [← outputBytes_length, hbytes, headerBytes_length, hnsym, nsymOf_toNat]
    rfl
  obtain ⟨hpad, -⟩ := hdrwBody_output (s := s.accept (encode .hdrw)) (hi.buffers.congr rfl rfl rfl rfl) hbody
  obtain ⟨-, p, n, b, rfl⟩ := hdrwBody_writes hbody
  refine ⟨_, hexec, ⟨rfl, rfl, rfl, rfl⟩, ⟨rfl, rfl, rfl, rfl⟩, ?_, hlen, hout⟩
  show p.toNat = _
  rw [show p = padCount s.lbits.toNat from hpad, padCount_toNat, padOf]

/-- Settles O36: a well-formed list of entries is that of a table, and the parse gives that table back (O39's lemma). -/
theorem hdrpReadsTheHeader : Obligations.HdrpReadsTheHeader := by
  intro s es p rest hready hcap hinput hsorted hpos hp
  obtain ⟨f, hentries, halphabet, hf⟩ := exists_table hsorted hpos
  have hpad : (p.setWidth 3).setWidth 8 = p := by
    apply BitVec.eq_of_toNat_eq
    rw [BitVec.toNat_setWidth_of_le (by decide), BitVec.toNat_setWidth]
    exact Nat.mod_eq_of_lt (Nat.lt_succ_of_le hp)
  have hstream : s.inputBytes = headerBytes f (nsymOf f) (p.setWidth 3) ++ rest := by
    rw [headerBytes_eq_header, hentries, hpad, hinput]
  have hlen : (alphabetOf f).length = es.length := by rw [halphabet, List.length_map]
  have hle := alphabetOf_length_le f
  refine ⟨_, exec_hdrp_of_parseStream hready hcap (parseStream_headerBytes hstream), ⟨rfl, rfl, rfl, rfl⟩,
    ⟨rfl, rfl, rfl, rfl⟩, hf, fun x hx => ?_, ?_, ?_, ?_⟩
  · rw [← halphabet, mem_alphabetOf, not_not] at hx
    exact hx
  · rw [← hlen]
    exact Nat.mod_eq_of_lt (by omega)
  · exact (BitVec.toNat_setWidth 3 p).trans (Nat.mod_eq_of_lt (Nat.lt_succ_of_le hp))
  · rw [← hlen]
    exact Nat.mod_eq_of_lt (by omega)

/-- Settles O51: `FREQ` counts nothing, and `COMPRESS` ends there with an empty `OUT`. -/
theorem compressOfTheEmptyInput : Obligations.CompressOfTheEmptyInput := by
  intro s hready hempty
  have hinput : s.inputBytes = [] := List.length_eq_zero_iff.mp (by rw [inputBytes_length, hempty]; rfl)
  have hfreq := (freqBody_ok (s.accept (encode .compress)) _).mpr
    ⟨by rw [State.accept_inLen, hempty]; exact Nat.zero_le _, rfl⟩
  have hn := (freqBody_nsym hfreq).mpr hempty
  refine ⟨_, command_ok hready ((compressBody_ok _ _).mpr ⟨_, hfreq, .inl ⟨hn, rfl⟩⟩), ⟨rfl, rfl, rfl, rfl⟩,
    ⟨rfl, rfl, rfl, rfl⟩, rfl, rfl, hn, fun x => ?_, rfl, rfl, rfl⟩
  show freqAt (countBytes s.inputBytes) x = 0
  rw [hinput]
  exact freqAt_zero x

/-- Settles O52: `HDRP` recovers an empty alphabet, and `DECOMPRESS` ends there with an empty `OUT`. -/
theorem decompressOfTheEmptyAlphabet : Obligations.DecompressOfTheEmptyAlphabet := by
  intro s hready hcap hempty
  obtain ⟨p, i, hparse⟩ := parseStream_emptyStream (s := s.accept (encode .decompress)) hempty
  have hhdrp := hdrpBody_of_parseStream (s := s.accept (encode .decompress)) hcap hparse
  exact ⟨_, command_ok hready ((decompressBody_ok _ _).mpr ⟨_, hhdrp, .inl ⟨rfl, rfl⟩⟩), ⟨rfl, rfl, rfl, rfl⟩,
    ⟨rfl, rfl, rfl, rfl⟩, rfl, rfl, rfl⟩

end Sys2Proof
end

section
/-!
PROOF. The decode loop of `UNPACK` over the codes of a tree (44_bit_packer.md R82, R83), and what of the state it looks at
(R85).
-/
namespace Sys2Proof.Machine
open Sys2Proof.Claims

/-! ## Payload bits -/

/-- The payload's bits from bit `j` on begin with `bits`. -/
def State.bitsAt (s : State) (j : Nat) (bits : BitString) : Prop :=
  match bits with
  | [] => True
  | b :: bs => s.payloadBit j = b ∧ s.bitsAt (j + 1) bs

theorem bitsAt_append (s : State) (j : Nat) (l r : BitString) :
    s.bitsAt j (l ++ r) ↔ s.bitsAt j l ∧ s.bitsAt (j + l.length) r := by
  induction l generalizing j with
  | nil => simp [State.bitsAt]
  | cons b l ih =>
    rw [List.cons_append, State.bitsAt, State.bitsAt, ih, List.length_cons, and_assoc, Nat.add_right_comm, Nat.add_assoc]

theorem bitsAt_congr {s t : State} (h : t.payloadBit = s.payloadBit) {j : Nat} {bits : BitString} (hb : s.bitsAt j bits) :
    t.bitsAt j bits := by
  induction bits generalizing j with
  | nil => trivial
  | cons b bits ih => exact ⟨h ▸ hb.1, ih hb.2⟩

theorem bitsAt_range' (s : State) (j n : Nat) : s.bitsAt j ((List.range' j n).map s.payloadBit) := by
  induction n generalizing j with
  | zero => trivial
  | succ n ih => exact ⟨rfl, ih (j + 1)⟩

theorem streamBits_eq (s : State) : streamBits s = (List.range' 0 s.lbits.toNat).map s.payloadBit := by
  rw [← List.range_eq_range']
  rfl

theorem bitsAt_streamBits (s : State) : s.bitsAt 0 (streamBits s) := streamBits_eq s ▸ bitsAt_range' s 0 _

theorem streamBits_length (s : State) : (streamBits s).length = s.lbits.toNat := by simp [streamBits]

/-! ## One branch -/

/-- The loop where the cursor arrives at the node `id`: a leaf is emitted, and the cursor returns to the root (R83). -/
def State.arrive (n j : Nat) (id : NodeId) (s : State) : Run State :=
  if isLeaf id then (s.emit (leafByte id) >>= fun t => State.unpackLoop n j t.root t)
  else State.unpackLoop n j id s

theorem arrive_leafOf (n j : Nat) (x : Byte) (s : State) :
    State.arrive n j (leafOf x) s = (s.emit x >>= fun t => State.unpackLoop n j t.root t) := by
  have hx : isLeaf (leafOf x) = true := (isLeaf_iff _).mpr (by rw [leafOf_toNat]; exact x.isLt)
  rw [State.arrive, if_pos hx, leafByte_leafOf]

theorem arrive_internal {k : Nat} (hk : k < 255) (n j : Nat) (s : State) :
    State.arrive n j (internal k) s = State.unpackLoop n j (internal k) s := by
  refine if_neg fun h => ?_
  rw [isLeaf_iff, internal_toNat (by omega)] at h
  omega

section
variable {s : State} (hroot : 256 ≤ s.root.toNat)
include hroot

theorem unpackLoop_branch {k : Nat} (hk : k < 255) (n j : Nat) :
    State.unpackLoop (n + 1) j (internal k) s =
      State.arrive n (j + 1) (if s.payloadBit j then rightOf s k else leftOf s k) s := by
  have hid : (internal k).toNat = 256 + k := internal_toNat (by omega)
  rw [unpackLoop_node hroot n j (by omega) (by omega), hid, Nat.add_sub_cancel_left]
  cases s.payloadBit j <;> rfl

/-- Along the path of `x` the cursor comes to its leaf, which is emitted. -/
theorem arrive_path {T : CodeTree} {id : NodeId} {n : Nat} (hs : s.spans T id) (hn : T.madeIn n) (hn' : n ≤ 255) {x : Byte}
    (hx : x ∈ T.leaves) {j : Nat} (hbits : s.bitsAt j (T.path x)) (m : Nat) :
    State.arrive ((T.path x).length + m) j id s =
      (s.emit x >>= fun t => State.unpackLoop m (j + (T.path x).length) t.root t) := by
  induction T generalizing id n j with
  | leaf y =>
    rw [List.mem_singleton.mp hx, show id = leafOf y from hs, arrive_leafOf, CodeTree.path_leaf, List.length_nil, Nat.zero_add]
    rfl
  | node k l r ihl ihr =>
    obtain ⟨rfl, hsl, hsr⟩ := hs
    obtain ⟨hk, hml, hmr⟩ := hn
    rw [arrive_internal (by omega)]
    by_cases hxr : x ∈ r.leaves
    · rw [CodeTree.path_right hxr] at hbits ⊢
      obtain ⟨hbit, hbits⟩ := hbits
      rw [List.length_cons, Nat.add_right_comm, unpackLoop_branch hroot (by omega), hbit, if_pos rfl,
        ihr hsr hmr (by omega) hxr hbits, Nat.add_right_comm, ← Nat.add_assoc]
    · rw [CodeTree.path_left hxr] at hbits ⊢
      obtain ⟨hbit, hbits⟩ := hbits
      rw [List.length_cons, Nat.add_right_comm, unpackLoop_branch hroot (by omega), hbit, if_neg Bool.false_ne_true,
        ihl hsl hml (by omega) ((List.mem_append.mp hx).resolve_right hxr) hbits, Nat.add_right_comm, ← Nat.add_assoc]

/-- A bit of the path of `x` leads to the child that holds the leaf of `x`. -/
theorem unpackLoop_descend {k : Nat} {l r : CodeTree} {id : NodeId} (hs : s.spans (.node k l r) id) (hk : k < 255) {x : Byte}
    (hx : x ∈ (CodeTree.node k l r).leaves) {b : Bool} {p : BitString} (hp : b :: p <+: (CodeTree.node k l r).path x)
    (hne : b :: p ≠ (CodeTree.node k l r).path x) {j : Nat} (hbits : s.bitsAt j (b :: p)) :
    ∃ T c, (T = l ∨ T = r) ∧ s.spans T c ∧ x ∈ T.leaves ∧ p <+: T.path x ∧ p ≠ T.path x ∧ s.bitsAt (j + 1) p ∧
      State.unpackLoop (p.length + 1) j id s = State.arrive p.length (j + 1) c s := by
  obtain ⟨rfl, hsl, hsr⟩ := hs
  obtain ⟨hbit, hbits⟩ := hbits
  rw [unpackLoop_branch hroot hk, hbit]
  by_cases hxr : x ∈ r.leaves
  · rw [CodeTree.path_right hxr] at hp hne
    obtain ⟨rfl, hp'⟩ := List.cons_prefix_cons.mp hp
    exact ⟨r, _, .inr rfl, hsr, hxr, hp', fun he => hne (he ▸ rfl), hbits, rfl⟩
  · rw [CodeTree.path_left hxr] at hp hne
    obtain ⟨rfl, hp'⟩ := List.cons_prefix_cons.mp hp
    exact ⟨l, _, .inl rfl, hsl, (List.mem_append.mp hx).resolve_right hxr, hp', fun he => hne (he ▸ rfl), hbits, rfl⟩

/-- Bits that end before a leaf leave the cursor at a node made before the root. -/
theorem arrive_inside {T : CodeTree} {id : NodeId} {n : Nat} (hs : s.spans T id) (hn : T.madeIn n)
    (hn' : 256 + n ≤ s.root.toNat) {x : Byte} (hx : x ∈ T.leaves) {p : BitString} (hp : p <+: T.path x)
    (hne : p ≠ T.path x) {j : Nat} (hbits : s.bitsAt j p) :
    State.arrive p.length j id s = .error (.raise .exhausted) := by
  have hlt := s.root.isLt
  induction T generalizing id n j p with
  | leaf y => exact absurd (List.prefix_nil.mp hp) hne
  | node k l r ihl ihr =>
    obtain ⟨hk, hml, hmr⟩ := hn
    rw [hs.1, arrive_internal (by omega), ← hs.1]
    cases p with
    | nil =>
      refine if_neg fun he => ?_
      have := internal_toNat (k := k) (by omega)
      rw [← hs.1, he] at this
      omega
    | cons b p =>
      obtain ⟨T, c, hT, hsc, hxc, hpc, hnec, hbitsc, hstep⟩ := unpackLoop_descend hroot hs (by omega) hx hp hne hbits
      rw [List.length_cons, hstep]
      rcases hT with rfl | rfl
      · exact ihl hsc hml (by omega) hxc hpc hnec hbitsc
      · exact ihr hsc hmr (by omega) hxc hpc hnec hbitsc

/-- Bits that begin a code of the tree, and end inside it, end the loop away from the root (R83). -/
theorem unpackLoop_inside {T : CodeTree} (hs : s.spans T s.root) (hn : T.madeIn 255) {x : Byte} (hx : x ∈ T.leaves)
    {p : BitString} (hp : p <+: T.path x) (hne : p ≠ T.path x) (hp0 : p ≠ []) {j : Nat} (hbits : s.bitsAt j p) :
    State.unpackLoop p.length j s.root s = .error (.raise .exhausted) := by
  cases T with
  | leaf y => exact absurd (List.prefix_nil.mp hp) hne
  | node k l r =>
    obtain ⟨hk, hml, hmr⟩ := hn
    have hid : s.root.toNat = 256 + k := by rw [hs.1, internal_toNat (by omega)]
    cases p with
    | nil => exact absurd rfl hp0
    | cons b p =>
      obtain ⟨T, c, hT, hs, hx, hp, hne, hbits, hstep⟩ := unpackLoop_descend hroot hs hk hx hp hne hbits
      have hm : T.madeIn k := by rcases hT with rfl | rfl <;> assumption
      rw [List.length_cons, hstep]
      exact arrive_inside hroot hs hm hid.ge hx hp hne hbits

end

/-! ## The whole loop -/

/-- An internal root is the top of a tree with two sides. -/
theorem eq_node_of_spans {s : State} {T : CodeTree} {id : NodeId} (hs : s.spans T id) (hid : 256 ≤ id.toNat) :
    ∃ k l r, T = .node k l r := by
  cases T with
  | leaf y =>
    have hy := y.isLt
    rw [show id = leafOf y from hs, leafOf_toNat] at hid
    omega
  | node k l r => exact ⟨k, l, r, rfl⟩

section
variable {T : CodeTree} (hn : T.madeIn 255)
include hn

/-- One code read from the root on emits its symbol; over a leaf the code is one bit, whatever it is (R83, R84). -/
theorem unpackLoop_codeword {s : State} (hs : s.spans T s.root) {x : Byte} (hx : x ∈ T.leaves) {j : Nat}
    (hbits : s.bitsAt j (T.codeword x)) (m : Nat) :
    State.unpackLoop ((T.codeword x).length + m) j s.root s =
      (s.emit x >>= fun t => State.unpackLoop m (j + (T.codeword x).length) t.root t) := by
  cases T with
  | leaf y =>
    have hroot : s.root = leafOf y := hs
    have hlt : s.root.toNat < 256 := by rw [hroot, leafOf_toNat]; exact y.isLt
    rw [List.mem_singleton.mp hx, CodeTree.codeword_leaf, List.length_singleton, Nat.add_comm, unpackLoop_leaf hlt, hroot,
      leafByte_leafOf, ← hroot]
    unfold State.emit
    split <;> rfl
  | node k l r =>
    have hid : s.root.toNat = 256 + k := by
      have := hn.1
      rw [hs.1, internal_toNat (by omega)]
    have hnode : isLeaf s.root ≠ true := fun h => by
      rw [isLeaf_iff] at h
      omega
    rw [CodeTree.codeword_node hx] at hbits ⊢
    rw [← arrive_path (by omega) hs hn le_rfl hx hbits, State.arrive, if_neg hnode]

/-- The codes of `xs`, where `OUT` has room for the bytes. -/
theorem unpackLoop_codewords_of_room {s : State} (hb : s.OutOk) (hs : s.spans T s.root) {xs : List Byte}
    (hxs : ∀ x ∈ xs, x ∈ T.leaves) (hroom : s.outLen.toNat + xs.length ≤ s.caps.outCap) {j : Nat}
    (hbits : s.bitsAt j (xs.flatMap T.codeword)) (m : Nat) :
    State.unpackLoop ((xs.flatMap T.codeword).length + m) j s.root s =
      State.unpackLoop m (j + (xs.flatMap T.codeword).length) s.root (s.putAll xs) := by
  induction xs generalizing s j with
  | nil =>
    rw [List.flatMap_nil, List.length_nil, Nat.zero_add]
    rfl
  | cons x xs ih =>
    rw [List.length_cons] at hroom
    have hlt : s.outLen.toNat < s.caps.outCap := by omega
    have hlen : (s.put x).outLen.toNat = s.outLen.toNat + 1 := put_outLen_toNat hb hlt x
    rw [List.flatMap_cons, bitsAt_append] at hbits
    rw [List.flatMap_cons, List.length_append, Nat.add_assoc,
      unpackLoop_codeword hn hs (hxs x List.mem_cons_self) hbits.1, emit_of_lt hlt, run_ok_bind, ← Nat.add_assoc]
    exact ih (put_buffersOk hb hlt x) (spans_congr (s := s) (t := s.put x) rfl rfl hs)
      (fun y hy => hxs y (List.mem_cons_of_mem x hy)) (by rw [hlen, State.put_caps]; omega)
      (bitsAt_congr (s := s) (t := s.put x) rfl hbits.2)

/-- The codes of `xs`, where `OUT` has no room for all the bytes. -/
theorem unpackLoop_codewords_of_no_room {s : State} (hb : s.OutOk) (hs : s.spans T s.root) {xs : List Byte}
    (hxs : ∀ x ∈ xs, x ∈ T.leaves) (hroom : s.caps.outCap < s.outLen.toNat + xs.length) {j : Nat}
    (hbits : s.bitsAt j (xs.flatMap T.codeword)) (m : Nat) :
    State.unpackLoop ((xs.flatMap T.codeword).length + m) j s.root s = .error (.raise .outFull) := by
  have hfits : s.outLen.toNat ≤ s.caps.outCap := hb.outFits
  induction xs generalizing s j with
  | nil => exact absurd hfits (Nat.not_le.mpr hroom)
  | cons x xs ih =>
    rw [List.length_cons] at hroom
    rw [List.flatMap_cons, bitsAt_append] at hbits
    rw [List.flatMap_cons, List.length_append, Nat.add_assoc,
      unpackLoop_codeword hn hs (hxs x List.mem_cons_self) hbits.1]
    rcases hfits.eq_or_lt with hfull | hlt
    · rw [emit_of_full hfull, run_error_bind]
    · have hlen : (s.put x).outLen.toNat = s.outLen.toNat + 1 := put_outLen_toNat hb hlt x
      rw [emit_of_lt hlt, run_ok_bind]
      exact ih (put_buffersOk hb hlt x) (spans_congr (s := s) (t := s.put x) rfl rfl hs)
        (fun y hy => hxs y (List.mem_cons_of_mem x hy)) (by rw [hlen, State.put_caps]; omega)
        (bitsAt_congr (s := s) (t := s.put x) rfl hbits.2) (by rw [hlen, State.put_caps]; omega)

end

/-! ## `UNPACK` with valid codes -/

section
variable {s : State} {T : CodeTree} (h : s.IsCoded T)
include h

theorem State.IsCoded.accept (w : Word) : (s.accept w).IsCoded T :=
  ⟨h.tree.congr rfl rfl rfl rfl rfl, h.made, h.codes, h.fits, h.lbits⟩

theorem State.IsCoded.encodeAll_eq (xs : List Byte) : encodeAll s xs = xs.flatMap T.codeword :=
  List.flatMap_congr fun x _ => h.codes x

variable (hcaps : s.caps.ok) {xs : List Byte} (hxs : ∀ x ∈ xs, freqAt s.freq x ≠ 0)
  {r : BitString} (hbits : streamBits s = encodeAll s xs ++ r)
include hcaps hxs hbits

/-- Whole codes that find room are decoded, and the loop goes on behind them. -/
theorem State.IsCoded.unpackLoop_of_room (hroom : xs.length ≤ s.caps.outCap) :
    State.unpackLoop s.lbits.toNat 0 s.root s.outRestart =
        State.unpackLoop r.length (encodeAll s xs).length s.root (s.outRestart.putAll xs) ∧
      s.bitsAt (encodeAll s xs).length r := by
  have hat := hbits ▸ bitsAt_streamBits s
  rw [bitsAt_append, Nat.zero_add] at hat
  refine ⟨?_, hat.2⟩
  rw [← streamBits_length, hbits, List.length_append]
  rw [h.encodeAll_eq] at hat ⊢
  have hloop := unpackLoop_codewords_of_room h.made (outRestart_outOk hcaps)
    (spans_congr (s := s) (t := s.outRestart) rfl rfl h.tree.spans) (fun x hx => (h.tree.mem_leaves x).mpr (hxs x hx))
    ((Nat.zero_add _).trans_le hroom) (bitsAt_congr (s := s) (t := s.outRestart) rfl hat.1) r.length
  rw [Nat.zero_add] at hloop
  exact hloop

/-- Whole codes of more bytes than `OUT` has room for (R97). -/
theorem State.IsCoded.unpackLoop_of_no_room (hroom : s.caps.outCap < xs.length) :
    State.unpackLoop s.lbits.toNat 0 s.root s.outRestart = .error (.raise .outFull) := by
  have hat := hbits ▸ bitsAt_streamBits s
  rw [bitsAt_append] at hat
  rw [← streamBits_length, hbits, List.length_append]
  rw [h.encodeAll_eq] at hat ⊢
  exact unpackLoop_codewords_of_no_room h.made (outRestart_outOk hcaps)
    (spans_congr (s := s) (t := s.outRestart) rfl rfl h.tree.spans) (fun x hx => (h.tree.mem_leaves x).mpr (hxs x hx))
    (hroom.trans_eq (Nat.zero_add _).symm) (bitsAt_congr (s := s) (t := s.outRestart) rfl hat.1) r.length

end

/-- A payload that is the codes of `xs` is decoded to `xs`. -/
theorem State.IsCoded.unpackLoop_codes {s : State} {T : CodeTree} (h : s.IsCoded T) (hcaps : s.caps.ok) {xs : List Byte}
    (hxs : ∀ x ∈ xs, freqAt s.freq x ≠ 0) (hbits : streamBits s = encodeAll s xs) (hroom : xs.length ≤ s.caps.outCap) :
    State.unpackLoop s.lbits.toNat 0 s.root s.outRestart = .ok (s.outRestart.putAll xs) := by
  rw [(h.unpackLoop_of_room hcaps hxs (hbits.trans (List.append_nil _).symm) hroom).1, List.length_nil]
  obtain ⟨n, b, hput⟩ := putAll_writes xs s.outRestart
  rw [hput]
  exact if_pos rfl

/-- Whole codes that find room, then bits that end inside the tree (R83). -/
theorem State.IsCoded.unpackLoop_exhausted {s : State} {T : CodeTree} (h : s.IsCoded T) (hcaps : s.caps.ok)
    {xs : List Byte} (hxs : ∀ x ∈ xs, freqAt s.freq x ≠ 0) {r : BitString} (hbits : streamBits s = encodeAll s xs ++ r)
    (hroom : xs.length ≤ s.caps.outCap) (hroot : 256 ≤ s.root.toNat) {y : Byte} (hy : freqAt s.freq y ≠ 0)
    (hr : r <+: codeString s y) (hne : r ≠ codeString s y) (hr0 : r ≠ []) :
    State.unpackLoop s.lbits.toNat 0 s.root s.outRestart = .error (.raise .exhausted) := by
  obtain ⟨hloop, hat⟩ := h.unpackLoop_of_room hcaps hxs hbits hroom
  have hy := (h.tree.mem_leaves y).mpr hy
  obtain ⟨k, l, r', rfl⟩ := eq_node_of_spans h.tree.spans hroot
  rw [h.codes, CodeTree.codeword_node hy] at hr hne
  obtain ⟨n, b, hput⟩ := putAll_writes xs s.outRestart
  rw [hloop, hput]
  exact unpackLoop_inside (s := { s.outRestart with outLen := n, outBuf := b }) hroot
    (spans_congr (s := s) (t := { s.outRestart with outLen := n, outBuf := b }) rfl rfl h.tree.spans) h.made hy hr hne hr0
    (bitsAt_congr (s := s) (t := { s.outRestart with outLen := n, outBuf := b }) rfl hat)

/-! ## What `UNPACK` looks at -/

/-- The loop meets the same in `u` as in `s`: the room in `OUT`, the root, and the children of the nodes that satisfy `P`, the
root among them. -/
structure State.DecodesAs (s u : State) (P : NodeId → Prop) : Prop where
  caps : u.caps = s.caps
  root : u.root = s.root
  outLen : u.outLen = s.outLen
  outBuf : u.outBuf = s.outBuf
  child : ∀ id b, P id → u.child id b = s.child id b
  closed : ∀ id b c, P id → s.child id b = .ok c → isLeaf c = false → P c
  start : P s.root

/-- `u` with the `OUT` of `t`. -/
def State.withOutOf (u t : State) : State := { u with outLen := t.outLen, outBuf := t.outBuf }

section
variable {s u : State} {P : NodeId → Prop} (h : s.DecodesAs u P)
include h

theorem State.DecodesAs.put (v : Byte) : (s.put v).DecodesAs (u.put v) P :=
  ⟨h.caps, h.root, by rw [State.put_outLen, State.put_outLen, h.outLen],
    by rw [State.put_outBuf, State.put_outBuf, h.outLen, h.outBuf], h.child, h.closed, h.start⟩

theorem State.DecodesAs.withOutOf : u.withOutOf s = u := by
  rw [State.withOutOf, ← h.outLen, ← h.outBuf]

/-- The loop reads no more than that, and the payload's bits it has left. -/
theorem State.DecodesAs.unpackLoop_eq {n j : Nat} {cur : NodeId} (hcur : P cur)
    (hbits : ∀ i, j ≤ i → i < j + n → u.payloadBit i = s.payloadBit i) :
    State.unpackLoop n j cur u = (State.unpackLoop n j cur s).map u.withOutOf := by
  induction n generalizing j cur s u with
  | zero =>
    rw [unpackLoop_zero, unpackLoop_zero, h.root]
    split
    · exact congrArg Except.ok h.withOutOf.symm
    · rfl
  | succ n ih =>
    have hemit (v : Byte) (k : State → NodeId) (hk : P (k (s.put v))) (hku : k (u.put v) = k (s.put v)) :
        (u.emit v >>= fun t => State.unpackLoop n (j + 1) (k t) t) =
          (s.emit v >>= fun t => State.unpackLoop n (j + 1) (k t) t).map u.withOutOf := by
      unfold State.emit
      rw [h.outLen, h.caps]
      split
      · rfl
      · rw [run_ok_bind, run_ok_bind, hku]
        exact ih (h.put v) hk fun i hi hi' => hbits i (by omega) (by omega)
    unfold State.unpackLoop
    rw [h.root]
    split
    · exact hemit _ (fun _ => cur) hcur rfl
    · rw [hbits j le_rfl (by omega), h.child _ _ hcur]
      cases hc : s.child cur (s.payloadBit j) with
      | error x => rfl
      | ok c =>
        rw [run_ok_bind, run_ok_bind]
        split
        · exact hemit _ State.root h.start h.root
        · rename_i hleaf
          exact ih h (h.closed _ _ _ hcur hc (by simpa using hleaf)) fun i hi hi' => hbits i (by omega) (by omega)

end

theorem run_map_bind {α β γ : Type} (r : Run α) (f : α → Run β) (g : β → γ) :
    (r >>= f).map g = (r >>= fun a => (f a).map g) := by
  cases r <;> rfl

/-- With the same checks, and the same of what the loop reads, `UNPACK` ends in `u` as in `s`. -/
theorem State.DecodesAs.unpackBody_eq {s u : State} {P : NodeId → Prop} (h : s.outRestart.DecodesAs u.outRestart P)
    (hcode : u.codeV = s.codeV) (hhdr : u.hdrV = s.hdrV) (hlen : u.inLen = s.inLen) (hpos : u.inPos = s.inPos)
    (hpad : u.pad = s.pad) (hlbits : u.lbits = s.lbits) (hbits : ∀ i, i < s.lbits.toNat → u.payloadBit i = s.payloadBit i) :
    unpackBody u = (unpackBody s).map u.outRestart.withOutOf := by
  have hcaps : u.caps = s.caps := h.caps
  have hroot : u.root = s.root := h.root
  have hloop := h.unpackLoop_eq h.start (n := s.lbits.toNat) (j := 0) fun i _ hi => hbits i (by omega)
  simp only [unpackBody, run_map_bind, State.requireInLen, State.payloadLength, hcode, hhdr, hlen, hpos, hpad, hlbits, hcaps,
    hroot]
  rw [← State.outRestart_root, hloop]
  rfl

end Sys2Proof.Machine

namespace Sys2Proof
open Sys2Proof.Machine Sys2Proof.Claims

/-- Settles O43: past its checks `UNPACK` is the loop, which decodes the codes one by one. -/
theorem unpackDecodesTheCodes : Obligations.UnpackDecodesTheCodes := by
  intro s xs hi hready hcode hhdr hcap hroot hlen hxs hbits hroom
  obtain ⟨T, hT, -⟩ := hi.exists_isCoded hcode
  have hbody := unpackBody_of_checks (s := s.accept (encode .unpack)) hcode hhdr hcap hlen
  have hT' := hT.accept (encode .unpack)
  have hok := hbody.trans (hT'.unpackLoop_codes hi.buffers.caps hxs hbits hroom)
  obtain ⟨-, hbytes⟩ := putAll_outOk (outRestart_outOk (s := s.accept (encode .unpack)) hi.buffers.caps)
    ((Nat.zero_add _).trans_le hroom)
  obtain ⟨n, b, hput⟩ := putAll_writes xs (s.accept (encode .unpack)).outRestart
  rw [hput] at hok hbytes
  refine ⟨_, command_ok hready hok, ⟨rfl, rfl, rfl, rfl⟩, ⟨rfl, rfl, rfl, rfl⟩, hbytes, ?_⟩
  have := congrArg List.length hbytes
  rwa [outputBytes_length] at this

/-- Settles O44: the loop decodes the whole codes, and the rest leaves it below the root. -/
theorem unpackRaisesExhausted : Obligations.UnpackRaisesExhausted := by
  intro s xs r y hi hready hcode hhdr hcap hroot hlen hxs hy hr0 hr hne hbits hroom
  obtain ⟨T, hT, -⟩ := hi.exists_isCoded hcode
  have hbody := unpackBody_of_checks (s := s.accept (encode .unpack)) hcode hhdr hcap hlen
  have hT' := hT.accept (encode .unpack)
  exact command_raise hready
    (hbody.trans (hT'.unpackLoop_exhausted hi.buffers.caps hxs hbits hroom hroot hy hr hne hr0))

/-- Settles O45: the loop decodes code after code until a byte meets a full `OUT`. -/
theorem unpackRaisesOutFull : Obligations.UnpackRaisesOutFull := by
  intro s xs r hi hready hcode hhdr hcap hroot hlen hxs hbits hroom
  obtain ⟨T, hT, -⟩ := hi.exists_isCoded hcode
  have hbody := unpackBody_of_checks (s := s.accept (encode .unpack)) hcode hhdr hcap hlen
  have hT' := hT.accept (encode .unpack)
  exact command_raise hready (hbody.trans (hT'.unpackLoop_of_no_room hi.buffers.caps hxs hbits hroom))

/-- Settles O48: the loop reads `IN` nowhere but at its `LBITS` payload bits. -/
theorem unpackIgnoresThePadBits : Obligations.UnpackIgnoresThePadBits := by
  intro s t m hready hbits h
  have hbit : ∀ i, i < s.lbits.toNat → State.payloadBit { s with inBuf := m } i = s.payloadBit i := by
    intro i hi
    rw [streamBits_eq, streamBits_eq] at hbits
    exact List.map_inj_left.mp hbits i (List.mem_range'_1.mpr ⟨Nat.zero_le i, (Nat.zero_add _).symm ▸ hi⟩)
  have hloop : State.DecodesAs (s.accept (encode .unpack)).outRestart
      (State.accept { s with inBuf := m } (encode .unpack)).outRestart fun _ => True :=
    ⟨rfl, rfl, rfl, rfl, fun _ _ _ => rfl, fun _ _ _ _ _ _ => trivial, trivial⟩
  have hbody := hloop.unpackBody_eq rfl rfl rfl rfl rfl rfl hbit
  rcases command_ready_cases hready h with ⟨u, hu, rfl⟩ | ⟨e, he, rfl⟩
  · rw [hu] at hbody
    obtain ⟨-, -, -, -, n, b, rfl⟩ := unpackBody_writes hu
    exact command_ok (s := { s with inBuf := m }) hready hbody
  · rw [he] at hbody
    exact command_raise (s := { s with inBuf := m }) hready hbody

end Sys2Proof
end

section
/-!
PROOF. What `PACK` puts into `OUT`: the payload of the codes of the input (44_bit_packer.md R80, R81; 30_encoding.md R54).
-/
namespace Sys2Proof.Machine
open Sys2Proof.Claims

/-! ## Bits and bytes -/

/-- Byte `k` of a bit string that zeros follow, its first bit the most significant (30_encoding.md R54). -/
def byteAt (bits : BitString) (k : Nat) : Byte :=
  BitVec.ofNat 8 ((List.range 8).map fun t => (bits.getD (8 * k + t) false).toNat * 2 ^ (7 - t)).sum

/-- The whole bytes of a bit string. -/
def fullBytes (bits : BitString) : List Byte := (List.range (bits.length / 8)).map (byteAt bits)

theorem fullBytes_length (bits : BitString) : (fullBytes bits).length = bits.length / 8 := by simp [fullBytes]

theorem payload_eq_fullBytes (bits : BitString) :
    payload bits = fullBytes (bits ++ List.replicate (padOf bits.length) false) := by
  rw [payload, fullBytes, List.length_append, List.length_replicate]
  rfl

theorem padded_div (n : Nat) : (n + padOf n) / 8 = (n + 7) / 8 := by
  rw [padOf]
  omega

theorem payload_length (bits : BitString) : (payload bits).length = (bits.length + 7) / 8 := by
  rw [payload_eq_fullBytes, fullBytes_length, List.length_append, List.length_replicate, padded_div]

theorem getD_snoc (bits : BitString) (b : Bool) (i : Nat) :
    (bits ++ [b]).getD i false = if i = bits.length then b else bits.getD i false := by
  rcases Nat.lt_trichotomy i bits.length with h | rfl | h
  · rw [if_neg h.ne, List.getD_append _ _ _ _ h]
  · rw [if_pos rfl, List.getD_append_right _ _ _ _ le_rfl, Nat.sub_self]
    rfl
  · rw [if_neg h.ne', List.getD_eq_default _ _ h.le, List.getD_eq_default _ _ (by simp; omega)]

/-- A bit at the end of a bit string is in no byte but its own. -/
theorem byteAt_snoc_ne (bits : BitString) (b : Bool) {k : Nat} (hk : k ≠ bits.length / 8) :
    byteAt (bits ++ [b]) k = byteAt bits k := by
  refine congrArg (BitVec.ofNat 8) (congrArg List.sum (List.map_congr_left fun t ht => ?_))
  have := List.mem_range.mp ht
  rw [getD_snoc, if_neg (by omega)]

/-- A bit at the end of a bit string adds its power of 2 to its byte. -/
theorem byteAt_snoc (bits : BitString) (b : Bool) :
    byteAt (bits ++ [b]) (bits.length / 8) =
      byteAt bits (bits.length / 8) + BitVec.ofNat 8 (b.toNat * 2 ^ (7 - bits.length % 8)) := by
  have hterm : ∀ t ∈ List.range 8, ((bits ++ [b]).getD (8 * (bits.length / 8) + t) false).toNat * 2 ^ (7 - t) =
      (bits.getD (8 * (bits.length / 8) + t) false).toNat * 2 ^ (7 - t) +
        if t = bits.length % 8 then b.toNat * 2 ^ (7 - bits.length % 8) else 0 := by
    intro t ht
    have hlast : 8 * (bits.length / 8) + bits.length % 8 = bits.length := Nat.div_add_mod _ 8
    rw [getD_snoc]
    by_cases h : t = bits.length % 8
    · rw [h, hlast, if_pos rfl, if_pos rfl, List.getD_eq_default _ _ le_rfl]
      simp
    · rw [if_neg (by omega), if_neg h, Nat.add_zero]
  have hmem : bits.length % 8 ∈ List.range 8 := List.mem_range.mpr (Nat.mod_lt _ (by decide))
  rw [byteAt, List.map_congr_left hterm, List.sum_map_add,
    List.sum_map_eq_nsmul_single (bits.length % 8) _ fun t ht _ => if_neg ht, List.count_eq_one_of_mem List.nodup_range hmem,
    one_smul, if_pos rfl, BitVec.ofNat_add]
  rfl

theorem byteAt_of_ge {bits : BitString} {k : Nat} (h : bits.length ≤ 8 * k) : byteAt bits k = 0 := by
  have hterm : ∀ t ∈ List.range 8, (bits.getD (8 * k + t) false).toNat * 2 ^ (7 - t) = 0 := by
    intro t _
    rw [List.getD_eq_default _ _ (by omega)]
    simp
  rw [byteAt, List.map_congr_left hterm]
  rfl

/-- The eighth bit completes a byte. -/
theorem fullBytes_snoc (bits : BitString) (b : Bool) :
    fullBytes (bits ++ [b]) =
      if bits.length % 8 = 7 then fullBytes bits ++ [byteAt (bits ++ [b]) (bits.length / 8)] else fullBytes bits := by
  have hbefore : (List.range (bits.length / 8)).map (byteAt (bits ++ [b])) = fullBytes bits :=
    List.map_congr_left fun k hk => byteAt_snoc_ne bits b (List.mem_range.mp hk).ne
  split
  · rw [fullBytes, List.length_append, List.length_singleton, show (bits.length + 1) / 8 = bits.length / 8 + 1 by omega,
      List.range_succ, List.map_append, hbefore]
    rfl
  · rw [fullBytes, List.length_append, List.length_singleton, show (bits.length + 1) / 8 = bits.length / 8 by omega, hbefore]

/-! ## The accumulator -/

/-- The packer, begun in `s`, has taken `bits`: the whole bytes are put, the rest is in the accumulator (block P1). -/
structure Packer.Holds (p : Packer) (s : State) (bits : BitString) : Prop where
  nbit : p.nbit.toNat = bits.length % 8
  acc : p.acc = byteAt bits (bits.length / 8)
  st : p.st = s.putAll (fullBytes bits)

theorem holds_start (s : State) : Packer.Holds { acc := 0, nbit := 0, nb := 0, st := s } s [] := ⟨rfl, rfl, rfl⟩

theorem putAll_append (s : State) (l r : List Byte) : s.putAll (l ++ r) = (s.putAll l).putAll r := List.foldl_append

theorem putAll_caps (s : State) (l : List Byte) : (s.putAll l).caps = s.caps := by
  obtain ⟨n, b, h⟩ := putAll_writes l s
  rw [h]

section
variable {s : State} (hs : s.OutOk)
include hs

theorem putAll_outLen {l : List Byte} (h : s.outLen.toNat + l.length ≤ s.caps.outCap) :
    (s.putAll l).outLen.toNat = s.outLen.toNat + l.length := by
  obtain ⟨-, hbytes⟩ := putAll_outOk hs h
  have := congrArg List.length hbytes
  rwa [outputBytes_length, List.length_append, outputBytes_length] at this

variable {p : Packer} {bits : BitString} (hp : p.Holds s bits)
include hp

theorem Packer.Holds.putBit_of_room (b : Bool) (hroom : s.outLen.toNat + (bits ++ [b]).length / 8 ≤ s.caps.outCap) :
    ∃ q, p.putBit b = .ok q ∧ q.Holds s (bits ++ [b]) ∧ q.nb = p.nb := by
  have hnbit := hp.nbit
  rw [List.length_append, List.length_singleton] at hroom
  by_cases h7 : bits.length % 8 = 7
  · have hlen : p.st.outLen.toNat < p.st.caps.outCap := by
      rw [hp.st, putAll_outLen hs (by rw [fullBytes_length]; omega), putAll_caps, fullBytes_length]
      omega
    have hp7 : p.nbit = 7 := BitVec.eq_of_toNat_eq (by rw [hnbit, h7]; rfl)
    rw [putBit_full hp7, emit_of_lt hlen, hnbit, hp.acc, ← byteAt_snoc]
    refine ⟨_, rfl, ⟨?_, ?_, ?_⟩, rfl⟩
    · rw [List.length_append, List.length_singleton]
      show 0 = _
      omega
    · exact (byteAt_of_ge (by rw [List.length_append, List.length_singleton]; omega)).symm
    · rw [fullBytes_snoc, if_pos h7, putAll_append, ← hp.st]
      rfl
  · have hp7 : p.nbit ≠ 7 := fun h => h7 (by rw [← hnbit, h]; rfl)
    have hdiv : (bits.length + 1) / 8 = bits.length / 8 := by omega
    rw [putBit_held hp7, hnbit, hp.acc, ← byteAt_snoc]
    refine ⟨_, rfl, ⟨?_, ?_, ?_⟩, rfl⟩
    · have h1 : (p.nbit + 1).toNat = (p.nbit.toNat + 1) % 8 := BitVec.toNat_add _ _
      rw [List.length_append, List.length_singleton]
      show (p.nbit + 1).toNat = _
      omega
    · rw [List.length_append, List.length_singleton, hdiv]
    · rw [fullBytes_snoc, if_neg h7, ← hp.st]

theorem Packer.Holds.putBit_of_no_room (b : Bool) (hfits : s.outLen.toNat + bits.length / 8 ≤ s.caps.outCap)
    (hroom : s.caps.outCap < s.outLen.toNat + (bits ++ [b]).length / 8) : p.putBit b = .error (.raise .outFull) := by
  rw [List.length_append, List.length_singleton] at hroom
  have h7 : bits.length % 8 = 7 := by omega
  have hp7 : p.nbit = 7 := BitVec.eq_of_toNat_eq (by rw [hp.nbit, h7]; rfl)
  have hfull : p.st.outLen.toNat = p.st.caps.outCap := by
    rw [hp.st, putAll_outLen hs (by rw [fullBytes_length]; omega), putAll_caps, fullBytes_length]
    omega
  rw [putBit_full hp7, emit_of_full hfull, run_error_bind]

/-- Bits put one by one, each counted `c` times in `nb`: 1 for the bits of codes, 0 for pad bits. -/
theorem Packer.Holds.putBits_of_room {f : Packer → Bool → Run Packer} {c : Nat}
    (hf : ∀ p b, f p b = (p.putBit b).map fun q => { q with nb := q.nb + c }) (l : BitString)
    (hroom : s.outLen.toNat + (bits ++ l).length / 8 ≤ s.caps.outCap) :
    ∃ q, l.foldlM f p = .ok q ∧ q.Holds s (bits ++ l) ∧ q.nb = p.nb + c * l.length := by
  induction l generalizing p bits with
  | nil => exact ⟨p, rfl, (List.append_nil bits).symm ▸ hp, rfl⟩
  | cons b l ih =>
    rw [List.append_cons] at hroom ⊢
    have hfirst : s.outLen.toNat + (bits ++ [b]).length / 8 ≤ s.caps.outCap := by
      rw [List.length_append] at hroom
      omega
    obtain ⟨q, hq, hq', hnb⟩ := hp.putBit_of_room hs b hfirst
    obtain ⟨r, hr, hr', hnb'⟩ := ih (p := { q with nb := q.nb + c }) ⟨hq'.nbit, hq'.acc, hq'.st⟩ hroom
    rw [List.foldlM_cons, hf, hq]
    refine ⟨r, hr, hr', hnb'.trans ?_⟩
    rw [List.length_cons, Nat.mul_succ, ← hnb]
    show q.nb + c + _ = _
    omega

theorem Packer.Holds.putBits_of_no_room {f : Packer → Bool → Run Packer} {c : Nat}
    (hf : ∀ p b, f p b = (p.putBit b).map fun q => { q with nb := q.nb + c }) (l : BitString)
    (hfits : s.outLen.toNat + bits.length / 8 ≤ s.caps.outCap)
    (hroom : s.caps.outCap < s.outLen.toNat + (bits ++ l).length / 8) : l.foldlM f p = .error (.raise .outFull) := by
  induction l generalizing p bits with
  | nil =>
    rw [List.append_nil] at hroom
    omega
  | cons b l ih =>
    rw [List.append_cons] at hroom
    rw [List.foldlM_cons, hf]
    by_cases hfirst : s.outLen.toNat + (bits ++ [b]).length / 8 ≤ s.caps.outCap
    · obtain ⟨q, hq, hq', -⟩ := hp.putBit_of_room hs b hfirst
      rw [hq]
      exact ih (p := { q with nb := q.nb + c }) ⟨hq'.nbit, hq'.acc, hq'.st⟩ hfirst hroom
    · rw [hp.putBit_of_no_room hs b hfits (Nat.lt_of_not_le hfirst)]
      rfl

end

theorem putCodeBit_eq (p : Packer) (b : Bool) : p.putCodeBit b = (p.putBit b).map fun q => { q with nb := q.nb + 1 } := by
  rw [Packer.putCodeBit]
  cases p.putBit b <;> rfl

theorem putBit_eq (p : Packer) (b : Bool) : p.putBit b = (p.putBit b).map fun q => { q with nb := q.nb + 0 } := by
  cases p.putBit b <;> rfl

/-! ## Codes -/

/-- What `PACK` reads of a code while it stores is what stood in the table at its start. -/
theorem Packer.Holds.putCode_eq {p : Packer} {s : State} {bits : BitString} (hp : p.Holds s bits) (hfit : s.CodesFit)
    (x : Byte) :
    p.putCode x = if s.codeLenAt x = 0 then .error (.raise .noCode) else (codeString s x).foldlM Packer.putCodeBit p := by
  obtain ⟨n, b, hput⟩ := putAll_writes (fullBytes bits) s
  have hst := hp.st.trans hput
  have hlen : p.st.codeLenAt x = s.codeLenAt x := by rw [hst]; rfl
  have hbits : p.st.codeBits x = codeString s x := by
    rw [codeString, ← codeBits_eq (hfit x), hst]
    rfl
  rw [Machine.putCode_eq, hlen, hbits]

section
variable {s : State} (hs : s.OutOk) (hfit : s.CodesFit) {p : Packer} {bits : BitString} (hp : p.Holds s bits)
  {xs : List Byte} (hxs : ∀ x ∈ xs, s.codeLenAt x ≠ 0)
include hs hfit hp hxs

theorem Packer.Holds.putCodes_of_room (hroom : s.outLen.toNat + (bits ++ encodeAll s xs).length / 8 ≤ s.caps.outCap) :
    ∃ q, xs.foldlM Packer.putCode p = .ok q ∧ q.Holds s (bits ++ encodeAll s xs) ∧
      q.nb = p.nb + (encodeAll s xs).length := by
  induction xs generalizing p bits with
  | nil => exact ⟨p, rfl, (List.append_nil bits).symm ▸ hp, rfl⟩
  | cons x xs ih =>
    have hsplit : encodeAll s (x :: xs) = codeString s x ++ encodeAll s xs := List.flatMap_cons
    rw [hsplit, ← List.append_assoc] at hroom ⊢
    have hfirst : s.outLen.toNat + (bits ++ codeString s x).length / 8 ≤ s.caps.outCap := by
      rw [List.length_append] at hroom
      omega
    obtain ⟨q, hq, hq', hnb⟩ := hp.putBits_of_room hs putCodeBit_eq (codeString s x) hfirst
    obtain ⟨r, hr, hr', hnb'⟩ := ih hq' (fun y hy => hxs y (List.mem_cons_of_mem x hy)) hroom
    rw [List.foldlM_cons, hp.putCode_eq hfit, if_neg (hxs x List.mem_cons_self), hq]
    refine ⟨r, hr, hr', ?_⟩
    rw [hnb', hnb, Nat.one_mul, List.length_append, Nat.add_assoc]

theorem Packer.Holds.putCodes_of_no_room (hfits : s.outLen.toNat + bits.length / 8 ≤ s.caps.outCap)
    (hroom : s.caps.outCap < s.outLen.toNat + (bits ++ encodeAll s xs).length / 8) (r : List Byte) :
    (xs ++ r).foldlM Packer.putCode p = .error (.raise .outFull) := by
  induction xs generalizing p bits with
  | nil =>
    rw [show encodeAll s [] = [] from rfl, List.append_nil] at hroom
    omega
  | cons x xs ih =>
    have hsplit : encodeAll s (x :: xs) = codeString s x ++ encodeAll s xs := List.flatMap_cons
    rw [hsplit, ← List.append_assoc] at hroom
    rw [List.cons_append, List.foldlM_cons, hp.putCode_eq hfit, if_neg (hxs x List.mem_cons_self)]
    by_cases hfirst : s.outLen.toNat + (bits ++ codeString s x).length / 8 ≤ s.caps.outCap
    · obtain ⟨q, hq, hq', -⟩ := hp.putBits_of_room hs putCodeBit_eq (codeString s x) hfirst
      rw [hq]
      exact ih hq' (fun y hy => hxs y (List.mem_cons_of_mem x hy)) hfirst hroom
    · rw [hp.putBits_of_no_room hs putCodeBit_eq _ hfits (Nat.lt_of_not_le hfirst)]
      rfl

end

/-! ## `PACK` -/

section
variable {s : State} (hs : s.OutOk) (hfit : s.CodesFit) (hcode : s.codeV = true) (hcap : s.inLen.toNat ≤ s.caps.inCap)

/-- Past its checks `PACK` puts the codes, then the pad bits (block P1). -/
theorem packBody_of_checks (hcode : s.codeV = true) (hcap : s.inLen.toNat ≤ s.caps.inCap) :
    packBody s = (s.inputBytes.foldlM Packer.putCode { acc := 0, nbit := 0, nb := 0, st := s } >>= fun p =>
      (List.replicate (padCount p.nb).toNat false).foldlM Packer.putBit p >>= fun q =>
        .ok (q.st.withPad (padCount p.nb)).flagsHdrw) := by
  rw [packBody, hcode, requireInLen_of_le hcap]
  rfl

include hs hfit hcode hcap

theorem packBody_of_room (hxs : ∀ x ∈ s.inputBytes, s.codeLenAt x ≠ 0)
    (hroom : s.outLen.toNat + ((encodeAll s s.inputBytes).length + 7) / 8 ≤ s.caps.outCap) :
    packBody s = .ok ((s.putAll (payload (encodeAll s s.inputBytes))).withPad
      (padCount (encodeAll s s.inputBytes).length)).flagsHdrw := by
  obtain ⟨p, hp, hp', hnb⟩ := (holds_start s).putCodes_of_room hs hfit hxs (by rw [List.nil_append]; omega)
  have hnb : p.nb = (encodeAll s s.inputBytes).length := hnb.trans (Nat.zero_add _)
  rw [List.nil_append] at hp'
  have hpad := padCount_toNat (encodeAll s s.inputBytes).length
  obtain ⟨q, hq, hq', -⟩ := hp'.putBits_of_room hs putBit_eq (List.replicate (padOf (encodeAll s s.inputBytes).length) false)
    (by rw [List.length_append, List.length_replicate, padded_div]; exact hroom)
  rw [packBody_of_checks hcode hcap, hp, run_ok_bind, hnb, hpad]
  rw [padOf] at hq
  rw [hq, run_ok_bind, hq'.st, payload_eq_fullBytes]

theorem packBody_noCode {l r : List Byte} {x : Byte} (hinput : s.inputBytes = l ++ x :: r)
    (hl : ∀ y ∈ l, s.codeLenAt y ≠ 0) (hx : s.codeLenAt x = 0)
    (hroom : s.outLen.toNat + (encodeAll s l).length / 8 ≤ s.caps.outCap) :
    packBody s = .error (.raise .noCode) := by
  obtain ⟨p, hp, hp', -⟩ := (holds_start s).putCodes_of_room hs hfit hl (by rwa [List.nil_append])
  rw [packBody_of_checks hcode hcap, hinput, List.foldlM_append, hp, run_ok_bind, List.foldlM_cons, hp'.putCode_eq hfit,
    if_pos hx]
  rfl

/-- The codes of the first bytes have no room (R97, R99). -/
theorem packBody_outFull {l r : List Byte} (hinput : s.inputBytes = l ++ r) (hl : ∀ y ∈ l, s.codeLenAt y ≠ 0)
    (hroom : s.caps.outCap < s.outLen.toNat + (encodeAll s l).length / 8) : packBody s = .error (.raise .outFull) := by
  rw [packBody_of_checks hcode hcap, hinput, (holds_start s).putCodes_of_no_room hs hfit hl hs.outFits
    (by rwa [List.nil_append])]
  rfl

/-- The payload has no room, its last byte counted whole. -/
theorem packBody_outFull_padded (hxs : ∀ x ∈ s.inputBytes, s.codeLenAt x ≠ 0)
    (hroom : s.caps.outCap < s.outLen.toNat + ((encodeAll s s.inputBytes).length + 7) / 8) :
    packBody s = .error (.raise .outFull) := by
  by_cases hcodes : s.outLen.toNat + (encodeAll s s.inputBytes).length / 8 ≤ s.caps.outCap
  · obtain ⟨p, hp, hp', hnb⟩ := (holds_start s).putCodes_of_room hs hfit hxs (by rwa [List.nil_append])
    have hnb : p.nb = (encodeAll s s.inputBytes).length := hnb.trans (Nat.zero_add _)
    rw [List.nil_append] at hp'
    have hfull := hp'.putBits_of_no_room hs putBit_eq (List.replicate (padOf (encodeAll s s.inputBytes).length) false)
      hcodes (by rwa [List.length_append, List.length_replicate, padded_div])
    rw [padOf] at hfull
    rw [packBody_of_checks hcode hcap, hp, run_ok_bind, hnb, padCount_toNat, hfull]
    rfl
  · exact packBody_outFull hs hfit hcode hcap (List.append_nil _).symm hxs (Nat.lt_of_not_le hcodes)

end

end Sys2Proof.Machine

namespace Sys2Proof
open Sys2Proof.Machine Sys2Proof.Claims

/-- Settles O40: the packer holds the bits it has taken as whole bytes in `OUT` and a rest, which the pad bits complete. -/
theorem packAppendsThePayload : Obligations.PackAppendsThePayload := by
  intro s hready hb hfit hcode hcap hxs hroom
  have hs : (s.accept (encode .pack)).OutOk := hb.outOk.congr rfl rfl rfl
  have hbody := packBody_of_room hs hfit hcode hcap hxs hroom
  obtain ⟨-, hbytes⟩ := putAll_outOk hs (l := payload (encodeAll s s.inputBytes)) (by rw [payload_length]; exact hroom)
  have hlen := putAll_outLen hs (l := payload (encodeAll s s.inputBytes)) (by rw [payload_length]; exact hroom)
  rw [payload_length] at hlen
  obtain ⟨n, b, hput⟩ := putAll_writes (payload (encodeAll s s.inputBytes)) (s.accept (encode .pack))
  have hexec := command_ok hready hbody
  rw [show encodeAll (s.accept (encode .pack)) (s.accept (encode .pack)).inputBytes = encodeAll s s.inputBytes from rfl,
    hput] at hexec
  rw [hput] at hbytes hlen
  exact ⟨_, hexec, ⟨rfl, rfl, rfl, rfl⟩, ⟨rfl, rfl, rfl, rfl⟩, hbytes, hlen, padCount_toNat _⟩

/-- Settles O41: the codes before the byte are put, and its own is met. -/
theorem packRaisesNoCode : Obligations.PackRaisesNoCode := by
  intro s l r x hready hb hfit hcode hcap hinput hl hx hroom
  exact command_raise hready (packBody_noCode (s := s.accept (encode .pack)) (hb.outOk.congr rfl rfl rfl) hfit hcode hcap
    hinput hl hx hroom)

/-- Settles O42: a bit that completes a byte meets a full `OUT`, among the codes or among the pad bits. -/
theorem packRaisesOutFull : Obligations.PackRaisesOutFull := by
  intro s hready hb hfit hcode hcap
  have hs : (s.accept (encode .pack)).OutOk := hb.outOk.congr rfl rfl rfl
  exact ⟨fun l r hinput hl hroom => command_raise hready (packBody_outFull hs hfit hcode hcap hinput hl hroom),
    fun hxs hroom => command_raise hready (packBody_outFull_padded hs hfit hcode hcap hxs hroom)⟩

end Sys2Proof
end

section
/-!
PROOF. The composite commands (45_control_and_composite.md R89, R90): `COMPRESS` writes header and payload, `DECOMPRESS`
recovers what they encode, and the round trip (R112).
-/
namespace Sys2Proof.Machine
open Sys2Proof.Claims

/-! ## States that hold the tree and the codes of their frequency table -/

/-- The arena is a result of merging the present leaves, and the code table is that of its tree. -/
structure State.IsHuffman (s : State) : Prop where
  built : ∃ q, s.IsBuilt q
  coded : ∃ T, s.IsCoded T

theorem State.IsCoded.congr {s t : State} {T : CodeTree} (h : s.IsCoded T) (hl : t.left = s.left) (hr : t.right = s.right)
    (hroot : t.root = s.root) (hn : t.nint = s.nint) (hf : t.freq = s.freq) (hlen : t.codeLen = s.codeLen)
    (hcode : t.code = s.code) (hbits : t.lbits = s.lbits) : t.IsCoded T := by
  refine ⟨h.tree.congr hl hr hroot hn hf, h.made, fun x => ?_, fun x => ?_, ?_⟩
  · rw [codeString, hcode]
    exact h.codes x
  · rw [State.codeLenAt, hlen, hcode]
    exact h.fits x
  · rw [hbits, h.lbits]
    simp only [State.freqNat, hf]

theorem State.IsHuffman.congr {s t : State} (h : s.IsHuffman) (hf : t.freq = s.freq) (hw : t.weight = s.weight)
    (hl : t.left = s.left) (hr : t.right = s.right) (hn : t.nint = s.nint) (hroot : t.root = s.root)
    (hlen : t.codeLen = s.codeLen) (hcode : t.code = s.code) (hbits : t.lbits = s.lbits) : t.IsHuffman := by
  obtain ⟨⟨q, hq⟩, T, hT⟩ := h
  exact ⟨⟨q, hq.congr hf hw hl hr hn hroot⟩, T, hT.congr hl hr hroot hn hf hlen hcode hbits⟩

theorem State.Inv.isHuffman {s : State} (hi : s.Inv) (hc : s.codeV = true) : s.IsHuffman := by
  obtain ⟨T, hT, -⟩ := hi.exists_isCoded hc
  exact ⟨hi.treeBuilt.isBuilt (hi.flags.codeTree hc), T, hT⟩

/-- Where the arenas agree on the first `n` merges, they hold the same trees of those. -/
theorem spans_congr_below {s t : State} {n : Nat} (hl : ∀ k, k < n → leftOf t k = leftOf s k)
    (hr : ∀ k, k < n → rightOf t k = rightOf s k) {T : CodeTree} (hn : T.madeIn n) {id : NodeId} (h : s.spans T id) :
    t.spans T id := by
  induction T generalizing id n with
  | leaf x => exact h
  | node k l r ihl ihr =>
    obtain ⟨hk, hml, hmr⟩ := hn
    obtain ⟨hid, hsl, hsr⟩ := h
    refine ⟨hid, ?_, ?_⟩
    · rw [hl k hk]
      exact ihl (fun i hi => hl i (hi.trans hk)) (fun i hi => hr i (hi.trans hk)) hml hsl
    · rw [hr k hk]
      exact ihr (fun i hi => hl i (hi.trans hk)) (fun i hi => hr i (hi.trans hk)) hmr hsr

/-- A node has one tree. -/
theorem spans_unique {s : State} {T U : CodeTree} {id : NodeId} {n : Nat} (hT : s.spans T id) (hU : s.spans U id)
    (hmT : T.madeIn n) (hmU : U.madeIn n) (hn : n ≤ 255) : T = U := by
  have hleaf {x : Byte} {k : Nat} (hk : k < 255) : leafOf x ≠ internal k := fun h => by
    have := congrArg BitVec.toNat h
    have hx := x.isLt
    rw [leafOf_toNat, internal_toNat (by omega)] at this
    omega
  induction T generalizing U id n with
  | leaf x =>
    cases U with
    | leaf y => rw [leafOf_injective ((show id = leafOf x from hT).symm.trans (show id = leafOf y from hU))]
    | node k l r => exact absurd ((show id = leafOf x from hT).symm.trans hU.1) (hleaf (hmU.1.trans_le hn))
  | node k l r ihl ihr =>
    cases U with
    | leaf y => exact absurd ((show id = leafOf y from hU).symm.trans hT.1) (hleaf (hmT.1.trans_le hn))
    | node k' l' r' =>
      obtain ⟨hk, hml, hmr⟩ := hmT
      obtain ⟨hk', hml', hmr'⟩ := hmU
      obtain ⟨hid, hsl, hsr⟩ := hT
      obtain ⟨hid', hsl', hsr'⟩ := hU
      obtain rfl : k = k' := by
        have := congrArg BitVec.toNat (hid.symm.trans hid')
        rw [internal_toNat (by omega), internal_toNat (by omega)] at this
        omega
      rw [ihl hsl hsl' hml hml' (by omega), ihr hsr hsr' hmr hmr' (by omega)]

/-- The code table is a function of the frequency table (R68, R70). -/
theorem State.IsHuffman.codes_eq {s t : State} (hs : s.IsHuffman) (ht : t.IsHuffman) (hf : s.freq = t.freq) :
    t.code = s.code ∧ t.codeLen = s.codeLen ∧ t.lbits = s.lbits := by
  obtain ⟨⟨q, hq⟩, T, hT⟩ := hs
  obtain ⟨⟨r, hr⟩, U, hU⟩ := ht
  obtain ⟨hnint, hroot, hsame⟩ := sameMerges_of_freq hq hr hf
  have hT' : t.spans T t.root := hroot ▸ spans_congr_below (fun k hk => (hsame.left k hk).symm)
    (fun k hk => (hsame.right k hk).symm) hT.tree.madeIn hT.tree.spans
  obtain rfl := spans_unique hT' hU.tree.spans hT.made hU.made le_rfl
  obtain ⟨hcode, hlen⟩ := hT.tables_eq hU
  refine ⟨hcode, hlen, BitVec.eq_of_toNat_eq ?_⟩
  rw [hT.lbits, hU.lbits]
  simp only [State.freqNat, hf]

/-- What `BUILD` then `GEN` write. -/
theorem buildBody_genBody_writes {s t u : State} (ht : buildBody s = .ok t) (hu : genBody t = .ok u) :
    ∃ w l r q k m a c n, u = { s with
      weight := w, left := l, right := r, inq := q, nint := k, root := m, treeV := true
      codeLen := a, code := c, lbits := n, codeV := true } := by
  obtain ⟨-, -, _, _, _, _, _, _, rfl⟩ := buildBody_writes ht
  obtain ⟨-, _, _, _, rfl⟩ := genBody_writes hu
  exact ⟨_, _, _, _, _, _, _, _, _, rfl⟩

/-- `BUILD` then `GEN`, on a table with an alphabet (R89, R90). -/
theorem buildBody_genBody {s : State} (hf : s.freqV = true) (hn : s.nsym = nsymOf s.freq) (hne : s.nsym ≠ 0) :
    ∃ t u, buildBody s = .ok t ∧ genBody t = .ok u ∧ u.IsHuffman ∧
      u.lbits.toNat ≤ 8 * ((alphabetOf u.freq).map u.freqNat).sum := by
  obtain ⟨t, q, ht, hq⟩ := buildBody_of_alphabet hf hne (alphabet_of_nsym hn hne)
  obtain ⟨-, -, _, _, _, _, _, _, hwrites⟩ := buildBody_writes ht
  have htree : t.treeV = true := by rw [hwrites]
  obtain ⟨T, hT, hcost⟩ := hq.hasTree
  have hmade := CodeTree.madeIn_mono hT.madeIn hq.nint_le
  obtain ⟨u, hu, -⟩ := genBody_spans htree hT.spans hmade
  have hcoded := genBody_isCoded hT hmade hu
  refine ⟨t, u, ht, hu, ?_⟩
  obtain ⟨-, a, c, n, rfl⟩ := genBody_writes hu
  have hq' : State.IsBuilt { t with codeLen := a, code := c, lbits := n, codeV := true } q := hq.congr rfl rfl rfl rfl rfl rfl
  exact ⟨⟨⟨q, hq'⟩, T, hcoded⟩, hq'.lbits_le hcost hcoded⟩

/-! ## `COMPRESS` -/

/-- The codes of the bytes of a list, counted symbol by symbol. -/
theorem encodeAll_length {s : State} {l : List Byte} (hl : l.length < 2 ^ 32) (hfreq : s.freq = countBytes l) :
    (encodeAll s l).length = ((alphabetOf s.freq).map fun x => s.freqNat x * (codeString s x).length).sum := by
  have hset : (alphabetOf s.freq).toFinset = l.toFinset := by
    ext x
    rw [List.mem_toFinset, List.mem_toFinset, hfreq, mem_alphabetOf_countBytes hl]
  rw [← List.sum_toFinset _ (alphabetOf_nodup _), hset, encodeAll, List.length_flatMap, Finset.sum_list_map_count]
  refine Finset.sum_congr rfl fun x _ => ?_
  rw [State.freqNat, hfreq, freqAt_countBytes_toNat hl]
  rfl

theorem sum_freqNat {s : State} {l : List Byte} (hl : l.length < 2 ^ 32) (hfreq : s.freq = countBytes l) :
    ((alphabetOf s.freq).map s.freqNat).sum = l.length := by
  rw [← sum_countBytes hl, sum_table, ← hfreq]

/-- `LBITS` is the length of the codes of the bytes counted (R70). -/
theorem State.IsCoded.lbits_eq_encodeAll {s : State} {T : CodeTree} (h : s.IsCoded T) {l : List Byte} (hl : l.length < 2 ^ 32)
    (hfreq : s.freq = countBytes l) : s.lbits.toNat = (encodeAll s l).length := by
  rw [encodeAll_length hl hfreq, h.lbits]
  simp only [h.codes]

theorem State.IsCoded.codeLenAt_ne_zero {s : State} {T : CodeTree} (h : s.IsCoded T) {x : Byte} (hx : freqAt s.freq x ≠ 0) :
    s.codeLenAt x ≠ 0 := fun h0 => by
  have hpos := h.code_pos hx
  rw [codeString, h.fits x, h0] at hpos
  exact absurd hpos (by decide)

/-- What `COMPRESS` leaves of the input of `s` (R89). -/
structure State.Compressed (s t : State) : Prop where
  huffman : t.IsHuffman
  freq : t.freq = countBytes s.inputBytes
  nsym : t.nsym = nsymOf t.freq
  lbits : t.lbits.toNat = (encodeAll t s.inputBytes).length
  pad : t.pad = padCount t.lbits.toNat
  out : t.outputBytes = headerBytes t.freq t.nsym t.pad ++ payload (encodeAll t s.inputBytes)

/-- `HDRW` then `PACK`, where the codes are those of the input (R89). -/
theorem hdrwBody_packBody {s : State} (hcaps : s.caps.ok) (hcap : s.inLen.toNat ≤ s.caps.inCap) (hcode : s.codeV = true)
    (hs : s.IsHuffman) (hn : s.nsym = nsymOf s.freq) (hfreq : s.freq = countBytes s.inputBytes)
    (hle : s.lbits.toNat ≤ 8 * ((alphabetOf s.freq).map s.freqNat).sum) : ∃ t, hdrwBody s = .ok t ∧
      ((∃ u, packBody t = .ok u ∧ s.Compressed u) ∨
        (packBody t = .error (.raise .outFull) ∧ s.caps.outCap < s.inLen.toNat + 1285)) := by
  have hl := inputBytes_length_lt s
  obtain ⟨T, hT⟩ := hs.coded
  have hlbits := hT.lbits_eq_encodeAll hl hfreq
  rw [sum_freqNat hl hfreq, inputBytes_length] at hle
  have hlens : ∀ x ∈ s.inputBytes, s.codeLenAt x ≠ 0 := fun x hx =>
    hT.codeLenAt_ne_zero ((mem_alphabetOf _ _).mp (hfreq ▸ (mem_alphabetOf_countBytes hl x).mpr hx))
  have hhdrw := (hdrwBody_ok s _).mpr ⟨hcode, rfl⟩
  generalize State.flagsHdrw _ = t at hhdrw
  refine ⟨t, hhdrw, ?_⟩
  obtain ⟨hok, hbytes⟩ := hdrwBody_outOk hcaps hhdrw
  have hkeeps := hdrwBody_keeps hhdrw
  have houtLen : t.outLen.toNat = 5 * (alphabetOf s.freq).length + 5 := by
    rw [← outputBytes_length, hbytes, headerBytes_length]
  have hsize := alphabetOf_length_le s.freq
  have hinput : t.inputBytes = s.inputBytes := hkeeps.inputBytes
  obtain ⟨-, p, n, b, ht⟩ := hdrwBody_writes hhdrw
  have hfit : t.CodesFit := by rw [ht]; exact hT.fits
  have hcode' : t.codeV = true := by rw [ht]; exact hcode
  have hlens' : ∀ x ∈ t.inputBytes, t.codeLenAt x ≠ 0 := by rw [hinput, ht]; exact hlens
  have henc : encodeAll t t.inputBytes = encodeAll s s.inputBytes := by rw [hinput, ht]; rfl
  have hcap' : t.inLen.toNat ≤ t.caps.inCap := by rw [hkeeps.inLen, hkeeps.caps]; exact hcap
  by_cases hroom : t.outLen.toNat + ((encodeAll t t.inputBytes).length + 7) / 8 ≤ t.caps.outCap
  · have hpack := packBody_of_room hok hfit hcode' hcap' hlens' hroom
    obtain ⟨hok', hbytes'⟩ := putAll_outOk hok (l := payload (encodeAll t t.inputBytes)) (by rwa [payload_length])
    obtain ⟨m, c, hput⟩ := putAll_writes (payload (encodeAll t t.inputBytes)) t
    rw [hput] at hpack hbytes'
    rw [hbytes, henc] at hbytes'
    rw [henc, ← hlbits] at hpack
    refine .inl ⟨_, hpack, ?_⟩
    rw [ht]
    refine ⟨hs.congr rfl rfl rfl rfl rfl rfl rfl rfl rfl, hfreq, hn, hlbits, rfl, ?_⟩
    rw [ht] at hbytes'
    exact hbytes'
  · refine .inr ⟨packBody_outFull_padded hok hfit hcode' hcap' hlens' (Nat.lt_of_not_le hroom), ?_⟩
    rw [houtLen, henc, ← hlbits, hkeeps.caps] at hroom
    omega

/-- On an input that is not empty and fits `IN`, `COMPRESS` completes, or raises `CAPACITY` detail 1; it completes where `OUT`
has room for the header and the input. -/
theorem compressBody_cases {s : State} (hcaps : s.caps.ok) (hcap : s.inLen.toNat ≤ s.caps.inCap) (hne : s.inLen ≠ 0) :
    (∃ t, compressBody s = .ok t ∧ s.Compressed t) ∨
      (compressBody s = .error (.raise .outFull) ∧ s.caps.outCap < s.inLen.toNat + 1285) := by
  have hfreq := (freqBody_ok s _).mpr ⟨hcap, rfl⟩
  have hn := fun h0 => hne ((freqBody_nsym hfreq).mp h0)
  obtain ⟨v, w, hv, hw, hhuff, hle⟩ := buildBody_genBody (s := (s.withFreq (countBytes s.inputBytes)).flagsFreq) rfl rfl hn
  have hkeeps := (freqBody_keeps hfreq).trans ((buildBody_keeps hv).trans (genBody_keeps hw))
  have hbody : compressBody s = (hdrwBody w >>= packBody) := by
    rw [compressBody, hfreq, run_ok_bind, if_neg hn, hv, run_ok_bind, hw, run_ok_bind]
  have hinput : w.inputBytes = s.inputBytes := hkeeps.inputBytes
  obtain ⟨_, _, _, _, _, _, _, _, _, hw'⟩ := buildBody_genBody_writes hv hw
  obtain ⟨x, hx, h⟩ := hdrwBody_packBody (s := w) (by rw [hw']; exact hcaps) (by rw [hw']; exact hcap) (by rw [hw']) hhuff
    (by rw [hw']; rfl) (by rw [hinput, hw']; rfl) hle
  rw [hbody, hx, run_ok_bind]
  rcases h with ⟨t, ht, hc⟩ | h
  · exact .inl ⟨t, ht, hc.huffman, hinput ▸ hc.freq, hc.nsym, hinput ▸ hc.lbits, hc.pad, hinput ▸ hc.out⟩
  · rw [hkeeps.caps, hkeeps.inLen] at h
    exact .inr h

/-! ## The payload, read back -/

/-- Binary digits, most significant first. -/
theorem testBit_sum (f : Nat → Bool) {n i : Nat} (hi : i < n) :
    ((List.range n).map fun t => (f t).toNat * 2 ^ (n - 1 - t)).sum.testBit (n - 1 - i) = f i := by
  induction n with
  | zero => omega
  | succ n ih =>
    have hdouble : ((List.range n).map fun t => (f t).toNat * 2 ^ (n + 1 - 1 - t)).sum =
        2 * ((List.range n).map fun t => (f t).toNat * 2 ^ (n - 1 - t)).sum := by
      rw [← List.sum_map_mul_left]
      refine congrArg List.sum (List.map_congr_left fun t ht => ?_)
      have ht := List.mem_range.mp ht
      rw [show n + 1 - 1 - t = n - 1 - t + 1 by omega, pow_succ]
      ring
    have hlast : (f n).toNat * 2 ^ (n + 1 - 1 - n) = (f n).toNat := by simp
    rw [List.range_succ, List.map_append, List.sum_append, List.map_singleton, List.sum_singleton, hdouble, hlast]
    generalize ((List.range n).map fun t => (f t).toNat * 2 ^ (n - 1 - t)).sum = m at ih
    have hbit : 2 * m + (f n).toNat = Nat.bit (f n) m := by cases f n <;> rfl
    rw [hbit]
    rcases Nat.lt_succ_iff_lt_or_eq.mp hi with hi | rfl
    · rw [show n + 1 - 1 - i = (n - 1 - i) + 1 by omega, Nat.testBit_bit_succ]
      exact ih hi
    · rw [Nat.add_sub_cancel, Nat.sub_self, Nat.testBit_bit_zero]

theorem byteAt_testBit (bits : BitString) (k : Nat) {t : Nat} (ht : t < 8) :
    (byteAt bits k).toNat.testBit (7 - t) = bits.getD (8 * k + t) false := by
  have hlt : 7 - t < 8 := by omega
  have hsum := testBit_sum (fun t => bits.getD (8 * k + t) false) ht
  rw [byteAt, BitVec.toNat_ofNat, Nat.testBit_mod_two_pow, decide_eq_true hlt, Bool.true_and]
  exact hsum

theorem inByte_of_holdsAt {s : State} {i : Nat} {l : List Byte} (h : s.holdsAt i l) {k : Nat} (hk : k < l.length) :
    s.inByte (i + k) = l[k] := by
  induction l generalizing i k with
  | nil => exact absurd hk (Nat.not_lt_zero k)
  | cons b l ih =>
    rw [holdsAt_cons] at h
    cases k with
    | zero => exact h.1
    | succ k =>
      rw [List.getElem_cons_succ, ← ih h.2 (Nat.lt_of_succ_lt_succ hk), Nat.add_right_comm, Nat.add_assoc]

/-- A payload of `LBITS` bits in `IN` is read back as the bits it was made of. -/
theorem streamBits_of_payload {s : State} {bits : BitString} (hlen : s.lbits.toNat = bits.length)
    (h : s.holdsAt s.inPos.toNat (payload bits)) : streamBits s = bits := by
  refine List.ext_getElem (by rw [streamBits_length, hlen]) fun j hj hj' => ?_
  have hk : j / 8 < (payload bits).length := by
    rw [payload_length]
    omega
  have hbyte : (payload bits)[j / 8] = byteAt (bits ++ List.replicate (padOf bits.length) false) (j / 8) := by
    simp only [payload_eq_fullBytes, fullBytes, List.getElem_map, List.getElem_range]
  simp only [streamBits, List.getElem_map, List.getElem_range]
  rw [inByte_of_holdsAt h hk, hbyte, byteAt_testBit _ _ (Nat.mod_lt j (by decide)), Nat.div_add_mod,
    List.getD_append _ _ _ _ hj', List.getD_eq_getElem _ _ hj']

/-! ## `DECOMPRESS` -/

theorem State.IsHuffman.alphabet_ne_nil {s : State} (h : s.IsHuffman) : alphabetOf s.freq ≠ [] := fun he => by
  obtain ⟨⟨q, hq⟩, -⟩ := h
  have := hq.nint
  rw [he] at this
  exact absurd this (by simp)

/-- `IN` holds the header of the alphabet of `g`, then the payload of `xs` under the codes of `g`. -/
structure State.Streams (s g : State) (xs : List Byte) : Prop where
  huffman : g.IsHuffman
  symbols : ∀ x ∈ xs, freqAt g.freq x ≠ 0
  lbits : (encodeAll g xs).length = g.lbits.toNat
  input : s.inputBytes = headerBytes g.freq (nsymOf g.freq) (padCount g.lbits.toNat) ++ payload (encodeAll g xs)

/-- What `DECOMPRESS` leaves of the stream of `xs` (R90). -/
structure State.Decompressed (t g : State) (xs : List Byte) : Prop where
  freq : t.freq = g.freq
  nsym : t.nsym = nsymOf g.freq
  code : t.code = g.code
  out : t.outputBytes = xs

/-- After `HDRP`, `BUILD` and `GEN` the codes are those of `g`, and `UNPACK` decodes the payload. -/
theorem unpackBody_streams {s w g : State} {xs : List Byte} (h : s.Streams g xs) (hw : w.IsHuffman) (hfreq : w.freq = g.freq)
    (hnsym : w.nsym = nsymOf g.freq)
    (hkeeps : s.Keeps w) (hcaps : s.caps.ok) (hcap : s.inLen.toNat ≤ s.caps.inCap) (hroom : xs.length ≤ s.caps.outCap)
    (hcode : w.codeV = true) (hhdr : w.hdrV = true) (hpos : w.inPos.toNat = 5 * (alphabetOf g.freq).length + 5)
    (hpad : w.pad = padCount g.lbits.toNat) :
    ∃ t, unpackBody w = .ok t ∧ t.Decompressed g xs := by
  obtain ⟨hcodes, -, hlbits⟩ := h.huffman.codes_eq hw hfreq.symm
  obtain ⟨T, hT⟩ := hw.coded
  have henc : encodeAll w xs = encodeAll g xs := by
    refine List.flatMap_congr fun x _ => ?_
    rw [codeString, codeString, hcodes]
  have hinput : w.inputBytes = _ := hkeeps.inputBytes.trans h.input
  have hlen : w.inLen.toNat = 5 * (alphabetOf g.freq).length + 5 + (g.lbits.toNat + 7) / 8 := by
    rw [← inputBytes_length, hinput, List.length_append, headerBytes_length, payload_length, h.lbits]
  have hplace : w.holdsAt w.inPos.toNat (payload (encodeAll g xs)) := by
    have hall := holdsAt_inputBytes w
    rw [hinput, holdsAt_append, headerBytes_length, Nat.zero_add, ← hpos] at hall
    exact hall.2
  have hstream : streamBits w = encodeAll w xs := henc ▸ streamBits_of_payload (by rw [hlbits, h.lbits]) hplace
  have hlength : w.payloadLength = w.lbits.toNat := by
    rw [State.payloadLength, hlen, hpos, hpad, padCount_toNat, hlbits]
    omega
  have hcaps' : w.caps.ok := hkeeps.caps ▸ hcaps
  have hroom' : xs.length ≤ w.caps.outCap := hkeeps.caps ▸ hroom
  refine ⟨_, (unpackBody_of_checks hcode hhdr (by rw [hkeeps.inLen, hkeeps.caps]; exact hcap) hlength).trans
    (hT.unpackLoop_codes hcaps' (fun x hx => hfreq ▸ h.symbols x hx) hstream hroom'), ?_, ?_, ?_, ?_⟩
  · obtain ⟨n, b, hput⟩ := putAll_writes xs w.outRestart
    rw [hput]
    exact hfreq
  · obtain ⟨n, b, hput⟩ := putAll_writes xs w.outRestart
    rw [hput]
    exact hnsym
  · obtain ⟨n, b, hput⟩ := putAll_writes xs w.outRestart
    rw [hput]
    exact hcodes
  · exact (putAll_outOk (outRestart_outOk hcaps') ((Nat.zero_add _).trans_le hroom')).2

theorem decompressBody_streams {s g : State} {xs : List Byte} (h : s.Streams g xs) (hcaps : s.caps.ok)
    (hcap : s.inLen.toNat ≤ s.caps.inCap) (hroom : xs.length ≤ s.caps.outCap) :
    ∃ t, decompressBody s = .ok t ∧ t.Decompressed g xs := by
  have hne := List.length_pos_iff.mpr h.huffman.alphabet_ne_nil
  have hle := alphabetOf_length_le g.freq
  have hhdrp := hdrpBody_of_parseStream hcap (parseStream_headerBytes h.input)
  generalize hu : (s.withHeader g.freq (alphabetOf g.freq).length (padCount g.lbits.toNat)
    (5 * (alphabetOf g.freq).length + 5)).flagsHdrp = u at hhdrp
  have hnsym : u.nsym = nsymOf u.freq := by rw [← hu]; rfl
  have hn : u.nsym ≠ 0 := fun h0 => by
    rw [hnsym, ← BitVec.toNat_inj, nsymOf_toNat, ← hu] at h0
    exact absurd h0 hne.ne'
  obtain ⟨v, w, hv, hw, hhuff, -⟩ := buildBody_genBody (by rw [← hu]; rfl) hnsym hn
  have hkeeps := (hdrpBody_keeps hhdrp).trans ((buildBody_keeps hv).trans (genBody_keeps hw))
  obtain ⟨_, _, _, _, _, _, _, _, _, hw'⟩ := buildBody_genBody_writes hv hw
  obtain ⟨t, ht, hd⟩ := unpackBody_streams h hhuff (by rw [hw', ← hu]; rfl) (by rw [hw', ← hu]; rfl) hkeeps hcaps hcap hroom
    (by rw [hw']) (by rw [hw', ← hu]; rfl)
    (by rw [hw', ← hu]; exact Nat.mod_eq_of_lt (show 5 * (alphabetOf g.freq).length + 5 < 2 ^ 32 by omega))
    (by rw [hw', ← hu]; rfl)
  exact ⟨t, (decompressBody_ok s t).mpr ⟨u, hhdrp, .inr ⟨hn, v, hv, w, hw, ht⟩⟩, hd⟩

end Sys2Proof.Machine

namespace Sys2Proof
open Sys2Proof.Machine Sys2Proof.Claims

/-- The statements' account of a completed `COMPRESS`. -/
theorem compressedFrom_of_compressed {s t : State} (hne : s.inLen ≠ 0)
    (h : compressBody (s.accept (encode .compress)) = .ok t) (hc : s.Compressed t) : compressedFrom s t.complete := by
  have hl := inputBytes_length_lt s
  have hflags := compressBody_flags h
  rw [if_neg (show ¬ (s.accept (encode .compress)).inLen = 0 from hne)] at hflags
  have hpad := padCount_toNat t.lbits.toNat
  refine ⟨⟨rfl, rfl, rfl, (compressBody_keeps h).cmd⟩, hflags, fun x => ?_, hc.lbits, ?_, ?_, ?_⟩
  · show (freqAt t.freq x).toNat = _
    rw [hc.freq, freqAt_countBytes_toNat hl]
  · show t.pad.toNat = _
    rw [hc.pad, hpad]
    rfl
  · show t.outputBytes = _
    rw [hc.out, hc.pad, hc.nsym, headerBytes_eq_header, padCount_setWidth]
    rfl
  · show t.outLen.toNat = 5 * t.nsym.toNat + 5 + (t.lbits.toNat + 7) / 8
    rw [← outputBytes_length, hc.out, List.length_append, headerBytes_length, payload_length, hc.lbits, hc.nsym, nsymOf_toNat]

/-- Settles O49: the parts of `COMPRESS` compute the counts, the tree of the counts, its codes, the header and the payload. -/
theorem compressWritesHeaderAndPayload : Obligations.CompressWritesHeaderAndPayload := by
  intro s hready hcaps hpos
  have hne : s.inLen ≠ 0 := fun h0 => by
    rw [h0] at hpos
    exact absurd hpos (Nat.lt_irrefl 0)
  refine ⟨fun t h hdone => ?_, fun hcap hroom => ?_⟩
  · obtain ⟨u, hu, rfl⟩ := command_next_ready h (by simp [hdone])
    obtain ⟨v, hv, -⟩ := (compressBody_ok _ _).mp hu
    have hcap := ((freqBody_ok _ _).mp hv).1
    rcases compressBody_cases (s := s.accept (encode .compress)) hcaps hcap hne with ⟨t, ht, hc⟩ | ⟨herr, -⟩
    · obtain rfl := Except.ok.inj (ht.symm.trans hu)
      exact compressedFrom_of_compressed hne ht ⟨hc.huffman, hc.freq, hc.nsym, hc.lbits, hc.pad, hc.out⟩
    · cases herr.symm.trans hu
  · rcases compressBody_cases (s := s.accept (encode .compress)) hcaps hcap hne with ⟨t, ht, hc⟩ | ⟨-, hfull⟩
    · exact ⟨_, command_ok hready ht,
        compressedFrom_of_compressed hne ht ⟨hc.huffman, hc.freq, hc.nsym, hc.lbits, hc.pad, hc.out⟩⟩
    · have hfull : s.caps.outCap < s.inLen.toNat + 1285 := hfull
      omega

/-- Settles O50: every input byte has a code, so only the room for the payload can fail, whose length the bound of O34 limits. -/
theorem compressCompletesWithRoom : Obligations.CompressCompletesWithRoom := by
  intro s hready hcaps hcap
  by_cases hne : s.inLen = 0
  · obtain ⟨t, ht, hdone, -⟩ := compressOfTheEmptyInput s hready hne
    exact ⟨t, ht, .inl hdone, fun _ => hdone⟩
  rcases compressBody_cases (s := s.accept (encode .compress)) hcaps hcap hne with ⟨t, ht, -⟩ | ⟨herr, hfull⟩
  · have hdone : completed .compress t.complete := ⟨rfl, rfl, rfl, (compressBody_keeps ht).cmd⟩
    exact ⟨_, command_ok hready ht, .inl hdone, fun _ => hdone⟩
  · have hfull : s.caps.outCap < s.inLen.toNat + 1285 := hfull
    exact ⟨_, command_raise hready herr, .inr rfl, fun hroom => by omega⟩

/-- Settles O53: the header gives the alphabet, which has one tree and one code table, and the payload is decoded with it. -/
theorem decompressDecodesAnEncodedStream : Obligations.DecompressDecodesAnEncodedStream := by
  intro s g xs hready hcap hcaps hi hcode hxs hlen hroom hinput
  have hstream : State.Streams (s.accept (encode .decompress)) g xs :=
    ⟨hi.isHuffman hcode, hxs, hlen, by rw [headerBytes_eq_header, padCount_setWidth]; exact hinput⟩
  obtain ⟨t, ht, hd⟩ := decompressBody_streams hstream hcaps hcap hroom
  have hflags := decompressBody_flags ht
  have hn : t.nsym ≠ 0 := fun h0 => by
    rw [hd.nsym, ← BitVec.toNat_inj, nsymOf_toNat] at h0
    exact (List.length_pos_iff.mpr hstream.huffman.alphabet_ne_nil).ne' h0
  rw [if_neg hn] at hflags
  exact ⟨_, command_ok hready ht, ⟨rfl, rfl, rfl, (decompressBody_keeps ht).cmd⟩, hflags, hd.out, hd.freq, hd.code⟩

/-- Settles O56: the output of `COMPRESS` is a stream of its input (O49), which `DECOMPRESS` decodes (O53); of the empty input,
the empty stream. -/
theorem roundTrip : Obligations.RoundTrip := by
  intro s t u hready hcaps hcap h hdone hready' hcaps' hroom hlen hcap' hinput
  by_cases hne : s.inLen = 0
  · obtain ⟨t', ht', -, -, hout, -, -, -, -⟩ := compressOfTheEmptyInput s hready hne
    obtain rfl : t = t' := by
      rw [h] at ht'
      exact Host.Outcome.next.inj ht'
    obtain ⟨v, hv, hvdone, -, -, -, hbytes⟩ := decompressOfTheEmptyAlphabet u hready' hcap' (.inl (hlen.trans hout))
    refine ⟨v, hv, hvdone, hbytes.trans ?_⟩
    exact (List.length_eq_zero_iff.mp (by rw [inputBytes_length, hne]; rfl)).symm
  obtain ⟨w, hw, rfl⟩ := command_next_ready h (by simp [hdone])
  rcases compressBody_cases (s := s.accept (encode .compress)) hcaps hcap hne with ⟨t, ht, hc⟩ | ⟨herr, -⟩
  · obtain rfl := Except.ok.inj (ht.symm.trans hw)
    have hsymbols : ∀ x ∈ s.inputBytes, freqAt t.freq x ≠ 0 := fun x hx => by
      rw [hc.freq]
      exact (mem_alphabetOf _ _).mp ((mem_alphabetOf_countBytes (inputBytes_length_lt s) x).mpr hx)
    have hstream : State.Streams (u.accept (encode .decompress)) t s.inputBytes :=
      ⟨hc.huffman, hsymbols, hc.lbits.symm, hinput.trans (by rw [← hc.nsym, ← hc.pad]; exact hc.out)⟩
    obtain ⟨v, hv, hd⟩ := decompressBody_streams hstream (hcaps'.symm ▸ hcaps) hcap'
      (by rw [inputBytes_length]; exact hroom)
    exact ⟨_, command_ok hready' hv, ⟨rfl, rfl, rfl, (decompressBody_keeps hv).cmd⟩, hd.out⟩
  · cases herr.symm.trans hw

end Sys2Proof
end

section
/-!
PROOF. The invariant of the machine: it holds after reset, every step keeps it, and under it no command stops in a fault
(10_state.md R26, 70_reset_and_hazards.md R111).
-/
namespace Sys2Proof.Machine
open Sys2Proof.Claims

/-! ## States in which no flag is set -/

theorem powerOn_codesFit (c : Caps) (d r : Nat) : (State.powerOn c d r).CodesFit := fun x => by
  show (tget (freeCodeTable d) x.toNat []).length = (tget (freeCodeLenTable d) x.toNat 0).toNat
  rw [freeCodeTable, freeCodeLenTable, tget_tabulate _ _ x.isLt, tget_tabulate _ _ x.isLt, List.length_map,
    List.length_range]

theorem powerOn_inv {c : Caps} (hc : c.ok) (d r : Nat) : (State.powerOn c d r).Inv :=
  ⟨⟨hc, Memory.wf_nil, fun _ h => absurd h List.not_mem_nil, rfl, Nat.zero_le _⟩,
    ⟨fun h => (by cases h), fun h => (by cases h), fun h => (by cases h)⟩,
    ⟨fun _ => ⟨rfl, rfl⟩, fun h => (by cases h), fun _ => ⟨rfl, rfl, rfl, rfl, rfl, rfl, rfl, rfl, rfl, rfl, rfl⟩⟩,
    fun h => (by cases h), powerOn_codesFit c d r, fun h => (by cases h), fun h => (by cases h)⟩

theorem raise_inv {s : State} (hb : s.BuffersOk) (e : CmdError) : (s.raise e).Inv :=
  ⟨⟨hb.caps, hb.inWf, hb.inRange, rfl, Nat.zero_le _⟩,
    ⟨fun h => (by cases h), fun h => (by cases h), fun h => (by cases h)⟩,
    ⟨fun h => absurd rfl h, fun _ => ⟨e, rfl, rfl⟩, fun _ => ⟨rfl, rfl, rfl, rfl, rfl, rfl, rfl, rfl, rfl, rfl, rfl⟩⟩,
    fun h => (by cases h), powerOn_codesFit s.caps (s.draws + 1) s.resets, fun h => (by cases h), fun h => (by cases h)⟩

theorem clear_inv {s : State} (hi : s.Inv) : s.clear.Inv :=
  ⟨⟨hi.buffers.caps, hi.buffers.inWf, hi.buffers.inRange, rfl, Nat.zero_le _⟩,
    ⟨fun h => (by cases h), fun h => (by cases h), fun h => (by cases h)⟩,
    ⟨fun _ => ⟨rfl, rfl⟩, fun h => (by cases h), fun _ => ⟨rfl, rfl, rfl, rfl, rfl, rfl, rfl, rfl, rfl, rfl, rfl⟩⟩,
    fun h => (by cases h), hi.codesFit, fun h => (by cases h), fun h => (by cases h)⟩

theorem configCaps_ok : Config.caps.ok := by
  have h1 := Nat.mod_lt Config.inCapChoice.toNat (show 0 < 2 ^ 32 - 1 by decide)
  have h2 := Nat.mod_lt Config.outCapChoice.toNat (show 0 < 2 ^ 32 - 1285 by decide)
  show 1 ≤ Config.inCapChoice.toNat % (2 ^ 32 - 1) + 1 ∧ Config.inCapChoice.toNat % (2 ^ 32 - 1) + 1 < 2 ^ 32 ∧
    1285 ≤ Config.outCapChoice.toNat % (2 ^ 32 - 1285) + 1285 ∧ Config.outCapChoice.toNat % (2 ^ 32 - 1285) + 1285 < 2 ^ 32
  omega

/-! ## What the invariant does not speak of -/

theorem State.Inv.accept {s : State} (hi : s.Inv) (w : Word) : (s.accept w).Inv :=
  ⟨hi.buffers.congr rfl rfl rfl rfl, ⟨hi.flags.codeTree, hi.flags.treeFreq, hi.flags.hdrFreq⟩,
    ⟨hi.status.noError, hi.status.inError, hi.status.quiet⟩, hi.nsymOk, hi.codesFit, hi.treeBuilt, hi.codesGenerated⟩

/-- The host writes `IN_LEN` and bytes of `IN`, and keeps its own program and record. -/
theorem State.Inv.host {s : State} (hi : s.Inv) {n : Word} {m : Memory} (hwf : Memory.wf m)
    (hrange : ∀ c ∈ m, c.1 < s.caps.inCap) (p : List HostAccess) (l : List ReadValue) :
    State.Inv { s with inLen := n, inBuf := m, hostProgram := p, hostReads := l } :=
  ⟨⟨hi.buffers.caps, hwf, hrange, hi.buffers.outRange, hi.buffers.outFits⟩,
    ⟨hi.flags.codeTree, hi.flags.treeFreq, hi.flags.hdrFreq⟩,
    ⟨hi.status.noError, hi.status.inError, hi.status.quiet⟩, hi.nsymOk, hi.codesFit, hi.treeBuilt, hi.codesGenerated⟩

theorem State.Inv.complete {s : State} (hi : s.Inv) : s.complete.Inv :=
  ⟨hi.buffers.congr rfl rfl rfl rfl, ⟨hi.flags.codeTree, hi.flags.treeFreq, hi.flags.hdrFreq⟩, complete_statusOk s,
    hi.nsymOk, hi.codesFit, hi.treeBuilt, hi.codesGenerated⟩

/-! ## The size of a parsed alphabet -/

/-- One entry more of a symbol that had none. -/
theorem alphabetOf_tset_length {f : Vector (BitVec 32) 256} {x : Byte} {v : BitVec 32} (hx : freqAt f x = 0) (hv : v ≠ 0) :
    (alphabetOf (tset f x.toNat v)).length = (alphabetOf f).length + 1 := by
  have hset : (alphabetOf (tset f x.toNat v)).toFinset = insert x (alphabetOf f).toFinset := by
    ext y
    rw [List.mem_toFinset, mem_alphabetOf, Finset.mem_insert, List.mem_toFinset, mem_alphabetOf, freqAt_tset]
    by_cases h : x = y
    · simpa [h] using hv
    · simp [h, Ne.symm h]
  have hnot : x ∉ (alphabetOf f).toFinset := by
    rw [List.mem_toFinset, mem_alphabetOf, not_not]
    exact hx
  rw [← List.toFinset_card_of_nodup (alphabetOf_nodup _), hset, Finset.card_insert_of_notMem hnot,
    List.toFinset_card_of_nodup (alphabetOf_nodup _)]

/-- Every entry of the header is a symbol above all before it, with a frequency. -/
theorem parseEntries_alphabet {s : State} {n i : Nat} {prev : Option Byte} {t f : Vector (BitVec 32) 256}
    (hprev : ∀ x, freqAt t x ≠ 0 → ∃ q ∈ prev, x.toNat ≤ q.toNat) (h : s.parseEntries n i prev t = .ok f) :
    (alphabetOf f).length = (alphabetOf t).length + n := by
  induction n generalizing i prev t with
  | zero =>
    rw [parseEntries_zero] at h
    cases h
    rfl
  | succ n ih =>
    rw [parseEntries_succ] at h
    split at h
    · cases h
    split at h
    · cases h
    rename_i horder hfreq
    have habove : ∀ q ∈ prev, q.toNat < (s.inByte (4 + 5 * i)).toNat := fun q hq => by
      rw [Option.any_eq_true] at horder
      exact Nat.lt_of_not_le fun hle => horder ⟨q, hq, decide_eq_true hle⟩
    have hnew : freqAt t (s.inByte (4 + 5 * i)) = 0 := by
      by_contra hne
      obtain ⟨q, hq, hle⟩ := hprev _ hne
      exact absurd (habove q hq) (Nat.not_lt.mpr hle)
    have hrest := ih (fun x hx => ⟨_, rfl, ?_⟩) h
    · rw [hrest, alphabetOf_tset_length hnew hfreq]
      omega
    · rw [freqAt_tset] at hx
      split at hx
      · rename_i he
        rw [he]
      · obtain ⟨q, hq, hle⟩ := hprev x hx
        exact hle.trans (habove q hq).le

theorem alphabetOf_zero : alphabetOf (Vector.replicate 256 0) = [] :=
  List.eq_nil_iff_forall_not_mem.mpr fun x hx => (mem_alphabetOf _ x).mp hx (freqAt_zero x)

/-- What the parse of the stream recovers has `NSYM` symbols (R76). -/
theorem parseStream_nsym {s t : State} (h : s.parseStream = .ok t) : t.nsym = nsymOf t.freq := by
  unfold State.parseStream at h
  split at h
  · cases h
    show BitVec.ofNat 9 0 = BitVec.ofNat 9 (alphabetOf (Vector.replicate 256 0)).length
    rw [alphabetOf_zero]
    rfl
  · obtain ⟨-, -, -, f, hf, rfl⟩ := (parseHeader_ok s t).mp h
    have hlen := parseEntries_alphabet (fun x hx => absurd (freqAt_zero x) hx) hf
    rw [alphabetOf_zero, List.length_nil, Nat.zero_add] at hlen
    show BitVec.ofNat 9 (s.inWord 0).toNat = BitVec.ofNat 9 (alphabetOf f).length
    rw [hlen]

theorem hdrpBody_nsym {s t : State} (h : hdrpBody s = .ok t) : t.nsym = nsymOf t.freq := by
  obtain ⟨_, -, h⟩ := (run_bind_ok _ _ _).mp h
  obtain ⟨u, hu, h⟩ := (run_bind_ok _ _ _).mp h
  cases h
  exact show u.nsym = nsymOf u.freq from parseStream_nsym hu

/-! ## The commands -/

theorem hdrpBody_inv {s t : State} (hi : s.Inv) (h : hdrpBody s = .ok t) : t.complete.Inv := by
  have hn := hdrpBody_nsym h
  obtain ⟨-, f, n, p, i, rfl⟩ := hdrpBody_writes h
  exact ⟨hi.buffers.congr rfl rfl rfl rfl, ⟨fun h => (by cases h), fun h => (by cases h), fun _ => rfl⟩,
    complete_statusOk _, fun _ => hn, hi.codesFit, fun h => (by cases h), fun h => (by cases h)⟩

/-- What stores into `OUT`, and writes no table, keeps the invariant. -/
theorem State.Inv.store {s t : State} (hi : s.complete.Inv) (hout : t.OutOk) {p : BitVec 3} {n : Word} {b : Memory} {d : Nat}
    {v : Bool} (hv : v = true → s.hdrV = true) (ht : t = { s with pad := p, outLen := n, outBuf := b, draws := d, hdrV := v }) :
    t.complete.Inv := by
  subst ht
  exact ⟨⟨hi.buffers.caps, hi.buffers.inWf, hi.buffers.inRange, hout.outRange, hout.outFits⟩,
    ⟨hi.flags.codeTree, hi.flags.treeFreq, fun h => hi.flags.hdrFreq (hv h)⟩, complete_statusOk _, hi.nsymOk, hi.codesFit,
    hi.treeBuilt, hi.codesGenerated⟩

theorem hdrwBody_inv {s t : State} (hi : s.complete.Inv) (h : hdrwBody s = .ok t) : t.complete.Inv := by
  obtain ⟨-, _, _, _, ht⟩ := hdrwBody_writes h
  exact hi.store (hdrwBody_outOk (s := s) hi.buffers.caps h).1 (fun h => (by cases h)) ht

theorem packBody_inv {s t : State} (hi : s.complete.Inv) (h : packBody s = .ok t) : t.complete.Inv := by
  obtain ⟨-, -, _, _, _, ht⟩ := packBody_writes h
  exact hi.store (packBody_extends (s := s) (hi.buffers.outOk.congr rfl rfl rfl) h).outOk (fun h => (by cases h)) ht

theorem unpackBody_inv {s t : State} (hi : s.complete.Inv) (h : unpackBody s = .ok t) : t.complete.Inv := by
  obtain ⟨-, -, -, -, _, _, ht⟩ := unpackBody_writes h
  exact hi.store (unpackBody_outOk (s := s) hi.buffers.caps h) id ht

/-- After `BUILD` then `GEN` in a composite command the tables are the results of these on the present frequency table. -/
theorem buildBody_genBody_inv {s t u : State} (hb : s.BuffersOk) (hn : s.nsym = nsymOf s.freq) (ht : buildBody s = .ok t)
    (hu : genBody t = .ok u) : u.complete.Inv := by
  have hfit := genBody_codesFit hu
  obtain ⟨hf, hne, _, _, _, _, _, _, ht'⟩ := buildBody_writes ht
  have hft : t.freq = s.freq := by rw [ht']
  have hnt : t.nsym = s.nsym := by rw [ht']
  have hvt : t.freqV = true := by rw [ht', hf]
  have htree : t.treeV = true := by rw [ht']
  have hbt : t.BuffersOk := hb.congr (by rw [ht']) (by rw [ht']) (by rw [ht']) (by rw [ht'])
  have hpos : 1 ≤ t.nsym.toNat := by
    rw [hnt]
    exact Nat.pos_of_ne_zero fun h0 => hne (BitVec.eq_of_toNat_eq h0)
  obtain ⟨-, a, c, n, hu'⟩ := genBody_writes hu
  have hflags : u.complete.FlagsOk := by
    rw [hu']
    exact ⟨fun _ => htree, fun _ => ⟨hvt, hpos⟩, fun _ => hvt⟩
  have hnu : u.complete.NsymOk := by
    rw [hu']
    exact fun _ => hnt.trans (hn.trans (congrArg nsymOf hft.symm))
  refine ⟨hbt.congr (by rw [hu']; rfl) (by rw [hu']; rfl) (by rw [hu']; rfl) (by rw [hu']; rfl), hflags, complete_statusOk u,
    hnu, hfit, fun _ => ⟨s, t, ?_⟩, fun _ => ⟨t, u, ?_⟩⟩
  · rw [hu']
    exact ⟨hft.symm, ht, rfl, rfl, rfl, rfl, rfl⟩
  · refine ⟨?_, ?_, ?_, ?_, hu, rfl, rfl, rfl⟩ <;> rw [hu'] <;> rfl

theorem compressBody_inv {s t : State} (hi : s.Inv) (h : compressBody s = .ok t) : t.complete.Inv := by
  obtain ⟨u, hu, h⟩ := (compressBody_ok s t).mp h
  have hiu := freqBody_inv hi hu
  rcases h with ⟨-, rfl⟩ | ⟨-, v, hv, w, hw, x, hx, ht⟩
  · exact hiu.store (t := u.outRestart.withPad 0) ((outRestart_outOk hiu.buffers.caps).congr rfl rfl rfl) id rfl
  · obtain ⟨-, rfl⟩ := (freqBody_ok _ _).mp hu
    have hb := hiu.buffers.congr (t := (s.withFreq (countBytes s.inputBytes)).flagsFreq) rfl rfl rfl rfl
    exact packBody_inv (hdrwBody_inv (buildBody_genBody_inv hb rfl hv hw) hx) ht

theorem decompressBody_inv {s t : State} (hi : s.Inv) (h : decompressBody s = .ok t) : t.complete.Inv := by
  obtain ⟨u, hu, h⟩ := (decompressBody_ok s t).mp h
  have hiu := hdrpBody_inv hi hu
  rcases h with ⟨-, rfl⟩ | ⟨-, v, hv, w, hw, ht⟩
  · exact hiu.store (outRestart_outOk (s := u) hiu.buffers.caps) id rfl
  · exact unpackBody_inv (buildBody_genBody_inv (hiu.buffers.congr (t := u) rfl rfl rfl rfl) (hdrpBody_nsym hu) hv hw) ht

/-- A command keeps the invariant when its completed pseudocode does. -/
theorem command_inv {s t : State} {w : Word} {body : State → Run State} (hi : s.Inv)
    (hbody : ∀ {u v}, u.Inv → body u = .ok v → v.complete.Inv) (h : s.command w body = .next t) : t.Inv := by
  rcases command_next h with ⟨-, rfl⟩ | ⟨-, u, hu, rfl⟩ | ⟨-, e, -, rfl⟩
  · exact hi
  · exact hbody (hi.accept w) hu
  · exact raise_inv (hi.accept w).buffers e

theorem exec_inv {i : Instr} {s t : State} (hi : s.Inv) (h : exec i s = .next t) : t.Inv := by
  cases i with
  | nop =>
    change execNop s = .next t at h
    unfold execNop at h
    split at h <;> cases h
    · exact hi
    · exact hi.accept _
  | clear =>
    cases h
    exact clear_inv (hi.accept _)
  | freq => exact command_inv hi freqBody_inv h
  | build => exact command_inv hi buildBody_inv h
  | gen => exact command_inv hi genBody_inv h
  | hdrw => exact command_inv hi (fun hu => hdrwBody_inv hu.complete) h
  | pack => exact command_inv hi (fun hu => packBody_inv hu.complete) h
  | hdrp => exact command_inv hi hdrpBody_inv h
  | unpack => exact command_inv hi (fun hu => unpackBody_inv hu.complete) h
  | compress => exact command_inv hi compressBody_inv h
  | decompress => exact command_inv hi decompressBody_inv h

theorem writeCmd_inv {s t : State} {w : Word} (hi : s.Inv) (h : s.writeCmd w = .next t) : t.Inv := by
  unfold State.writeCmd at h
  split at h
  · exact exec_inv hi h
  · exact command_inv hi (fun _ h => by cases h) h

/-! ## No fault -/

/-- The node is on top of a tree of nodes that were created (10_state.md R17). -/
def State.onTree (s : State) (id : NodeId) : Prop := ∃ T, s.spans T id ∧ T.madeIn s.nint.toNat

theorem State.onTree.congr {s t : State} {id : NodeId} (h : s.onTree id) (hl : t.left = s.left) (hr : t.right = s.right)
    (hn : t.nint = s.nint) : t.onTree id := by
  obtain ⟨T, hs, hm⟩ := h
  exact ⟨T, spans_congr hl hr hs, hn ▸ hm⟩

/-- The branches of an internal node of a tree lead to nodes of the tree. -/
theorem State.onTree.children {s : State} {id : NodeId} (h : s.onTree id) (hid : isLeaf id = false) :
    ∃ k, k < s.nint.toNat ∧ (∀ t : State, ∀ b, t.child id b = .ok (if b then rightOf t k else leftOf t k)) ∧
      s.onTree (leftOf s k) ∧ s.onTree (rightOf s k) := by
  obtain ⟨T, hs, hn⟩ := h
  have hlt := s.nint.isLt
  cases T with
  | leaf x =>
    have hx : isLeaf id = true := (isLeaf_iff _).mpr (by rw [show id = leafOf x from hs, leafOf_toNat]; exact x.isLt)
    rw [hx] at hid
    cases hid
  | node k l r =>
    obtain ⟨rfl, hsl, hsr⟩ := hs
    obtain ⟨hk, hml, hmr⟩ := hn
    have htoNat : (internal k).toNat = 256 + k := internal_toNat (by omega)
    refine ⟨k, hk, fun t b => (child_ok _ _ _ _).mpr ⟨by omega, ?_⟩, ⟨l, hsl, CodeTree.madeIn_mono hml hk.le⟩,
      ⟨r, hsr, CodeTree.madeIn_mono hmr hk.le⟩⟩
    rw [htoNat, Nat.add_sub_cancel_left]
    cases b <;> rfl

/-- What the flags promise of the tables (10_state.md R18, R26). -/
structure State.Sound (s : State) : Prop where
  nsym : s.NsymOk
  tree : s.treeV = true → s.freqV = true ∧ ∃ T, s.HasTree T
  codeTree : s.codeV = true → s.treeV = true

theorem State.Inv.sound {s : State} (hi : s.Inv) : s.Sound :=
  ⟨hi.nsymOk, fun h => ⟨(hi.flags.treeFreq h).1, by obtain ⟨T, hT, -⟩ := hi.hasTree h; exact ⟨T, hT⟩⟩, hi.flags.codeTree⟩

theorem freqBody_sound {s t : State} (h : freqBody s = .ok t) : t.Sound := by
  obtain ⟨-, rfl⟩ := (freqBody_ok s t).mp h
  exact ⟨fun _ => rfl, fun h => (by cases h), fun h => (by cases h)⟩

theorem hdrpBody_sound {s t : State} (h : hdrpBody s = .ok t) : t.Sound := by
  have hn := hdrpBody_nsym h
  obtain ⟨-, f, n, p, i, rfl⟩ := hdrpBody_writes h
  exact ⟨fun _ => hn, fun h => (by cases h), fun h => (by cases h)⟩

theorem buildBody_sound {s t : State} (hs : s.Sound) (h : buildBody s = .ok t) : t.Sound := by
  obtain ⟨q, hq⟩ := buildBody_isBuilt h
  obtain ⟨T, hT, -⟩ := hq.hasTree
  obtain ⟨hf, -, _, _, _, _, _, _, rfl⟩ := buildBody_writes h
  exact ⟨hs.nsym, fun _ => ⟨hf, T, hT⟩, fun h => (by cases h)⟩

theorem genBody_sound {s t : State} (hs : s.Sound) (h : genBody s = .ok t) : t.Sound := by
  obtain ⟨hv, a, c, n, rfl⟩ := genBody_writes h
  obtain ⟨hf, T, hT⟩ := hs.tree hv
  exact ⟨hs.nsym, fun _ => ⟨hf, T, hT.congr rfl rfl rfl rfl rfl⟩, fun _ => hv⟩

/-- A tree read off the arena has at most 255 branches on a path, so the traversal comes to its end. -/
theorem State.HasTree.madeIn_255 {s : State} {T : CodeTree} (h : s.HasTree T) : T.madeIn 255 :=
  CodeTree.madeIn_mono h.madeIn (Nat.lt_succ_iff.mp s.nint.isLt)

theorem buildBody_not_stuck {s : State} (hs : s.Sound) (f : Fault) : buildBody s ≠ .error (.stuck f) := fun h => by
  rcases (run_bind_error _ _ _).mp h with hf | ⟨_, hf, h⟩
  · cases ((require_error _ _ _).mp hf).2
  rcases (run_bind_error _ _ _).mp h with hn | ⟨_, hn, -⟩
  · cases ((require_error _ _ _).mp hn).2
  have hf := (require_ok _ _ _).mp hf
  have hn : s.nsym ≠ 0 := by simpa using (require_ok _ _ _).mp hn
  obtain ⟨t, -, ht, -⟩ := buildBody_of_alphabet hf hn (alphabet_of_nsym (hs.nsym hf) hn)
  cases ht.symm.trans ‹buildBody s = .error (.stuck f)›

theorem genBody_not_stuck {s : State} (hs : s.Sound) (f : Fault) : genBody s ≠ .error (.stuck f) := fun h => by
  by_cases hv : s.treeV = true
  · obtain ⟨-, T, hT⟩ := hs.tree hv
    obtain ⟨t, ht, -⟩ := genBody_spans hv hT.spans hT.madeIn_255
    cases ht.symm.trans h
  · rcases (run_bind_error _ _ _).mp h with h | ⟨_, hv', -⟩
    · cases ((require_error _ _ _).mp h).2
    · exact hv ((require_ok _ _ _).mp hv')

theorem hdrwBody_not_stuck {s : State} (f : Fault) : hdrwBody s ≠ .error (.stuck f) := fun h => by
  rcases (run_bind_error _ _ _).mp h with h | ⟨_, -, h⟩
  · cases ((require_error _ _ _).mp h).2
  · cases h

theorem packBody_not_stuck {s : State} (f : Fault) : packBody s ≠ .error (.stuck f) := fun h => by
  rcases packBody_error h with h | h | h | h <;> cases h

theorem hdrpBody_not_stuck {s : State} (f : Fault) : hdrpBody s ≠ .error (.stuck f) := fun h => by
  rcases (run_bind_error _ _ _).mp h with h | ⟨_, -, h⟩
  · cases ((require_error _ _ _).mp h).2
  rcases (run_bind_error _ _ _).mp h with h | ⟨_, -, h⟩
  · exact parseStream_not_stuck h
  · cases h

/-- The cursor stays on the tree. -/
theorem unpackLoop_not_stuck {s : State} (hroot : s.onTree s.root) {n j : Nat} {cur : NodeId} (hcur : s.onTree cur)
    (hnode : isLeaf cur = false ∨ isLeaf s.root = true) (f : Fault) : State.unpackLoop n j cur s ≠ .error (.stuck f) := by
  induction n generalizing j cur s with
  | zero =>
    rw [unpackLoop_zero]
    split <;> exact fun h => by cases h
  | succ n ih =>
    intro h
    unfold State.unpackLoop at h
    split at h
    · rename_i hleaf
      rcases (run_bind_error _ _ _).mp h with h | ⟨t, ht, h⟩
      · cases emit_error h
      · obtain ⟨k, b, rfl⟩ := emit_writes ht
        exact ih (s := { s with outLen := k, outBuf := b }) (hroot.congr rfl rfl rfl) (hcur.congr rfl rfl rfl) (.inr hleaf) h
    · rename_i hroot'
      have hroot' : isLeaf s.root = false := by simpa using hroot'
      have hnode : isLeaf cur = false := hnode.resolve_right (by simp [hroot'])
      obtain ⟨k, -, hchild, hl, hr⟩ := hcur.children hnode
      rw [hchild, run_ok_bind] at h
      have hc : s.onTree (if s.payloadBit j then rightOf s k else leftOf s k) := by
        cases s.payloadBit j
        · exact hl
        · exact hr
      generalize (if s.payloadBit j then rightOf s k else leftOf s k) = c at h hc
      split at h
      · rcases (run_bind_error _ _ _).mp h with h | ⟨t, ht, h⟩
        · cases emit_error h
        · obtain ⟨k, b, rfl⟩ := emit_writes ht
          exact ih (s := { s with outLen := k, outBuf := b }) (hroot.congr rfl rfl rfl) (hroot.congr rfl rfl rfl)
            (.inl hroot') h
      · rename_i hc'
        exact ih hroot hc (.inl (by simpa using hc')) h

theorem State.HasTree.onTree_root {s : State} {T : CodeTree} (h : s.HasTree T) : s.onTree s.root := ⟨T, h.spans, h.madeIn⟩

theorem unpackBody_not_stuck {s : State} (hs : s.Sound) (f : Fault) : unpackBody s ≠ .error (.stuck f) := fun h => by
  rcases (run_bind_error _ _ _).mp h with h | ⟨_, hcode, h⟩
  · cases ((require_error _ _ _).mp h).2
  rcases (run_bind_error _ _ _).mp h with h | ⟨_, -, h⟩
  · cases ((require_error _ _ _).mp h).2
  rcases (run_bind_error _ _ _).mp h with h | ⟨_, -, h⟩
  · cases ((require_error _ _ _).mp h).2
  rcases (run_bind_error _ _ _).mp h with h | ⟨_, -, h⟩
  · cases ((require_error _ _ _).mp h).2
  obtain ⟨-, T, hT⟩ := hs.tree (hs.codeTree ((require_ok _ _ _).mp hcode))
  have hroot : s.outRestart.onTree s.root := hT.onTree_root.congr rfl rfl rfl
  exact unpackLoop_not_stuck (s := s.outRestart) hroot hroot (by cases h : isLeaf s.root <;> simp [h]) f h

theorem compressBody_not_stuck {s : State} (f : Fault) : compressBody s ≠ .error (.stuck f) := fun h => by
  rcases (run_bind_error _ _ _).mp h with h | ⟨t, ht, h⟩
  · cases freqBody_error h
  split at h
  · cases h
  have hst := freqBody_sound ht
  rcases (run_bind_error _ _ _).mp h with h | ⟨u, hu, h⟩
  · exact buildBody_not_stuck hst f h
  have hsu := buildBody_sound hst hu
  rcases (run_bind_error _ _ _).mp h with h | ⟨v, -, h⟩
  · exact genBody_not_stuck hsu f h
  rcases (run_bind_error _ _ _).mp h with h | ⟨w, -, h⟩
  · exact hdrwBody_not_stuck f h
  · exact packBody_not_stuck f h

theorem decompressBody_not_stuck {s : State} (f : Fault) : decompressBody s ≠ .error (.stuck f) := fun h => by
  rcases (run_bind_error _ _ _).mp h with h | ⟨t, ht, h⟩
  · exact hdrpBody_not_stuck f h
  split at h
  · cases h
  have hst := hdrpBody_sound ht
  rcases (run_bind_error _ _ _).mp h with h | ⟨u, hu, h⟩
  · exact buildBody_not_stuck hst f h
  have hsu := buildBody_sound hst hu
  rcases (run_bind_error _ _ _).mp h with h | ⟨v, hv, h⟩
  · exact genBody_not_stuck hsu f h
  · exact unpackBody_not_stuck (genBody_sound hsu hv) f h

theorem exec_not_fault {s : State} (hi : s.Inv) (i : Instr) (f : Fault) : exec i s ≠ .fault f := by
  have hs (w : Word) := (hi.accept w).sound
  cases i with
  | nop =>
    show execNop s ≠ _
    unfold execNop
    split <;> exact fun h => by cases h
  | clear => exact fun h => by cases h
  | freq => exact fun h => by cases freqBody_error (command_fault h).2
  | build => exact fun h => buildBody_not_stuck (hs _) f (command_fault h).2
  | gen => exact fun h => genBody_not_stuck (hs _) f (command_fault h).2
  | hdrw => exact fun h => hdrwBody_not_stuck f (command_fault h).2
  | pack => exact fun h => packBody_not_stuck f (command_fault h).2
  | hdrp => exact fun h => hdrpBody_not_stuck f (command_fault h).2
  | unpack => exact fun h => unpackBody_not_stuck (hs _) f (command_fault h).2
  | compress => exact fun h => compressBody_not_stuck f (command_fault h).2
  | decompress => exact fun h => decompressBody_not_stuck f (command_fault h).2

theorem writeCmd_not_fault {s : State} (hi : s.Inv) (w : Word) (f : Fault) : s.writeCmd w ≠ .fault f := by
  unfold State.writeCmd
  split
  · exact exec_not_fault hi _ f
  · exact fun h => by cases (command_fault h).2

/-- Only a write of `CMD` can stop in a fault. -/
theorem access_not_fault {s : State} (hs : ∀ w f, s.writeCmd w ≠ .fault f) (a : HostAccess) (f : Fault) :
    s.access a ≠ .fault f := by
  cases a with
  | writeReg off w =>
    simp only [State.access, writeReg_cases]
    split
    · split
      · exact hs w f
      · split <;> exact fun h => by cases h
    · exact fun h => by cases h
  | readReg off =>
    simp only [State.access]
    split <;> exact fun h => by cases h
  | writeIn i b =>
    simp only [State.access]
    split <;> exact fun h => by cases h
  | readIn i =>
    simp only [State.access]
    split <;> exact fun h => by cases h
  | readOut i =>
    simp only [State.access]
    split <;> exact fun h => by cases h
  | reset => exact fun h => by cases h
  | writeOut i b => exact fun h => by cases h
  | otherWidth sp i n => exact fun h => by cases h
  | duringCommand => exact fun h => by cases h


end Sys2Proof.Machine

namespace Sys2Proof
open Sys2Proof.Machine Sys2Proof.Claims

/-- Settles O57: no flag is set and nothing is held. -/
theorem resetMeetsTheInvariant : Obligations.ResetMeetsTheInvariant := powerOn_inv configCaps_ok 0 0

/-- Settles O58: by the access, and for a write of `CMD` by the command and how it ends. -/
theorem everyStepKeepsTheInvariant : Obligations.EveryStepKeepsTheInvariant := by
  intro s t hi h
  rcases step_next h with ⟨-, rfl⟩ | ⟨a, rest, u, -, rfl, hcases⟩
  · exact hi
  have hwf := hi.buffers.inWf
  have hrange := hi.buffers.inRange
  rcases hcases with ⟨w, -, hw⟩ | ⟨w, -, rfl⟩ | ⟨off, w, -, -, -, rfl⟩ | ⟨i, b, hlt, rfl⟩ | ⟨v, rfl⟩ | ⟨-, rfl⟩
  · exact writeCmd_inv (hi.host hwf hrange rest s.hostReads) hw
  · exact hi.host hwf hrange rest s.hostReads
  · exact hi.host hwf hrange rest s.hostReads
  · refine hi.host (Memory.wf_write hwf i b) (fun c hc => ?_) rest s.hostReads
    rcases Memory.mem_write hc with rfl | hc
    · exact hlt
    · exact hrange c hc
  · exact hi.host hwf hrange rest (v :: s.hostReads)
  · exact (powerOn_inv hi.buffers.caps _ _).host Memory.wf_nil (fun _ h => absurd h List.not_mem_nil) rest s.hostReads

/-- Settles O59: the flags promise what the loops need, an alphabet for the merges, a tree for the cursor and the traversal. -/
theorem noStepFaults : Obligations.NoStepFaults := by
  intro s f hi h
  cases hp : s.hostProgram with
  | nil =>
    rw [step_nil hp] at h
    cases h
  | cons a rest =>
    rw [step_cons hp] at h
    have hi' := hi.host (n := s.inLen) hi.buffers.inWf hi.buffers.inRange rest s.hostReads
    exact access_not_fault (fun w f => writeCmd_not_fault hi' w f) a f h

end Sys2Proof
end

section
/-!
PROOF. What the spec leaves unspecified in the tables reaches no outcome (10_state.md R25, 93_implementation_defined.md U3),
nor do the control registers reach a command's pseudocode.
-/
namespace Sys2Proof.Machine
open Sys2Proof.Claims

/-! ## Agreement -/

/-- `u` has the same as `s` of all the spec fixes, the control registers `CMD` and `STATUS` apart (10_state.md R25). -/
structure State.Agree (s u : State) : Prop where
  frame : u = { s with
    cmd := u.cmd, phase := u.phase, err := u.err, detail := u.detail, freq := u.freq, weight := u.weight, left := u.left
    right := u.right, inq := u.inq, codeLen := u.codeLen, code := u.code }
  freq : s.freqV = true → u.freq = s.freq
  weight : s.treeV = true → ∀ id, s.nodeExists id → weightOf u.weight id = weightOf s.weight id
  left : s.treeV = true → ∀ k, k < s.nint.toNat → leftOf u k = leftOf s k
  right : s.treeV = true → ∀ k, k < s.nint.toNat → rightOf u k = rightOf s k
  codeLen : s.codeV = true → u.codeLen = s.codeLen
  code : s.codeV = true → u.code = s.code

theorem State.Agree.refl (s : State) : s.Agree s :=
  ⟨rfl, fun _ => rfl, fun _ _ _ => rfl, fun _ _ _ => rfl, fun _ _ _ => rfl, fun _ => rfl, fun _ => rfl⟩

/-- With no valid tree and no valid codes the frequency table is all of the tables that the spec fixes. -/
theorem agree_of_noTree {s u : State} (frame : u = { s with
      cmd := u.cmd, phase := u.phase, err := u.err, detail := u.detail, freq := u.freq, weight := u.weight, left := u.left
      right := u.right, inq := u.inq, codeLen := u.codeLen, code := u.code })
    (freq : s.freqV = true → u.freq = s.freq) (htree : s.treeV = false) (hcode : s.codeV = false) : s.Agree u := by
  have htree : ¬ s.treeV = true := Bool.eq_false_iff.mp htree
  have hcode : ¬ s.codeV = true := Bool.eq_false_iff.mp hcode
  exact ⟨frame, freq, fun h => absurd h htree, fun h => absurd h htree, fun h => absurd h htree, fun h => absurd h hcode,
    fun h => absurd h hcode⟩

/-- The control registers and the tables of `u` on the frame of `s`. -/
theorem State.Agree.exists_eq {s u : State} (h : s.Agree u) : ∃ c p e d f w l r q a k, u = { s with
    cmd := c, phase := p, err := e, detail := d, freq := f, weight := w, left := l, right := r, inq := q, codeLen := a
    code := k } :=
  ⟨_, _, _, _, _, _, _, _, _, _, _, h.frame⟩

theorem State.Agree.accept {s u : State} (h : s.Agree u) (w w' : Word) : (s.accept w).Agree (u.accept w') :=
  ⟨by rw [h.frame]; rfl, h.freq, h.weight, h.left, h.right, h.codeLen, h.code⟩

theorem State.Agree.complete {s u : State} (h : s.Agree u) : s.complete.Agree u.complete :=
  ⟨by rw [h.frame]; rfl, h.freq, h.weight, h.left, h.right, h.codeLen, h.code⟩

theorem State.Agree.put {s u : State} (h : s.Agree u) (v : Byte) : (s.put v).Agree (u.put v) :=
  ⟨by rw [h.frame]; rfl, h.freq, h.weight, h.left, h.right, h.codeLen, h.code⟩

theorem State.Agree.putAll {s u : State} (h : s.Agree u) (l : List Byte) : (s.putAll l).Agree (u.putAll l) := by
  induction l generalizing s u with
  | nil => exact h
  | cons v l ih => exact ih (h.put v)

/-! ## Alike results -/

/-- Both pieces of pseudocode come to their ends, in related states, or both stop for the same reason. -/
inductive Alike {α : Type} (R : α → α → Prop) : Run α → Run α → Prop
  | ok {a b : α} (h : R a b) : Alike R (.ok a) (.ok b)
  | error (x : Stop) : Alike R (.error x) (.error x)

theorem Alike.bind {α β : Type} {R : α → α → Prop} {S : β → β → Prop} {r r' : Run α} {f g : α → Run β} (h : Alike R r r')
    (hfg : ∀ a b, r = .ok a → R a b → Alike S (f a) (g b)) : Alike S (r >>= f) (r' >>= g) := by
  cases h with
  | ok h => exact hfg _ _ rfl h
  | error x => exact .error x

/-- The same check. -/
theorem Alike.check {β : Type} {S : β → β → Prop} (r : Run Unit) {f g : Unit → Run β}
    (hfg : r = .ok () → Alike S (f ()) (g ())) : Alike S (r >>= f) (r >>= g) := by
  cases r with
  | ok u => exact hfg rfl
  | error x => exact .error x

theorem Alike.foldlM {α β : Type} {R : α → α → Prop} {f : α → β → Run α}
    (hf : ∀ a b, R a b → ∀ y, Alike R (f a y) (f b y)) (l : List β) {a b : α} (h : R a b) :
    Alike R (l.foldlM f a) (l.foldlM f b) := by
  induction l generalizing a b with
  | nil => exact .ok h
  | cons y l ih =>
    rw [List.foldlM_cons, List.foldlM_cons]
    exact (hf a b h y).bind fun c d _ hcd => ih hcd

/-! ## The pseudocodes on agreeing states -/

theorem emit_alike {s u : State} (h : s.Agree u) (v : Byte) : Alike State.Agree (s.emit v) (u.emit v) := by
  have hlen : u.outLen = s.outLen := by rw [h.frame]
  have hcap : u.caps = s.caps := by rw [h.frame]
  unfold State.emit
  rw [hlen, hcap]
  split
  · exact .error _
  · exact .ok (h.put v)

theorem freqBody_alike {s u : State} (h : s.Agree u) : Alike State.Agree (freqBody s) (freqBody u) := by
  obtain ⟨c, p, e, d, f, w, l, r, q, a, k, rfl⟩ := h.exists_eq
  refine Alike.check s.requireInLen fun _ => .ok ?_
  exact agree_of_noTree rfl (fun _ => rfl) rfl rfl

theorem parseEntries_congr {s u : State} (hbyte : u.inByte = s.inByte) (n i : Nat) (prev : Option Byte)
    (t : Vector (BitVec 32) 256) : u.parseEntries n i prev t = s.parseEntries n i prev t := by
  have hword (k : Nat) : u.inWord k = s.inWord k := by rw [State.inWord, State.inWord, hbyte]
  induction n generalizing i prev t with
  | zero => rfl
  | succ n ih => rw [parseEntries_succ, parseEntries_succ, ih, hbyte, hword]

/-- The parse of the stream reads the input alone. -/
theorem parseStream_alike {s u : State} (hlen : u.inLen = s.inLen) (hbyte : u.inByte = s.inByte) :
    Alike (fun t v => ∃ f n p i, t = s.withHeader f n p i ∧ v = u.withHeader f n p i) s.parseStream u.parseStream := by
  have hword (k : Nat) : u.inWord k = s.inWord k := by rw [State.inWord, State.inWord, hbyte]
  unfold State.parseStream State.parseHeader
  dsimp only
  rw [hlen, hword, hbyte, parseEntries_congr hbyte]
  split
  · exact .ok ⟨_, _, _, _, rfl, rfl⟩
  split
  · exact .error _
  split
  · exact .error _
  split
  · exact .error _
  cases s.parseEntries (s.inWord 0).toNat 0 none (Vector.replicate 256 0) with
  | error x => exact .error x
  | ok t =>
    rw [run_ok_bind, run_ok_bind]
    split
    · exact .error _
    · exact .ok ⟨_, _, _, _, rfl, rfl⟩

theorem hdrpBody_alike {s u : State} (h : s.Agree u) : Alike State.Agree (hdrpBody s) (hdrpBody u) := by
  have hcheck : u.requireInLen = s.requireInLen := by rw [h.frame]; rfl
  have hlen : u.inLen = s.inLen := by rw [h.frame]
  have hbyte : u.inByte = s.inByte := by rw [h.frame]; rfl
  rw [hdrpBody, hdrpBody, hcheck]
  refine Alike.check _ fun _ => (parseStream_alike hlen hbyte).bind fun t v _ htv => ?_
  obtain ⟨f, n, p, i, rfl, rfl⟩ := htv
  exact .ok (agree_of_noTree (by rw [h.frame]; rfl) (fun _ => rfl) rfl rfl)

/-- The merges are those of the one frequency table (R68). -/
theorem buildBody_alike {s u : State} (h : s.Agree u) (hs : s.Sound) :
    Alike State.Agree (buildBody s) (buildBody u) := by
  have hfreqV : u.freqV = s.freqV := by rw [h.frame]
  have hnsym : u.nsym = s.nsym := by rw [h.frame]
  by_cases hf : s.freqV = true
  · have hfreq := h.freq hf
    by_cases hn : s.nsym = 0
    · rw [buildBody, buildBody, hfreqV, hf, hnsym, hn]
      exact .error _
    · have halphabet := alphabet_of_nsym (hs.nsym hf) hn
      obtain ⟨t, q, ht, hq⟩ := buildBody_of_alphabet hf hn halphabet
      obtain ⟨v, r, hv, hr⟩ := buildBody_of_alphabet (s := u) (hfreqV.trans hf) (hnsym ▸ hn) (hfreq ▸ halphabet)
      have htv : t.freq = v.freq := by
        rw [buildBody_keeps_freq _ _ ht, buildBody_keeps_freq _ _ hv, hfreq]
      obtain ⟨hnint, hroot, hsame⟩ := sameMerges_of_freq hq hr htv
      rw [ht, hv]
      refine .ok ⟨?_, fun _ => htv.symm, fun _ id hid => (hsame.weight id hid).symm, fun _ k hk => (hsame.left k hk).symm,
        fun _ k hk => (hsame.right k hk).symm, ?_, ?_⟩
      · obtain ⟨-, -, w, l, r, q, k, m, rfl⟩ := buildBody_writes ht
        obtain ⟨-, -, w', l', r', q', k', m', rfl⟩ := buildBody_writes hv
        obtain rfl : k = k' := hnint
        obtain rfl : m = m' := hroot
        rw [h.frame]
      · obtain ⟨-, -, w, l, r, q, k, m, rfl⟩ := buildBody_writes ht
        exact fun h => by cases h
      · obtain ⟨-, -, w, l, r, q, k, m, rfl⟩ := buildBody_writes ht
        exact fun h => by cases h
  · rw [buildBody, buildBody, hfreqV, Bool.eq_false_iff.mpr hf]
    exact .error _

/-- The tree is of nodes that were created, in which the arenas agree. -/
theorem State.Agree.hasTree {s u : State} (h : s.Agree u) (hs : s.Sound) (hv : s.treeV = true) {T : CodeTree}
    (hT : s.HasTree T) : u.HasTree T := by
  have hroot : u.root = s.root := by rw [h.frame]
  have hnint : u.nint = s.nint := by rw [h.frame]
  exact ⟨hroot ▸ spans_congr_below (h.left hv) (h.right hv) hT.madeIn hT.spans, hnint ▸ hT.madeIn,
    (h.freq (hs.tree hv).1).symm ▸ hT.leaves⟩

theorem genBody_alike {s u : State} (h : s.Agree u) (hs : s.Sound) : Alike State.Agree (genBody s) (genBody u) := by
  have htreeV : u.treeV = s.treeV := by rw [h.frame]
  by_cases hv : s.treeV = true
  · obtain ⟨hf, T, hT⟩ := hs.tree hv
    have hT' := h.hasTree hs hv hT
    obtain ⟨t, ht, -⟩ := genBody_spans hv hT.spans hT.madeIn_255
    obtain ⟨v, hv', -⟩ := genBody_spans (htreeV.trans hv) hT'.spans hT'.madeIn_255
    have hct := genBody_isCoded hT hT.madeIn_255 ht
    have hcv := genBody_isCoded hT' hT'.madeIn_255 hv'
    have hlbits : v.lbits = t.lbits := by
      have hfreq : v.freq = t.freq := by
        rw [genBody_keeps_freq _ _ ht, genBody_keeps_freq _ _ hv', h.freq hf]
      apply BitVec.eq_of_toNat_eq
      rw [hct.lbits, hcv.lbits]
      simp only [State.freqNat, hfreq]
    obtain ⟨hcode, hlen⟩ := hct.tables_eq hcv
    rw [ht, hv']
    obtain ⟨-, a, c, n, rfl⟩ := genBody_writes ht
    obtain ⟨-, a', c', n', rfl⟩ := genBody_writes hv'
    obtain rfl : n' = n := hlbits
    exact .ok ⟨by rw [h.frame], h.freq, h.weight, h.left, h.right, fun _ => hlen, fun _ => hcode⟩
  · rw [genBody, genBody, htreeV, Bool.eq_false_iff.mpr hv]
    exact .error _

theorem hdrwBody_alike {s u : State} (h : s.Agree u) (hs : s.Sound) : Alike State.Agree (hdrwBody s) (hdrwBody u) := by
  have hcodeV : u.codeV = s.codeV := by rw [h.frame]
  by_cases hv : s.codeV = true
  · have hfreq := h.freq (hs.tree (hs.codeTree hv)).1
    have hnsym : u.nsym = s.nsym := by rw [h.frame]
    have hlbits : u.lbits = s.lbits := by rw [h.frame]
    have hstart (p : BitVec 3) : (s.withPad p).outRestart.Agree (u.withPad p).outRestart :=
      ⟨by rw [h.frame]; rfl, h.freq, h.weight, h.left, h.right, h.codeLen, h.code⟩
    have hput := (hstart (padCount s.lbits.toNat)).putAll (headerBytes s.freq s.nsym (padCount s.lbits.toNat))
    rw [(hdrwBody_ok s _).mpr ⟨hv, rfl⟩, (hdrwBody_ok u _).mpr ⟨hcodeV.trans hv, rfl⟩, hlbits, hfreq, hnsym]
    generalize State.putAll (State.outRestart (s.withPad _)) _ = t at hput
    generalize State.putAll (State.outRestart (u.withPad _)) _ = v at hput
    exact .ok ⟨by rw [hput.frame]; rfl, hput.freq, hput.weight, hput.left, hput.right, hput.codeLen, hput.code⟩
  · rw [hdrwBody, hdrwBody, hcodeV, Bool.eq_false_iff.mpr hv]
    exact .error _

/-! ## `PACK` -/

/-- Two runs of `PACK` at the same bit, with valid codes. -/
structure Packer.Agree (p p' : Packer) : Prop where
  acc : p'.acc = p.acc
  nbit : p'.nbit = p.nbit
  nb : p'.nb = p.nb
  st : p.st.Agree p'.st
  codeV : p.st.codeV = true

theorem putBit_alike {p p' : Packer} (h : p.Agree p') (b : Bool) : Alike Packer.Agree (p.putBit b) (p'.putBit b) := by
  by_cases h7 : p.nbit = 7
  · rw [putBit_full h7, putBit_full (h.nbit.trans h7), h.acc, h.nbit]
    refine (emit_alike h.st _).bind fun t v ht htv => .ok ⟨rfl, rfl, h.nb, htv, ?_⟩
    obtain ⟨_, _, rfl⟩ := emit_writes ht
    exact h.codeV
  · rw [putBit_held h7, putBit_held (fun h' => h7 (h.nbit.symm.trans h')), h.acc, h.nbit]
    exact .ok ⟨rfl, rfl, h.nb, h.st, h.codeV⟩

theorem putCodeBit_alike {p p' : Packer} (h : p.Agree p') (b : Bool) :
    Alike Packer.Agree (p.putCodeBit b) (p'.putCodeBit b) :=
  (putBit_alike h b).bind fun q q' _ hq => .ok ⟨hq.acc, hq.nbit, by rw [hq.nb], hq.st, hq.codeV⟩

theorem putCode_alike {p p' : Packer} (h : p.Agree p') (x : Byte) : Alike Packer.Agree (p.putCode x) (p'.putCode x) := by
  have hlen : p'.st.codeLenAt x = p.st.codeLenAt x := by rw [State.codeLenAt, h.st.codeLen h.codeV, State.codeLenAt]
  have hdraws : p'.st.draws = p.st.draws := by rw [h.st.frame]
  have hbits : p'.st.codeBits x = p.st.codeBits x := by
    rw [State.codeBits, hlen, h.st.code h.codeV, hdraws, State.codeBits]
  rw [putCode_eq, putCode_eq, hlen, hbits]
  split
  · exact .error _
  · exact Alike.foldlM (fun _ _ h => putCodeBit_alike h) _ h

theorem packBody_alike {s u : State} (h : s.Agree u) : Alike State.Agree (packBody s) (packBody u) := by
  have hcodeV : u.codeV = s.codeV := by rw [h.frame]
  have hlen : u.requireInLen = s.requireInLen := by rw [h.frame]; rfl
  have hinput : u.inputBytes = s.inputBytes := by rw [h.frame]; rfl
  rw [packBody, packBody, hcodeV, hlen, hinput]
  refine Alike.check _ fun hv => Alike.check _ fun _ => ?_
  have hstart : Packer.Agree { acc := 0, nbit := 0, nb := 0, st := s } { acc := 0, nbit := 0, nb := 0, st := u } :=
    ⟨rfl, rfl, rfl, h, (require_ok _ _ _).mp hv⟩
  refine (Alike.foldlM (fun _ _ h => putCode_alike h) s.inputBytes hstart).bind fun p p' _ hp => ?_
  rw [hp.nb]
  refine (Alike.foldlM (fun _ _ h => putBit_alike h) _ hp).bind fun q q' _ hq => .ok ?_
  have hq := hq.st
  exact ⟨by rw [hq.frame]; rfl, hq.freq, hq.weight, hq.left, hq.right, hq.codeLen, hq.code⟩

/-! ## `UNPACK` -/

/-- From a node of the tree the two arenas lead to the same children. -/
theorem State.Agree.decodesAs {s u : State} (h : s.Agree u) (hv : s.treeV = true) (hroot : s.onTree s.root) :
    s.outRestart.DecodesAs u.outRestart s.onTree := by
  have hleaf {id : NodeId} (hid : isLeaf id = true) (t : State) (b : Bool) : t.child id b = .error (.stuck .noSuchNode) := by
    rw [isLeaf_iff] at hid
    exact (child_error _ _ _ _).mpr ⟨by omega, rfl⟩
  refine ⟨by rw [h.frame]; rfl, by rw [h.frame]; rfl, by rw [h.frame]; rfl, by rw [h.frame]; rfl, fun id b hid => ?_,
    fun id b c hid hc _ => ?_, hroot⟩
  · by_cases hl : isLeaf id = true
    · rw [hleaf hl, hleaf hl]
    · obtain ⟨k, hk, hchild, -, -⟩ := hid.children (Bool.eq_false_iff.mpr hl)
      rw [hchild, hchild, show rightOf u.outRestart k = rightOf s k from h.right hv k hk,
        show leftOf u.outRestart k = leftOf s k from h.left hv k hk]
      rfl
  · by_cases hl : isLeaf id = true
    · rw [hleaf hl] at hc
      cases hc
    · obtain ⟨k, -, hchild, hsl, hsr⟩ := hid.children (Bool.eq_false_iff.mpr hl)
      rw [hchild] at hc
      obtain rfl := Except.ok.inj hc
      cases b
      · exact hsl
      · exact hsr

theorem unpackBody_alike {s u : State} (h : s.Agree u) (hs : s.Sound) :
    Alike State.Agree (unpackBody s) (unpackBody u) := by
  have hcodeV : u.codeV = s.codeV := by rw [h.frame]
  by_cases hcode : s.codeV = true
  · have hv := hs.codeTree hcode
    obtain ⟨-, T, hT⟩ := hs.tree hv
    have hloop := h.decodesAs hv hT.onTree_root
    have hbody := hloop.unpackBody_eq hcodeV (by rw [h.frame]) (by rw [h.frame]) (by rw [h.frame]) (by rw [h.frame])
      (by rw [h.frame]) fun i _ => by rw [h.frame]; rfl
    cases hrun : unpackBody s with
    | error x =>
      rw [hbody, hrun]
      exact .error x
    | ok t =>
      rw [hbody, hrun]
      obtain ⟨-, -, -, -, n, b, rfl⟩ := unpackBody_writes hrun
      exact .ok ⟨by rw [h.frame]; rfl, h.freq, h.weight, h.left, h.right, h.codeLen, h.code⟩
  · rw [unpackBody, unpackBody, hcodeV, Bool.eq_false_iff.mpr hcode]
    exact .error _

/-! ## The composites -/

theorem State.Agree.restart {s u : State} (h : s.Agree u) : s.outRestart.Agree u.outRestart :=
  ⟨by rw [h.frame]; rfl, h.freq, h.weight, h.left, h.right, h.codeLen, h.code⟩

theorem compressBody_alike {s u : State} (h : s.Agree u) : Alike State.Agree (compressBody s) (compressBody u) := by
  refine (freqBody_alike h).bind fun t v ht htv => ?_
  have hst := freqBody_sound ht
  have hnsym : v.nsym = t.nsym := by rw [htv.frame]
  rw [hnsym]
  split
  · have htv := htv.restart
    exact .ok ⟨by rw [htv.frame]; rfl, htv.freq, htv.weight, htv.left, htv.right, htv.codeLen, htv.code⟩
  refine (buildBody_alike htv hst).bind fun t v ht htv => ?_
  have hst := buildBody_sound hst ht
  refine (genBody_alike htv hst).bind fun t v ht htv => ?_
  have hst := genBody_sound hst ht
  exact (hdrwBody_alike htv hst).bind fun t v _ htv => packBody_alike htv

theorem decompressBody_alike {s u : State} (h : s.Agree u) : Alike State.Agree (decompressBody s) (decompressBody u) := by
  refine (hdrpBody_alike h).bind fun t v ht htv => ?_
  have hst := hdrpBody_sound ht
  have hnsym : v.nsym = t.nsym := by rw [htv.frame]
  rw [hnsym]
  split
  · exact .ok htv.restart
  refine (buildBody_alike htv hst).bind fun t v ht htv => ?_
  have hst := buildBody_sound hst ht
  exact (genBody_alike htv hst).bind fun t v ht htv => unpackBody_alike htv (genBody_sound hst ht)

/-! ## Agreement and what is settled -/

/-- `u` has the control registers of `s`. -/
structure State.SameControl (s u : State) : Prop where
  cmd : u.cmd = s.cmd
  phase : u.phase = s.phase
  err : u.err = s.err
  detail : u.detail = s.detail

theorem settled_weight (s : State) {id : NodeId} (hid : id.toNat < 511) :
    tget s.settled.weight id.toNat 0 = if s.treeV = true ∧ s.nodeExists id then tget s.weight id.toNat 0 else 0 := by
  rw [State.settled, tget_tabulate _ _ hid, BitVec.ofNat_toNat, BitVec.setWidth_eq]

theorem settled_left (s : State) {k : Nat} (hk : k < 255) :
    leftOf s.settled k = if s.treeV = true ∧ k < s.nint.toNat then leftOf s k else 0 := tget_tabulate _ _ hk

theorem settled_right (s : State) {k : Nat} (hk : k < 255) :
    rightOf s.settled k = if s.treeV = true ∧ k < s.nint.toNat then rightOf s k else 0 := tget_tabulate _ _ hk

theorem nodeExists_lt {s : State} {id : NodeId} (h : s.nodeExists id) : id.toNat < 511 := by
  have := s.nint.isLt
  rcases h with ⟨h, -⟩ | ⟨-, h⟩ <;> omega

/-- States whose settled forms are equal agree, and their control registers too. -/
theorem agree_of_settled {s u : State} (hf : s.treeV = true → s.freqV = true) (h : s.settled = u.settled) :
    s.Agree u ∧ s.SameControl u := by
  have hframe : u = { s with
      cmd := u.cmd, phase := u.phase, err := u.err, detail := u.detail, freq := u.freq, weight := u.weight, left := u.left
      right := u.right, inq := u.inq, codeLen := u.codeLen, code := u.code } :=
    calc u = { u.settled with
          cmd := u.cmd, phase := u.phase, err := u.err, detail := u.detail, freq := u.freq, weight := u.weight
          left := u.left, right := u.right, inq := u.inq, codeLen := u.codeLen, code := u.code } := rfl
      _ = { s.settled with
          cmd := u.cmd, phase := u.phase, err := u.err, detail := u.detail, freq := u.freq, weight := u.weight
          left := u.left, right := u.right, inq := u.inq, codeLen := u.codeLen, code := u.code } := by rw [h]
  have hfreqV : u.freqV = s.freqV := by rw [hframe]
  have htreeV : u.treeV = s.treeV := by rw [hframe]
  have hcodeV : u.codeV = s.codeV := by rw [hframe]
  have hnint : u.nint = s.nint := by rw [hframe]
  have hlt := s.nint.isLt
  have hfreq (hv : s.freqV = true) : u.freq = s.freq := by
    have heq : (if s.freqV then s.freq else _) = if u.freqV then u.freq else _ := congrArg State.freq h
    rw [hfreqV, if_pos hv, if_pos hv] at heq
    exact heq.symm
  have hexists (hv : s.treeV = true) (id : NodeId) : u.nodeExists id ↔ s.nodeExists id := by
    rw [State.nodeExists, State.nodeExists, hfreq (hf hv), hnint]
  refine ⟨⟨hframe, hfreq, fun hv id hid => ?_, fun hv k hk => ?_, fun hv k hk => ?_, fun hv => ?_, fun hv => ?_⟩,
    (congrArg State.cmd h).symm, (congrArg State.phase h).symm, (congrArg State.err h).symm, (congrArg State.detail h).symm⟩
  · have heq := congrArg (fun t => tget t.weight id.toNat 0) h
    rw [settled_weight s (nodeExists_lt hid), settled_weight u (nodeExists_lt hid), if_pos ⟨hv, hid⟩,
      if_pos ⟨htreeV.trans hv, (hexists hv id).mpr hid⟩] at heq
    rw [weightOf, weightOf, heq]
  · have heq := congrArg (leftOf · k) h
    rw [settled_left s (by omega), settled_left u (by omega), if_pos ⟨hv, hk⟩,
      if_pos ⟨htreeV.trans hv, hnint.symm ▸ hk⟩] at heq
    exact heq.symm
  · have heq := congrArg (rightOf · k) h
    rw [settled_right s (by omega), settled_right u (by omega), if_pos ⟨hv, hk⟩,
      if_pos ⟨htreeV.trans hv, hnint.symm ▸ hk⟩] at heq
    exact heq.symm
  · have heq : (if s.codeV then s.codeLen else _) = if u.codeV then u.codeLen else _ := congrArg State.codeLen h
    rw [hcodeV, if_pos hv, if_pos hv] at heq
    exact heq.symm
  · have heq : (if s.codeV then s.code else _) = if u.codeV then u.code else _ := congrArg State.code h
    rw [hcodeV, if_pos hv, if_pos hv] at heq
    exact heq.symm

section
variable {s u : State} (h : s.Agree u)
include h

theorem State.Agree.settled_weight_eq (hf : s.treeV = true → s.freqV = true) : u.settled.weight = s.settled.weight := by
  have htreeV : u.treeV = s.treeV := by rw [h.frame]
  have hnint : u.nint = s.nint := by rw [h.frame]
  have hall (id : NodeId) (hid : id.toNat < 511) : tget u.settled.weight id.toNat 0 = tget s.settled.weight id.toNat 0 := by
    rw [settled_weight s hid, settled_weight u hid, htreeV]
    by_cases hv : s.treeV = true
    · have hexists : u.nodeExists id ↔ s.nodeExists id := by
        rw [State.nodeExists, State.nodeExists, h.freq (hf hv), hnint]
      simp only [hexists]
      split
      · rename_i hnode
        exact BitVec.eq_of_toNat_eq (h.weight hv id hnode.2)
      · rfl
    · rw [if_neg fun h => hv h.1, if_neg fun h => hv h.1]
  refine table_ext 0 fun i hi => ?_
  have hid : (BitVec.ofNat 9 i).toNat = i := Nat.mod_eq_of_lt (by omega)
  have := hall (BitVec.ofNat 9 i) (by rwa [hid])
  rwa [hid] at this

theorem State.Agree.settled_children_eq : u.settled.left = s.settled.left ∧ u.settled.right = s.settled.right := by
  have htreeV : u.treeV = s.treeV := by rw [h.frame]
  have hnint : u.nint = s.nint := by rw [h.frame]
  constructor
  · refine table_ext 0 fun k hk => (settled_left u hk).trans (Eq.trans ?_ (settled_left s hk).symm)
    rw [htreeV, hnint]
    split
    · rename_i hcond
      exact h.left hcond.1 k hcond.2
    · rfl
  · refine table_ext 0 fun k hk => (settled_right u hk).trans (Eq.trans ?_ (settled_right s hk).symm)
    rw [htreeV, hnint]
    split
    · rename_i hcond
      exact h.right hcond.1 k hcond.2
    · rfl

theorem State.Agree.settled_freq_eq : u.settled.freq = s.settled.freq := by
  have hfreqV : u.freqV = s.freqV := by rw [h.frame]
  show (if u.freqV then u.freq else _) = if s.freqV then s.freq else _
  rw [hfreqV]
  split
  · exact h.freq ‹_›
  · rfl

theorem State.Agree.settled_codes_eq : u.settled.codeLen = s.settled.codeLen ∧ u.settled.code = s.settled.code := by
  have hcodeV : u.codeV = s.codeV := by rw [h.frame]
  constructor
  · show (if u.codeV then u.codeLen else _) = if s.codeV then s.codeLen else _
    rw [hcodeV]
    split
    · exact h.codeLen ‹_›
    · rfl
  · show (if u.codeV then u.code else _) = if s.codeV then s.code else _
    rw [hcodeV]
    split
    · exact h.code ‹_›
    · rfl

/-- Agreeing states with the same control registers have equal settled forms. -/
theorem State.Agree.settled_eq (hc : s.SameControl u) (hf : s.treeV = true → s.freqV = true) : s.settled = u.settled := by
  obtain ⟨hleft, hright⟩ := h.settled_children_eq
  obtain ⟨hlen, hcode⟩ := h.settled_codes_eq
  have hframe := h.frame
  rw [hc.cmd, hc.phase, hc.err, hc.detail] at hframe
  symm
  calc u.settled = { u with
        freq := u.settled.freq, weight := u.settled.weight, left := u.settled.left, right := u.settled.right
        inq := Vector.replicate 511 false, codeLen := u.settled.codeLen, code := u.settled.code } := rfl
    _ = { u with
        freq := s.settled.freq, weight := s.settled.weight, left := s.settled.left, right := s.settled.right
        inq := Vector.replicate 511 false, codeLen := s.settled.codeLen, code := s.settled.code } := by
      rw [h.settled_freq_eq, h.settled_weight_eq hf, hleft, hright, hlen, hcode]
    _ = s.settled := by
      rw [hframe]
      rfl

end

/-! ## One step of agreeing states -/

theorem State.Agree.raise {s u : State} (h : s.Agree u) (e : CmdError) : (s.raise e).Agree (u.raise e) :=
  agree_of_noTree (by rw [h.frame]; rfl) (fun h => by cases h) rfl rfl

theorem State.Agree.clear {s u : State} (h : s.Agree u) : s.clear.Agree u.clear :=
  agree_of_noTree (by rw [h.frame]; rfl) (fun h => by cases h) rfl rfl

/-- The next states of two outcomes agree, control registers included. -/
def SameNext (o o' : Host.Outcome State Fault Refusal) : Prop :=
  ∀ t, o = .next t → ∃ v, o' = .next v ∧ t.Agree v ∧ t.SameControl v

theorem sameNext_of_agree {s u : State} (h : s.Agree u) (hc : s.SameControl u) : SameNext (.next s) (.next u) :=
  fun _ ht => ⟨u, rfl, Host.Outcome.next.inj ht ▸ h, Host.Outcome.next.inj ht ▸ hc⟩

theorem sameNext_refused (r : Refusal) (o : Host.Outcome State Fault Refusal) : SameNext (.refused r) o :=
  fun _ ht => by cases ht

/-- A command whose pseudocode ends alike. -/
theorem command_sameNext {s u : State} (h : s.Agree u) (hc : s.SameControl u) {w : Word} {body : State → Run State}
    (hkeeps : ∀ {a b}, body a = .ok b → a.Keeps b) (hbody : Alike State.Agree (body (s.accept w)) (body (u.accept w))) :
    SameNext (s.command w body) (u.command w body) := by
  by_cases hp : s.phase = .error
  · rw [command_in_error hp, command_in_error (hc.phase.trans hp)]
    exact sameNext_of_agree h hc
  · have hp' : u.phase ≠ .error := fun h' => hp (hc.phase.symm.trans h')
    rw [command_eq hp, command_eq hp']
    generalize hr : body (s.accept w) = r at hbody
    generalize hr' : body (u.accept w) = r' at hbody
    cases hbody with
    | ok htv => exact sameNext_of_agree htv.complete ⟨(hkeeps hr').cmd.trans (hkeeps hr).cmd.symm, rfl, rfl, rfl⟩
    | error x =>
      cases x with
      | raise e => exact sameNext_of_agree ((h.accept w w).raise e) ⟨rfl, rfl, rfl, rfl⟩
      | stuck f => exact fun _ ht => by cases ht

theorem exec_sameNext {s u : State} (hi : s.Inv) (h : s.Agree u) (hc : s.SameControl u) (i : Instr) :
    SameNext (exec i s) (exec i u) := by
  have ha (w : Word) : (s.accept w).Agree (u.accept w) := h.accept w w
  have hs (w : Word) : (s.accept w).Sound := (hi.accept w).sound
  cases i with
  | nop =>
    by_cases hp : s.phase = .error
    · rw [exec_nop_of_error hp, exec_nop_of_error (hc.phase.trans hp)]
      exact sameNext_of_agree h hc
    · rw [exec_nop_of_ready hp, exec_nop_of_ready fun h' => hp (hc.phase.symm.trans h')]
      exact sameNext_of_agree (ha _) ⟨rfl, hc.phase, hc.err, hc.detail⟩
  | clear => exact sameNext_of_agree (ha _).clear ⟨rfl, rfl, rfl, rfl⟩
  | freq => exact command_sameNext h hc freqBody_keeps (freqBody_alike (ha _))
  | build => exact command_sameNext h hc buildBody_keeps (buildBody_alike (ha _) (hs _))
  | gen => exact command_sameNext h hc genBody_keeps (genBody_alike (ha _) (hs _))
  | hdrw => exact command_sameNext h hc hdrwBody_keeps (hdrwBody_alike (ha _) (hs _))
  | pack => exact command_sameNext h hc packBody_keeps (packBody_alike (ha _))
  | hdrp => exact command_sameNext h hc hdrpBody_keeps (hdrpBody_alike (ha _))
  | unpack => exact command_sameNext h hc unpackBody_keeps (unpackBody_alike (ha _) (hs _))
  | compress => exact command_sameNext h hc compressBody_keeps (compressBody_alike (ha _))
  | decompress => exact command_sameNext h hc decompressBody_keeps (decompressBody_alike (ha _))

theorem writeCmd_sameNext {s u : State} (hi : s.Inv) (h : s.Agree u) (hc : s.SameControl u) (w : Word) :
    SameNext (s.writeCmd w) (u.writeCmd w) := by
  unfold State.writeCmd
  split
  · exact exec_sameNext hi h hc _
  · exact command_sameNext h hc (fun h => by cases h) (.error _)

theorem access_sameNext {s u : State} (hi : s.Inv) (h : s.Agree u) (hc : s.SameControl u) (a : HostAccess) :
    SameNext (s.access a) (u.access a) := by
  have hcaps : u.caps = s.caps := by rw [h.frame]
  have hframe := h.frame
  rw [hc.cmd, hc.phase, hc.err, hc.detail] at hframe
  have hread (v : ReadValue) : SameNext (.next (s.returnRead v)) (.next (u.returnRead v)) :=
    sameNext_of_agree ⟨by rw [h.frame]; rfl, h.freq, h.weight, h.left, h.right, h.codeLen, h.code⟩
      ⟨hc.cmd, hc.phase, hc.err, hc.detail⟩
  cases a with
  | writeReg off w =>
    simp only [State.access, writeReg_cases]
    split
    · split
      · exact writeCmd_sameNext hi h hc w
      · split
        · exact sameNext_of_agree ⟨by rw [h.frame], h.freq, h.weight, h.left, h.right, h.codeLen, h.code⟩
            ⟨hc.cmd, hc.phase, hc.err, hc.detail⟩
        · exact sameNext_of_agree h hc
    · exact sameNext_refused _ _
  | readReg off =>
    have hreg : u.readReg off = s.readReg off := by rw [hframe]; rfl
    simp only [State.access, hreg]
    split
    · exact hread _
    · exact sameNext_refused _ _
  | writeIn i b =>
    simp only [State.access, hcaps]
    split
    · exact sameNext_of_agree ⟨by rw [h.frame]; rfl, h.freq, h.weight, h.left, h.right, h.codeLen, h.code⟩
        ⟨hc.cmd, hc.phase, hc.err, hc.detail⟩
    · exact sameNext_refused _ _
  | readIn i =>
    have hbyte : u.inByte i = s.inByte i := by rw [hframe]; rfl
    simp only [State.access, hcaps, hbyte]
    split
    · exact hread _
    · exact sameNext_refused _ _
  | readOut i =>
    have hbyte : u.outByte i = s.outByte i := by rw [hframe]; rfl
    simp only [State.access, hcaps, hbyte]
    split
    · exact hread _
    · exact sameNext_refused _ _
  | reset =>
    exact sameNext_of_agree (agree_of_noTree (by rw [h.frame]; rfl) (fun h => by cases h) rfl rfl) ⟨rfl, rfl, rfl, rfl⟩
  | writeOut i b => exact sameNext_refused _ _
  | otherWidth sp i n => exact sameNext_refused _ _
  | duringCommand => exact sameNext_refused _ _

end Sys2Proof.Machine

namespace Sys2Proof
open Sys2Proof.Machine Sys2Proof.Claims

/-- Settles O60: each pseudocode reads the tables only where its flags hold, and there at nodes that exist; what it writes is
the same function of what it reads. -/
theorem unspecifiedTablesReachNoOutcome : Obligations.UnspecifiedTablesReachNoOutcome := by
  intro s u t hs hu h hstep
  have ht := everyStepKeepsTheInvariant s t hs hstep
  obtain ⟨hagree, hc⟩ := agree_of_settled (fun hv => (hs.flags.treeFreq hv).1) h
  have hprog : u.hostProgram = s.hostProgram := by rw [hagree.frame]
  cases hp : s.hostProgram with
  | nil =>
    rw [step_nil hp] at hstep
    cases hstep
    exact ⟨u, step_nil (hprog.trans hp), h⟩
  | cons a rest =>
    rw [step_cons hp] at hstep
    have hi := hs.host (n := s.inLen) hs.buffers.inWf hs.buffers.inRange rest s.hostReads
    have hagree' : State.Agree { s with hostProgram := rest } { u with hostProgram := rest } :=
      ⟨by rw [hagree.frame], hagree.freq, hagree.weight, hagree.left, hagree.right, hagree.codeLen, hagree.code⟩
    obtain ⟨v, hv, htv, hctv⟩ :=
      access_sameNext (s := { s with hostProgram := rest }) hi hagree' ⟨hc.cmd, hc.phase, hc.err, hc.detail⟩ a t hstep
    exact ⟨v, (step_cons (hprog.trans hp)).trans hv, htv.settled_eq hctv fun hv => (ht.flags.treeFreq hv).1⟩

end Sys2Proof
end

section
/-!
PROOF. The composite commands end as their parts in sequence (45_control_and_composite.md R91).
-/
namespace Sys2Proof.Machine
open Sys2Proof.Claims

/-! ## Parts run in sequence -/

/-- What error entry keeps is the same in `u` as in `s`, `CMD` apart (60_exceptions.md R98). -/
structure State.SameOuter (s u : State) : Prop where
  caps : u.caps = s.caps
  inLen : u.inLen = s.inLen
  inBuf : u.inBuf = s.inBuf
  resets : u.resets = s.resets
  hostProgram : u.hostProgram = s.hostProgram
  hostReads : u.hostReads = s.hostReads

/-- After error entry nothing else is left of the two states. -/
theorem State.SameOuter.raise {s u : State} (h : s.SameOuter u) (e : CmdError) :
    sameButCmd (s.raise e) (u.raise e) := by
  have hagree : State.Agree { s.raise e with cmd := 0, draws := 0 } { u.raise e with cmd := 0, draws := 0 } := by
    refine agree_of_noTree ?_ (fun h => by cases h) rfl rfl
    rw [raise_eq, raise_eq, h.caps, h.inLen, h.inBuf, h.resets, h.hostProgram, h.hostReads]
    rfl
  exact hagree.settled_eq ⟨rfl, rfl, rfl, rfl⟩ fun h => by cases h

/-- The parts of a composite command, run in sequence, ended in `o`; the pseudocode of the composite, begun in `s`, in `r`. -/
inductive EndsAs (s : State) : Host.Outcome State Fault Refusal → Run State → Prop
  | ok {t v : State} (h : t.Agree v) (hdone : v.phase = .done ∧ v.err = 0 ∧ v.detail = 0) : EndsAs s (.next v) (.ok t)
  | raise {w : State} (e : CmdError) (h : s.SameOuter w) : EndsAs s (.next (w.raise e)) (.error (.raise e))

theorem runAll_cons (i : Instr) (is : List Instr) {s t : State} (h : exec i s = .next t) :
    runAll (i :: is) s = runAll is t := by
  rw [runAll, h]

theorem runAll_in_error {is : List Instr} (his : ∀ i ∈ is, i ≠ .clear) {s : State} (h : s.phase = .error) :
    runAll is s = .next s := by
  induction is with
  | nil => rfl
  | cons i is ih =>
    rw [runAll_cons i is (exec_in_error h (his i List.mem_cons_self))]
    exact ih fun j hj => his j (List.mem_cons_of_mem i hj)

/-- A part of a composite that runs on agreeing states: the composite goes on with the part's result, the parts with the state
the command completes in; an error ends both. -/
theorem endsAs_part {s0 t v : State} {i : Instr} {is : List Instr} {body : State → Run State} {k : State → Run State}
    (hexec : ∀ u, exec i u = u.command (encode i) body) (his : ∀ i ∈ is, i ≠ .clear)
    (hkeeps : ∀ {a b}, body a = .ok b → a.Keeps b) (hready : v.ready) (htv : t.Agree v) (h0 : s0.Keeps t)
    (hbody : ∀ {u}, t.Agree u → Alike State.Agree (body t) (body u)) (hstuck : ∀ f, body t ≠ .error (.stuck f))
    (hnext : ∀ t' v', body t = .ok t' → t'.Agree v' → v'.phase = .done ∧ v'.err = 0 ∧ v'.detail = 0 → s0.Keeps t' →
      EndsAs s0 (runAll is v') (k t')) :
    EndsAs s0 (runAll (i :: is) v) (body t >>= k) := by
  have hcommand := command_eq hready (encode i) body
  rw [← hexec] at hcommand
  have hbody := hbody (htv.accept t.cmd (encode i))
  generalize hr : body t = r at hbody hnext hstuck
  generalize hr' : body (v.accept (encode i)) = r' at hbody hcommand
  cases hbody with
  | @ok t' v' htv' =>
    rw [runAll_cons i is hcommand]
    have hcomplete : t'.Agree v'.complete :=
      ⟨by rw [htv'.frame]; rfl, htv'.freq, htv'.weight, htv'.left, htv'.right, htv'.codeLen, htv'.code⟩
    exact hnext t' v'.complete rfl hcomplete ⟨rfl, rfl, rfl⟩ (h0.trans (hkeeps hr))
  | error x =>
    cases x with
    | raise e =>
      rw [runAll_cons i is hcommand, runAll_in_error his rfl]
      refine .raise e ⟨?_, ?_, ?_, ?_, ?_, ?_⟩
      · rw [htv.frame]
        exact h0.caps
      · rw [htv.frame]
        exact h0.inLen
      · rw [htv.frame]
        exact h0.inBuf
      · rw [htv.frame]
        exact h0.resets
      · rw [htv.frame]
        exact h0.hostProgram
      · rw [htv.frame]
        exact h0.hostReads
    | stuck f => exact absurd rfl (hstuck f)

theorem ready_of_done {s : State} (h : s.phase = .done ∧ s.err = 0 ∧ s.detail = 0) : s.ready := by
  rw [State.ready, h.1]
  decide

/-- The last part is the whole of what is left of the composite. -/
theorem endsAs_last {s0 t v : State} {i : Instr} {body : State → Run State}
    (hexec : ∀ u, exec i u = u.command (encode i) body) (hkeeps : ∀ {a b}, body a = .ok b → a.Keeps b) (hready : v.ready)
    (htv : t.Agree v) (h0 : s0.Keeps t) (hbody : ∀ {u}, t.Agree u → Alike State.Agree (body t) (body u))
    (hstuck : ∀ f, body t ≠ .error (.stuck f)) : EndsAs s0 (runAll [i] v) (body t) := by
  have hbind : body t = (body t >>= .ok) := by cases body t <;> rfl
  rw [hbind]
  exact endsAs_part hexec (fun _ h => absurd h List.not_mem_nil) hkeeps hready htv h0 hbody hstuck
    fun _ _ _ h hdone _ => .ok h hdone

/-- `BUILD` then `GEN` as parts of a composite. -/
theorem endsAs_build_gen {s0 t v : State} {is : List Instr} {k : State → Run State} (his : ∀ i ∈ is, i ≠ .clear)
    (hs : t.Sound) (hready : v.ready) (htv : t.Agree v) (h0 : s0.Keeps t)
    (hnext : ∀ t' v', t'.Sound → t'.Agree v' → v'.ready → s0.Keeps t' → EndsAs s0 (runAll is v') (k t')) :
    EndsAs s0 (runAll (.build :: .gen :: is) v) (buildBody t >>= fun t => genBody t >>= k) := by
  refine endsAs_part (fun _ => rfl) (by simpa using his) buildBody_keeps hready htv h0 (fun h => buildBody_alike h hs)
    (buildBody_not_stuck hs) fun t v ht htv hdone h0 => ?_
  have hs := buildBody_sound hs ht
  exact endsAs_part (fun _ => rfl) his genBody_keeps (ready_of_done hdone) htv h0 (fun h => genBody_alike h hs)
    (genBody_not_stuck hs) fun t v ht htv hdone h0 => hnext t v (genBody_sound hs ht) htv (ready_of_done hdone) h0

/-- A composite whose pseudocode ends as its parts do. -/
theorem EndsAs.sameButCmd {s : State} {c : Instr} {is : List Instr} {body : State → Run State}
    (hexec : exec c s = s.command (encode c) body) (hready : s.ready)
    (hflags : ∀ t, body (s.accept (encode c)) = .ok t → t.treeV = true → t.freqV = true)
    (h : EndsAs (s.accept (encode c)) (runAll is s) (body (s.accept (encode c)))) :
    ∃ t u, exec c s = .next t ∧ runAll is s = .next u ∧ sameButCmd t u := by
  rw [hexec, command_eq hready]
  generalize hr : body (s.accept (encode c)) = r at h
  generalize runAll is s = o at h
  cases h with
  | @ok t v htv hdone =>
    obtain ⟨hphase, herr, hdetail⟩ := hdone
    refine ⟨_, _, rfl, rfl, ?_⟩
    have hagree : State.Agree { t.complete with cmd := 0, draws := 0 } { v with cmd := 0, draws := 0 } :=
      ⟨by rw [htv.frame]; rfl, htv.freq, htv.weight, htv.left, htv.right, htv.codeLen, htv.code⟩
    exact hagree.settled_eq ⟨rfl, hphase, herr, hdetail⟩ (hflags t hr)
  | raise e h => exact ⟨_, _, rfl, rfl, h.raise e⟩

end Sys2Proof.Machine

namespace Sys2Proof
open Sys2Proof.Machine Sys2Proof.Claims

/-- Settles O54: part by part the states agree, and so do the errors. -/
theorem compressIsItsParts : Obligations.CompressIsItsParts := by
  intro s hready hpos hcap
  have hne : s.inLen ≠ 0 := fun h0 => by
    rw [h0] at hpos
    exact absurd hpos (Nat.lt_irrefl 0)
  refine EndsAs.sameButCmd rfl hready (fun t ht _ => ?_) ?_
  · have hflags := compressBody_flags ht
    rw [if_neg (show ¬ (s.accept (encode .compress)).inLen = 0 from hne)] at hflags
    exact hflags.1
  refine endsAs_part (fun _ => rfl) (by decide) freqBody_keeps hready ((State.Agree.refl s).accept _ s.cmd) (.refl _)
    freqBody_alike (fun f h => by cases freqBody_error h) fun t v ht htv hdone h0 => ?_
  rw [if_neg fun hn => hne ((freqBody_nsym ht).mp hn)]
  refine endsAs_build_gen (by decide) (freqBody_sound ht) (ready_of_done hdone) htv h0 fun t v hs htv hready h0 => ?_
  refine endsAs_part (fun _ => rfl) (by decide) hdrwBody_keeps hready htv h0 (fun h => hdrwBody_alike h hs)
    hdrwBody_not_stuck fun t v _ htv hdone h0 => ?_
  exact endsAs_last (fun _ => rfl) packBody_keeps (ready_of_done hdone) htv h0 packBody_alike packBody_not_stuck

/-- Settles O55: as O54, and an empty alphabet is excluded by the premise. -/
theorem decompressIsItsParts : Obligations.DecompressIsItsParts := by
  intro s hready hne
  refine EndsAs.sameButCmd rfl hready (fun t ht _ => ?_) ?_
  · have hflags := decompressBody_flags ht
    split at hflags <;> exact hflags.1
  refine endsAs_part (fun _ => rfl) (by decide) hdrpBody_keeps hready ((State.Agree.refl s).accept _ s.cmd) (.refl _)
    hdrpBody_alike hdrpBody_not_stuck fun t v ht htv hdone h0 => ?_
  have hn : t.nsym ≠ 0 := by
    have halike := hdrpBody_alike ((State.Agree.refl s).accept (encode .decompress) (encode .hdrp))
    rw [ht] at halike
    generalize hr : hdrpBody (s.accept (encode .hdrp)) = r at halike
    cases halike with
    | @ok _ u htu =>
      have hu := hne u.complete (command_ok hready hr) rfl
      rw [htu.frame] at hu
      exact hu
  rw [if_neg hn]
  refine endsAs_build_gen (by decide) (hdrpBody_sound ht) (ready_of_done hdone) htv h0 fun t v hs htv hready h0 => ?_
  exact endsAs_last (fun _ => rfl) unpackBody_keeps hready htv h0 (fun h => unpackBody_alike h hs) (unpackBody_not_stuck hs)

end Sys2Proof
end
